-- ==== Sys2Proof/Word.lean ====
section
/-! DEFINITION. The word types of the block (00_scope.md R9, 10_state.md). -/

namespace Sys2Proof

/-- A `u16`: a chipset register, a command word or an operand (R63, R80). -/
abbrev Word := BitVec 16

/-- A `u32` byte address of chip memory (R32, R37). -/
abbrev Addr := BitVec 32

/-- A byte of chip memory (R37). -/
abbrev Byte := BitVec 8

/-- A `u3` interrupt level, 0..7 (R26, R28, R133). -/
abbrev Level := Fin 8

/-- The number of an audio channel: `NCH = 4` (R7). -/
abbrev ChannelId := Fin 4

end Sys2Proof
end

