-- ==== Sys2Proof/Config.lean ====
section
/-! DEFINITION. The parameters the spec leaves to an implementation (00_scope.md R7) and the values it leaves free.
The parameters are a plain record `Params`, carried unchanged beside the state (log entry 8), so that a statement about
every state is a statement about every value of every parameter. Where R7 says OPEN and gives no default, the value after
reset is an opaque constant, of which nothing can be proved (log entry 9). -/

namespace Sys2Proof

/-- `P_ARM_TRIGGER` (R7, R101, D12): what arms an audio channel in a DMACON write. -/
inductive ArmTrigger where
  /-- the 0-to-1 transition of the channel's own DMACON bit -/
  | ownBit
  /-- the 0-to-1 transition of (channel bit and master enable) -/
  | effective
  deriving DecidableEq, Repr

/-- A register's byte offset, the field `C[8:0]` of a register access (R81). -/
abbrev Offset := BitVec 9

/-- The offsets of one channel's registers (R82). -/
structure AudioOffsets where
  lch : Offset
  lcl : Offset
  len : Offset
  per : Offset
  vol : Offset
  dat : Offset
  deriving DecidableEq, Repr

/-- The offsets of one channel's registers as a list (R82). -/
def AudioOffsets.all (a : AudioOffsets) : List Offset := [a.lch, a.lcl, a.len, a.per, a.vol, a.dat]

/-- `P_REG_ADDR`: where each register of the block lies (R82, D2). -/
structure RegMap where
  dmaconr : Offset
  adkconr : Offset
  intenar : Offset
  intreqr : Offset
  dmacon : Offset
  intena : Offset
  intreq : Offset
  adkcon : Offset
  audio : Vector AudioOffsets 4
  deriving DecidableEq, Repr

/-- The offsets of the read-only registers (R82). -/
def RegMap.readOffsets (m : RegMap) : List Offset := [m.dmaconr, m.adkconr, m.intenar, m.intreqr]

/-- The offsets of the write-only registers (R82). -/
def RegMap.writeOffsets (m : RegMap) : List Offset :=
  [m.dmacon, m.intena, m.intreq, m.adkcon] ++ m.audio[0].all ++ m.audio[1].all ++ m.audio[2].all ++ m.audio[3].all

/-- A map the encoding allows: every offset is even (`off[0]` is 0, R81), and no two registers share one, since the whole
offset selects the register (R81, R88). Log entry 11. -/
def RegMap.wf (m : RegMap) : Bool :=
  (m.readOffsets ++ m.writeOffsets).all (fun o => !o.getLsbD 0) && decide (m.readOffsets ++ m.writeOffsets).Nodup

/-- The parameters of R7 that the block's rules read. -/
structure Params where
  /-- `P_RATE`: amount subtracted from a working period per poll, at least 1 (D5) -/
  rate : Nat
  /-- `P_DEPTH`: depth of the latency queue in ticks (D6) -/
  depth : Nat
  /-- `P_PRIO[0..15]`: the priority table, each entry in 1..7 (R134, D4) -/
  prio : Vector Level 16
  /-- `P_GLOBAL_EN_BIT`: the INTENA bit that is the global enable (D3) -/
  globalEnBit : Fin 15
  /-- `P_AUD_INT_BIT[n]`: the pending bit of channel n (D3); bit 15 is no pending bit -/
  audIntBit : Vector (Fin 15) 4
  /-- `P_AUD_DMA_BIT[n]`: the DMACON bit of channel n (D3) -/
  audDmaBit : Vector (Fin 16) 4
  /-- `P_DMAEN_BIT`: the DMACON master enable (D3) -/
  dmaenBit : Fin 16
  /-- `P_DMACON_WMASK`: the DMACON bits a write stores (D10, C2) -/
  dmaconWmask : Word
  /-- `P_GAYLE_BIT`: the pending bit a non-zero Gayle level also asserts, if any (R137, D9); 15 is not legal (R136) -/
  gayleBit : Option (Fin 15)
  /-- `P_ARM_TRIGGER` (D12) -/
  armTrigger : ArmTrigger
  /-- `P_AUDIO_REQ`: whether an audio fetch also posts an Agnus request (R111, D15) -/
  audioReq : Bool
  /-- `P_PTR_MASK`: the audio pointer bits that are stored (D17) -/
  ptrMask : Addr
  /-- `P_REG_ADDR`: the register offsets the decoder reads (R82, D2) -/
  regAddr : RegMap
  /-- `P_TICKS_PER_LINE`: ticks between two end-of-line flags (R8, D24). The clock's, which the block does not hold (R231):
  no step reads it; `eolPaced` says what it means of a sequence of ticks -/
  ticksPerLine : Nat
  deriving DecidableEq, Repr

/-- The bounds R7, R11, R81 and R134 put on the parameters: `P_RATE >= 1`, every priority in 1..7, bit 15, the set/clear
flag, never stored, and a register map the encoding allows. The other bounds are in the types (log entry 20). -/
def Params.wf (p : Params) : Bool :=
  decide (1 ≤ p.rate) && p.prio.toList.all (fun l => decide (l ≠ 0)) && !p.dmaconWmask.getLsbD 15 &&
    p.regAddr.wf

/-- `P_RATE - 1`, OPEN (D5). Log entry 9. -/
opaque Config.rateLessOne : Nat

/-- `P_DEPTH`, OPEN (D6). Log entry 9. -/
opaque Config.depth : Nat

/-- `P_TICKS_PER_LINE`, OPEN (R8, D24). Log entry 9. -/
opaque Config.ticksPerLine : Nat

/-- `P_PRIO[14] - 1`, OPEN with no default (R134, D4). Log entry 9. -/
opaque Config.prio14LessOne : Fin 7

/-- `P_PRIO[15] - 1`, never read, because no bit 15 is stored (R134, C10). Log entry 9. -/
opaque Config.prio15LessOne : Fin 7

/-- The memory subsystem's answer for a byte of chip memory that no master has written: the answer to the `k`-th MemRead
at address `a` (R60, D40: "any value, an oracle answer"). A free value. Log entry 7. -/
opaque Config.chipAnswer (k a : Nat) : Byte

end Sys2Proof
end

