-- ==== Sys2Proof/Syntax.lean ====
section
/-! DEFINITION. The commands of the block (30_encoding.md R80, R82), one constructor for each row of
spec/opcode_table.json, and what the outside of the block issues in one host iteration (45_tick_and_host.md R230). -/

namespace Sys2Proof

/-- The DMA sources `SRC`, in priority order, Agnus first (R105). -/
inductive Source where
  | agnus | copper | blitter | cpu
  deriving DecidableEq, Repr

/-- The place of a source in the fixed priority order, 0 the highest; also its number in `C[1:0]` of REQ (R83, R105). -/
def Source.rank : Source → Nat
  | .agnus => 0 | .copper => 1 | .blitter => 2 | .cpu => 3

/-- The source with a number, if there is one (R83). -/
def Source.ofNat? : Nat → Option Source
  | 0 => some .agnus | 1 => some .copper | 2 => some .blitter | 3 => some .cpu | _ => none

/-- `SRC` as a list, highest priority first (R105). -/
def Source.all : List Source := [.agnus, .copper, .blitter, .cpu]

/-- A command of the block (R80). `d` is the operand `D` of a write. -/
inductive Instr where
  /-- RD DMACONR (R102) -/
  | rdDmaconr
  /-- RD ADKCONR (R169) -/
  | rdAdkconr
  /-- RD INTENAR (R132) -/
  | rdIntenar
  /-- RD INTREQR (R132) -/
  | rdIntreqr
  /-- WR DMACON (R100) -/
  | wrDmacon (d : Word)
  /-- WR INTENA (R130) -/
  | wrIntena (d : Word)
  /-- WR INTREQ (R131) -/
  | wrIntreq (d : Word)
  /-- WR ADKCON (R167) -/
  | wrAdkcon (d : Word)
  /-- WR AUD0LCH: write the high half of the pointer of channel 0 (R160) -/
  | wrAud0Lch (d : Word)
  /-- WR AUD0LCL: write the low half of the pointer of channel 0 (R161) -/
  | wrAud0Lcl (d : Word)
  /-- WR AUD0LEN: write the block length of channel 0 (R162) -/
  | wrAud0Len (d : Word)
  /-- WR AUD0PER: write the period of channel 0 (R163) -/
  | wrAud0Per (d : Word)
  /-- WR AUD0VOL: write the volume of channel 0 (R164) -/
  | wrAud0Vol (d : Word)
  /-- WR AUD0DAT: write the sample data register of channel 0 (R165) -/
  | wrAud0Dat (d : Word)
  /-- WR AUD1LCH: write the high half of the pointer of channel 1 (R160) -/
  | wrAud1Lch (d : Word)
  /-- WR AUD1LCL: write the low half of the pointer of channel 1 (R161) -/
  | wrAud1Lcl (d : Word)
  /-- WR AUD1LEN: write the block length of channel 1 (R162) -/
  | wrAud1Len (d : Word)
  /-- WR AUD1PER: write the period of channel 1 (R163) -/
  | wrAud1Per (d : Word)
  /-- WR AUD1VOL: write the volume of channel 1 (R164) -/
  | wrAud1Vol (d : Word)
  /-- WR AUD1DAT: write the sample data register of channel 1 (R165) -/
  | wrAud1Dat (d : Word)
  /-- WR AUD2LCH: write the high half of the pointer of channel 2 (R160) -/
  | wrAud2Lch (d : Word)
  /-- WR AUD2LCL: write the low half of the pointer of channel 2 (R161) -/
  | wrAud2Lcl (d : Word)
  /-- WR AUD2LEN: write the block length of channel 2 (R162) -/
  | wrAud2Len (d : Word)
  /-- WR AUD2PER: write the period of channel 2 (R163) -/
  | wrAud2Per (d : Word)
  /-- WR AUD2VOL: write the volume of channel 2 (R164) -/
  | wrAud2Vol (d : Word)
  /-- WR AUD2DAT: write the sample data register of channel 2 (R165) -/
  | wrAud2Dat (d : Word)
  /-- WR AUD3LCH: write the high half of the pointer of channel 3 (R160) -/
  | wrAud3Lch (d : Word)
  /-- WR AUD3LCL: write the low half of the pointer of channel 3 (R161) -/
  | wrAud3Lcl (d : Word)
  /-- WR AUD3LEN: write the block length of channel 3 (R162) -/
  | wrAud3Len (d : Word)
  /-- WR AUD3PER: write the period of channel 3 (R163) -/
  | wrAud3Per (d : Word)
  /-- WR AUD3VOL: write the volume of channel 3 (R164) -/
  | wrAud3Vol (d : Word)
  /-- WR AUD3DAT: write the sample data register of channel 3 (R165) -/
  | wrAud3Dat (d : Word)
  /-- REQ: declare the source with this number waiting (R106); the encoding has the numbers 0..3 only (R83) -/
  | req (source : Nat)
  /-- AINT: set or clear one pending bit (R135) -/
  | aint (bit : Fin 16) (asserted : Bool)
  /-- GAYLE: set the expansion-bus level (R136) -/
  | gayle (level : Level)
  /-- AUDPOLL: poll the four channels (R192) -/
  | audpoll
  /-- LATADV: advance the latency queue (R138) -/
  | latadv
  /-- COMMIT: grant this tick's slot (R107) -/
  | commit
  /-- RESET (R280) -/
  | reset
  deriving DecidableEq, Repr

/-- WR AUDnLCH for channel `n`: each channel has its own command (R160, R82). -/
def Instr.wrAudLch : ChannelId → Word → Instr
  | 0, d => .wrAud0Lch d | 1, d => .wrAud1Lch d | 2, d => .wrAud2Lch d | 3, d => .wrAud3Lch d

/-- WR AUDnLCL for channel `n`: each channel has its own command (R161, R82). -/
def Instr.wrAudLcl : ChannelId → Word → Instr
  | 0, d => .wrAud0Lcl d | 1, d => .wrAud1Lcl d | 2, d => .wrAud2Lcl d | 3, d => .wrAud3Lcl d

/-- WR AUDnLEN for channel `n`: each channel has its own command (R162, R82). -/
def Instr.wrAudLen : ChannelId → Word → Instr
  | 0, d => .wrAud0Len d | 1, d => .wrAud1Len d | 2, d => .wrAud2Len d | 3, d => .wrAud3Len d

/-- WR AUDnPER for channel `n`: each channel has its own command (R163, R82). -/
def Instr.wrAudPer : ChannelId → Word → Instr
  | 0, d => .wrAud0Per d | 1, d => .wrAud1Per d | 2, d => .wrAud2Per d | 3, d => .wrAud3Per d

/-- WR AUDnVOL for channel `n`: each channel has its own command (R164, R82). -/
def Instr.wrAudVol : ChannelId → Word → Instr
  | 0, d => .wrAud0Vol d | 1, d => .wrAud1Vol d | 2, d => .wrAud2Vol d | 3, d => .wrAud3Vol d

/-- WR AUDnDAT for channel `n`: each channel has its own command (R165, R82). -/
def Instr.wrAudDat : ChannelId → Word → Instr
  | 0, d => .wrAud0Dat d | 1, d => .wrAud1Dat d | 2, d => .wrAud2Dat d | 3, d => .wrAud3Dat d

/-- What another bus master does in a tick (R230 phases A2 and B): issue a command, or write chip memory, the lowest
address first (R71; the write itself is outside the block, log entry 21). -/
inductive MasterOp where
  | command (i : Instr)
  | chipWrite (a : Addr) (bytes : List Byte)
  deriving DecidableEq, Repr

/-- The bus slots that two CPU steps consumed, as the differences of the memory subsystem's counters (R235). -/
structure BusSlots where
  chipReads : Nat
  chipWrites : Nat
  trapdoorReads : Nat
  trapdoorWrites : Nat
  registerReads : Nat
  registerWrites : Nat
  deriving DecidableEq, Repr

/-- The number of slots consumed (R235). -/
def BusSlots.total (b : BusSlots) : Nat :=
  b.chipReads + b.chipWrites + b.trapdoorReads + b.trapdoorWrites + b.registerReads + b.registerWrites

/-- What two CPU steps, run back to back, do and report (R235): their commands, the costs `c1` and `c2` in chipset
ticks, and the bus slots. A negative cost is a defect (R238). Log entry 18. -/
structure CpuRun where
  ops : List MasterOp
  c1 : Int
  c2 : Int
  slots : BusSlots
  deriving DecidableEq, Repr

/-- The outside's part of one host iteration (R230): the clock's end-of-line flag (R231; log entry 17), what the other devices do, and
what the two CPU steps do if the CPU runs in this tick. -/
structure Tick where
  eol : Bool
  devices : List MasterOp
  cpu : CpuRun
  deriving DecidableEq, Repr

end Sys2Proof
end

