-- ==== Sys2Proof/WellFormed.lean ====
section
/-! DEFINITION. Which commands the encoding can name (30_encoding.md R83 to R85) and which ticks the host protocol allows
(45_tick_and_host.md R230, 60_exceptions.md R260). The ranges of the other fields are in their types. -/

namespace Sys2Proof

/-- A command the encoding can name: the source of REQ is one of the four (R83). Every other field's type is exactly the
range of its encoded field. -/
def Instr.wf : Instr → Bool
  | .rdDmaconr | .rdAdkconr | .rdIntenar | .rdIntreqr => true
  | .wrDmacon _ | .wrIntena _ | .wrIntreq _ | .wrAdkcon _ => true
  | .wrAud0Lch _ | .wrAud0Lcl _ | .wrAud0Len _ | .wrAud0Per _ | .wrAud0Vol _ | .wrAud0Dat _ => true
  | .wrAud1Lch _ | .wrAud1Lcl _ | .wrAud1Len _ | .wrAud1Per _ | .wrAud1Vol _ | .wrAud1Dat _ => true
  | .wrAud2Lch _ | .wrAud2Lcl _ | .wrAud2Len _ | .wrAud2Per _ | .wrAud2Vol _ | .wrAud2Dat _ => true
  | .wrAud3Lch _ | .wrAud3Lcl _ | .wrAud3Len _ | .wrAud3Per _ | .wrAud3Vol _ | .wrAud3Dat _ => true
  | .req v => decide (v < 4)
  | .aint _ _ => true
  | .gayle _ => true
  | .audpoll | .latadv | .commit | .reset => true

/-- The class of a command: who may issue it in the host protocol (R230, R260). -/
inductive Issuer where
  /-- a register read or write: the CPU or a device -/
  | master
  /-- REQ, AINT, GAYLE: a device -/
  | device
  /-- AUDPOLL, LATADV, COMMIT, RESET: the host alone -/
  | host
  deriving DecidableEq, Repr

/-- The issuer of each command in the host protocol (R230 phases A2, B; R260). -/
def Instr.issuer : Instr → Issuer
  | .rdDmaconr | .rdAdkconr | .rdIntenar | .rdIntreqr => .master
  | .wrDmacon _ | .wrIntena _ | .wrIntreq _ | .wrAdkcon _ => .master
  | .wrAud0Lch _ | .wrAud0Lcl _ | .wrAud0Len _ | .wrAud0Per _ | .wrAud0Vol _ | .wrAud0Dat _ => .master
  | .wrAud1Lch _ | .wrAud1Lcl _ | .wrAud1Len _ | .wrAud1Per _ | .wrAud1Vol _ | .wrAud1Dat _ => .master
  | .wrAud2Lch _ | .wrAud2Lcl _ | .wrAud2Len _ | .wrAud2Per _ | .wrAud2Vol _ | .wrAud2Dat _ => .master
  | .wrAud3Lch _ | .wrAud3Lcl _ | .wrAud3Len _ | .wrAud3Per _ | .wrAud3Vol _ | .wrAud3Dat _ => .master
  | .req _ | .aint _ _ | .gayle _ => .device
  | .audpoll | .latadv | .commit | .reset => .host

/-- A2 of R230: a device issues WR, RD, REQ, AINT or GAYLE, well formed. -/
def MasterOp.deviceOk : MasterOp → Bool
  | .command i => i.wf && decide (i.issuer ≠ .host)
  | .chipWrite _ _ => true

/-- B of R230: the CPU's commands are WR and RD. -/
def MasterOp.cpuOk : MasterOp → Bool
  | .command i => i.wf && decide (i.issuer = .master)
  | .chipWrite _ _ => true

/-- A tick the host protocol allows (R230, R235, R238, R260): device and CPU commands of the right classes, costs not
negative. The step does not check it, since the block takes any command from any issuer (R260; log entry 19). -/
def Tick.wf (t : Tick) : Bool :=
  t.devices.all MasterOp.deviceOk && t.cpu.ops.all MasterOp.cpuOk && decide (0 ≤ t.cpu.c1) && decide (0 ≤ t.cpu.c2)

/-- Whether the end-of-line flags of a sequence of ticks come once every `perLine` ticks (R231); `since` is how many ticks
ago the last one came, if one has. The clock's business: no step checks it (log entry 17). -/
def eolPaced (perLine : Nat) : Option Nat → List Tick → Bool
  | _, [] => true
  | none, t :: rest => eolPaced perLine (if t.eol then some 0 else none) rest
  | some k, t :: rest =>
    (t.eol == decide (k + 1 = perLine)) && eolPaced perLine (some (if t.eol then 0 else k + 1)) rest

end Sys2Proof
end

