-- ==== Sys2Proof/Decode.lean ====
section
/-! DEFINITION. Decoding a command word and encoding a command (30_encoding.md R80 to R90). The decoder is the table of
spec/opcode_table.json read as R88 says: the unique row whose `(C & mask) = match`. Its register rows stand at the offsets
of a map, `P_REG_ADDR` (R82, D2; log entry 11); the table's own numbers are those of the default map. Every other word is
rejected by the name R251 gives it. -/

namespace Sys2Proof

/-- Why a word is no command (R89, R251). Each is safe: nothing is claimed of a rejected word. -/
inductive Reject where
  /-- a reserved class, or a non-zero must-be-0 field (R89 (a), (b); code 16) -/
  | reservedCommand
  /-- `off[0] = 1` (R89 (c), R63; code 17) -/
  | misalignedRegister
  /-- an offset that is no register of the block (R89 (d); code 18) -/
  | foreignRegister
  /-- RD of a write-only or WR of a read-only register (R89 (e); code 19) -/
  | wrongDirection
  /-- a write word that no operand word follows (R90); the model's own, log entry 3 -/
  | missingOperand
  deriving DecidableEq, Repr

/-- The field of `w` bits wide that begins at bit `lo`, zero-extended (R9, R87). -/
def field (c : Word) (lo w : Nat) : Nat := (c.toNat >>> lo) % 2 ^ w

/-- `C[15:12]`, the class (R80). -/
def classOf (c : Word) : Nat := field c 12 4

/-- `C[8:0]`, the register byte offset (R81). -/
def offsetOf (c : Word) : Offset := c.extractLsb' 0 9

/-- The command word of a register write at an offset (class 1; R81). -/
def wrWord (off : Offset) : Word := 0x1000#16 ||| off.setWidth 16

/-- The command word of a register read at an offset (class 2; R81). -/
def rdWord (off : Offset) : Word := 0x2000#16 ||| off.setWidth 16

/-- The offsets of a channel's registers that begin at `base` (R82). -/
def AudioOffsets.startingAt (base : Offset) : AudioOffsets := ⟨base, base + 2, base + 4, base + 6, base + 8, base + 10⟩

/-- The default of `P_REG_ADDR`: the table of R82, from general knowledge (log entry 11). -/
def RegMap.default : RegMap where
  dmaconr := 0x002#9
  adkconr := 0x010#9
  intenar := 0x01C#9
  intreqr := 0x01E#9
  dmacon := 0x096#9
  intena := 0x09A#9
  intreq := 0x09C#9
  adkcon := 0x09E#9
  audio := #v[.startingAt 0x0A0#9, .startingAt 0x0B0#9, .startingAt 0x0C0#9, .startingAt 0x0D0#9]

/-- A command is followed by an operand word if and only if its class is 1 (R90). -/
def carriesOperand (c : Word) : Bool := decide (classOf c = 1)

/-- A row of the opcode table: the command whose words satisfy `(C & mask) = pattern`, and the command it stands for,
from the word and the operand (R88). -/
structure Row where
  mnemonic : String
  pattern : Word
  mask : Word
  build : Word → Word → Instr

/-- Whether a word is one of a row's (R88). -/
def Row.matches (r : Row) (c : Word) : Bool := decide (c &&& r.mask = r.pattern)

/-- The register reads (class 2; R82). -/
def readRows (m : RegMap) : List Row := [
  ⟨"RD_DMACONR", rdWord m.dmaconr, 0xFFFF#16, fun _ _ => .rdDmaconr⟩,
  ⟨"RD_ADKCONR", rdWord m.adkconr, 0xFFFF#16, fun _ _ => .rdAdkconr⟩,
  ⟨"RD_INTENAR", rdWord m.intenar, 0xFFFF#16, fun _ _ => .rdIntenar⟩,
  ⟨"RD_INTREQR", rdWord m.intreqr, 0xFFFF#16, fun _ _ => .rdIntreqr⟩]

/-- The set/clear register writes (class 1; R82). -/
def setClearRows (m : RegMap) : List Row := [
  ⟨"WR_DMACON", wrWord m.dmacon, 0xFFFF#16, fun _ d => .wrDmacon d⟩,
  ⟨"WR_INTENA", wrWord m.intena, 0xFFFF#16, fun _ d => .wrIntena d⟩,
  ⟨"WR_INTREQ", wrWord m.intreq, 0xFFFF#16, fun _ d => .wrIntreq d⟩,
  ⟨"WR_ADKCON", wrWord m.adkcon, 0xFFFF#16, fun _ d => .wrAdkcon d⟩]

/-- The writes of channel 0's registers (class 1; R82). -/
def audio0Rows (a : AudioOffsets) : List Row := [
  ⟨"WR_AUD0LCH", wrWord a.lch, 0xFFFF#16, fun _ d => .wrAud0Lch d⟩,
  ⟨"WR_AUD0LCL", wrWord a.lcl, 0xFFFF#16, fun _ d => .wrAud0Lcl d⟩,
  ⟨"WR_AUD0LEN", wrWord a.len, 0xFFFF#16, fun _ d => .wrAud0Len d⟩,
  ⟨"WR_AUD0PER", wrWord a.per, 0xFFFF#16, fun _ d => .wrAud0Per d⟩,
  ⟨"WR_AUD0VOL", wrWord a.vol, 0xFFFF#16, fun _ d => .wrAud0Vol d⟩,
  ⟨"WR_AUD0DAT", wrWord a.dat, 0xFFFF#16, fun _ d => .wrAud0Dat d⟩]

/-- The writes of channel 1's registers (class 1; R82). -/
def audio1Rows (a : AudioOffsets) : List Row := [
  ⟨"WR_AUD1LCH", wrWord a.lch, 0xFFFF#16, fun _ d => .wrAud1Lch d⟩,
  ⟨"WR_AUD1LCL", wrWord a.lcl, 0xFFFF#16, fun _ d => .wrAud1Lcl d⟩,
  ⟨"WR_AUD1LEN", wrWord a.len, 0xFFFF#16, fun _ d => .wrAud1Len d⟩,
  ⟨"WR_AUD1PER", wrWord a.per, 0xFFFF#16, fun _ d => .wrAud1Per d⟩,
  ⟨"WR_AUD1VOL", wrWord a.vol, 0xFFFF#16, fun _ d => .wrAud1Vol d⟩,
  ⟨"WR_AUD1DAT", wrWord a.dat, 0xFFFF#16, fun _ d => .wrAud1Dat d⟩]

/-- The writes of channel 2's registers (class 1; R82). -/
def audio2Rows (a : AudioOffsets) : List Row := [
  ⟨"WR_AUD2LCH", wrWord a.lch, 0xFFFF#16, fun _ d => .wrAud2Lch d⟩,
  ⟨"WR_AUD2LCL", wrWord a.lcl, 0xFFFF#16, fun _ d => .wrAud2Lcl d⟩,
  ⟨"WR_AUD2LEN", wrWord a.len, 0xFFFF#16, fun _ d => .wrAud2Len d⟩,
  ⟨"WR_AUD2PER", wrWord a.per, 0xFFFF#16, fun _ d => .wrAud2Per d⟩,
  ⟨"WR_AUD2VOL", wrWord a.vol, 0xFFFF#16, fun _ d => .wrAud2Vol d⟩,
  ⟨"WR_AUD2DAT", wrWord a.dat, 0xFFFF#16, fun _ d => .wrAud2Dat d⟩]

/-- The writes of channel 3's registers (class 1; R82). -/
def audio3Rows (a : AudioOffsets) : List Row := [
  ⟨"WR_AUD3LCH", wrWord a.lch, 0xFFFF#16, fun _ d => .wrAud3Lch d⟩,
  ⟨"WR_AUD3LCL", wrWord a.lcl, 0xFFFF#16, fun _ d => .wrAud3Lcl d⟩,
  ⟨"WR_AUD3LEN", wrWord a.len, 0xFFFF#16, fun _ d => .wrAud3Len d⟩,
  ⟨"WR_AUD3PER", wrWord a.per, 0xFFFF#16, fun _ d => .wrAud3Per d⟩,
  ⟨"WR_AUD3VOL", wrWord a.vol, 0xFFFF#16, fun _ d => .wrAud3Vol d⟩,
  ⟨"WR_AUD3DAT", wrWord a.dat, 0xFFFF#16, fun _ d => .wrAud3Dat d⟩]

/-- Classes 3 to 9 (R83 to R86). -/
def controlRows : List Row := [
  ⟨"REQ", 0x3000#16, 0xFFFC#16, fun c _ => .req (field c 0 2)⟩,
  ⟨"AINT", 0x4000#16, 0xFFE0#16, fun c _ => .aint (Fin.ofNat 16 (field c 0 4)) (c.getLsbD 4)⟩,
  ⟨"GAYLE", 0x5000#16, 0xFFF8#16, fun c _ => .gayle (Fin.ofNat 8 (field c 0 3))⟩,
  ⟨"AUDPOLL", 0x6000#16, 0xFFFF#16, fun _ _ => .audpoll⟩,
  ⟨"LATADV", 0x7000#16, 0xFFFF#16, fun _ _ => .latadv⟩,
  ⟨"COMMIT", 0x8000#16, 0xFFFF#16, fun _ _ => .commit⟩,
  ⟨"RESET", 0x9000#16, 0xFFFF#16, fun _ _ => .reset⟩]

/-- The register rows (classes 1 and 2; R82). -/
def registerRows (m : RegMap) : List Row :=
  readRows m ++ setClearRows m ++ audio0Rows m.audio[0] ++ audio1Rows m.audio[1] ++ audio2Rows m.audio[2] ++
    audio3Rows m.audio[3]

/-- The opcode table under a register map, 39 rows; with the default map, spec/opcode_table.json (R88). -/
def opcodeRows (m : RegMap) : List Row := registerRows m ++ controlRows

/-- The name under which a word that no row matches is rejected (R89, R251). A non-zero must-be-0 field is looked at
first, then alignment, then the offset (log entry 4). -/
def rejectReason (m : RegMap) (c : Word) : Reject :=
  if classOf c = 1 ∨ classOf c = 2 then
    if field c 9 3 ≠ 0 then .reservedCommand
    else if (offsetOf c).getLsbD 0 then .misalignedRegister
    else if offsetOf c ∈ m.readOffsets ∨ offsetOf c ∈ m.writeOffsets then .wrongDirection
    else .foreignRegister
  else .reservedCommand

/-- The command of a word and the operand that follows it, or the reason there is none (R88, R89). Total on every word;
the operand of a command that carries none is not looked at. -/
def decode (m : RegMap) (c : Word) (d : Option Word) : Except Reject Instr :=
  match (opcodeRows m).find? (fun r => r.matches c) with
  | none => .error (rejectReason m c)
  | some r =>
    if carriesOperand c then
      match d with
      | none => .error .missingOperand
      | some d => .ok (r.build c d)
    else .ok (r.build c 0)

/-- The words of a command: its command word, then its operand if it is a write (R80 to R86, R90), under a
register map. -/
def encode (m : RegMap) : Instr → List Word
  | .rdDmaconr => [rdWord m.dmaconr]
  | .rdAdkconr => [rdWord m.adkconr]
  | .rdIntenar => [rdWord m.intenar]
  | .rdIntreqr => [rdWord m.intreqr]
  | .wrDmacon d => [wrWord m.dmacon, d]
  | .wrIntena d => [wrWord m.intena, d]
  | .wrIntreq d => [wrWord m.intreq, d]
  | .wrAdkcon d => [wrWord m.adkcon, d]
  | .wrAud0Lch d => [wrWord m.audio[0].lch, d]
  | .wrAud0Lcl d => [wrWord m.audio[0].lcl, d]
  | .wrAud0Len d => [wrWord m.audio[0].len, d]
  | .wrAud0Per d => [wrWord m.audio[0].per, d]
  | .wrAud0Vol d => [wrWord m.audio[0].vol, d]
  | .wrAud0Dat d => [wrWord m.audio[0].dat, d]
  | .wrAud1Lch d => [wrWord m.audio[1].lch, d]
  | .wrAud1Lcl d => [wrWord m.audio[1].lcl, d]
  | .wrAud1Len d => [wrWord m.audio[1].len, d]
  | .wrAud1Per d => [wrWord m.audio[1].per, d]
  | .wrAud1Vol d => [wrWord m.audio[1].vol, d]
  | .wrAud1Dat d => [wrWord m.audio[1].dat, d]
  | .wrAud2Lch d => [wrWord m.audio[2].lch, d]
  | .wrAud2Lcl d => [wrWord m.audio[2].lcl, d]
  | .wrAud2Len d => [wrWord m.audio[2].len, d]
  | .wrAud2Per d => [wrWord m.audio[2].per, d]
  | .wrAud2Vol d => [wrWord m.audio[2].vol, d]
  | .wrAud2Dat d => [wrWord m.audio[2].dat, d]
  | .wrAud3Lch d => [wrWord m.audio[3].lch, d]
  | .wrAud3Lcl d => [wrWord m.audio[3].lcl, d]
  | .wrAud3Len d => [wrWord m.audio[3].len, d]
  | .wrAud3Per d => [wrWord m.audio[3].per, d]
  | .wrAud3Vol d => [wrWord m.audio[3].vol, d]
  | .wrAud3Dat d => [wrWord m.audio[3].dat, d]
  | .req v => [BitVec.ofNat 16 (0x3000 + v)]
  | .aint bit asserted => [BitVec.ofNat 16 (0x4000 + 16 * asserted.toNat + bit.val)]
  | .gayle level => [BitVec.ofNat 16 (0x5000 + level.val)]
  | .audpoll => [0x6000#16]
  | .latadv => [0x7000#16]
  | .commit => [0x8000#16]
  | .reset => [0x9000#16]

/-- The command at the front of a list of words, and the words after it (R90: one word, and an operand word if and only
if the class is 1). `none` where the list is empty: no command has been issued. -/
def decodeWords (m : RegMap) : List Word → Option (Except Reject Instr × List Word)
  | [] => none
  | c :: rest =>
    if carriesOperand c then
      match rest with
      | [] => some (decode m c none, [])
      | d :: rest' => some (decode m c (some d), rest')
    else some (decode m c none, rest)

/-- The words of a command whose bits are numbered as the opcode table numbers them: the command word in bits 15..0 and,
for a write, the operand in bits 31..16; a bit at or above `nbits` is 0. -/
def tableWords (nbits w : Nat) : List Word :=
  let v := w % 2 ^ nbits
  let c := BitVec.ofNat 16 v
  if carriesOperand c then [c, BitVec.ofNat 16 (v >>> 16)] else [c]

/-- What the decoder reads from a table word, under the table's own map, the default. -/
def decodeTableWord (nbits w : Nat) : Option Instr :=
  match decodeWords .default (tableWords nbits w) with
  | some (.ok i, _) => some i
  | _ => none

end Sys2Proof
end

