-- ==== Sys2Proof/Machine/Defaults.lean ====
section
/-! DEFINITION. The parameters by channel, and their values after reset (00_scope.md R7). -/

namespace Sys2Proof

/-- `P_AUD_INT_BIT[n]` (R7). -/
def Params.intBit (p : Params) (n : ChannelId) : Fin 15 := p.audIntBit[n]

/-- `P_AUD_DMA_BIT[n]` (R7). -/
def Params.dmaBit (p : Params) (n : ChannelId) : Fin 16 := p.audDmaBit[n]

/-- The default of `P_PRIO` (R134): entries 0..13 from general knowledge (log entry 10), 14 and 15 open. -/
def Config.prioDefault : Vector Level 16 :=
  #v[1, 1, 1, 2, 3, 3, 3, 4, 4, 4, 4, 5, 5, 6, Config.prio14LessOne.succ, Config.prio15LessOne.succ]

/-- The parameters of the machine after reset: the defaults of R7 (log entries 10 and 12), open ones opaque. -/
def Config.params : Params where
  rate := Config.rateLessOne + 1
  depth := Config.depth
  prio := Config.prioDefault
  globalEnBit := 14
  audIntBit := #v[7, 8, 9, 10]
  audDmaBit := #v[0, 1, 2, 3]
  dmaenBit := 9
  dmaconWmask := 0x3FFF#16
  gayleBit := none
  armTrigger := .ownBit
  audioReq := false
  ptrMask := 0xFFFFFFFE#32
  regAddr := RegMap.default
  ticksPerLine := Config.ticksPerLine

end Sys2Proof
end

