-- ==== Sys2Proof/Machine/State.lean ====
section
/-! DEFINITION. The state of the block, in the five groups of 10_state.md R20, with what surrounds it: the host's two
counters, chip memory, the observations of R45 and the list of inputs not yet taken. Plain data throughout (R40: every
element is part of a snapshot). -/

namespace Sys2Proof.Machine

/-- `mode[n]` (R34). -/
inductive Mode where
  | idle | dma | interrupt
  deriving DecidableEq, Repr

/-- One audio channel: live registers (R32), working copies (R33), mode (R34), modulation roles (R35). -/
@[ext]
structure Channel where
  period : Word
  /-- u7, 0..64 (R32, conflict C9) -/
  volume : BitVec 7
  length : Word
  data : Word
  /-- bit 0 always 0 (R32) -/
  pointer : Addr
  /-- a signed integer without bounds (R33, D18) -/
  workingPeriod : Int
  workingLength : Word
  /-- bit 0 always 0 (R33) -/
  workingPointer : Addr
  mode : Mode
  /-- false: the next modulation is of the neighbour's volume; true: of its working period (R35, R197) -/
  modulatingVp : Bool
  /-- whether each modulation flips `modulatingVp` (R35, R197) -/
  modulateToggle : Bool
  deriving DecidableEq, Repr

/-- A channel after reset: "zeroed on reset" (R280). -/
def Channel.reset : Channel where
  period := 0
  volume := 0
  length := 0
  data := 0
  pointer := 0
  workingPeriod := 0
  workingLength := 0
  workingPointer := 0
  mode := .idle
  modulatingVp := false
  modulateToggle := false

/-- The interrupt controller (R23, R24, R26 to R28). -/
@[ext]
structure IntCtl where
  /-- `INTENA_r` -/
  intena : Word
  /-- `INTREQ_r` -/
  intreq : Word
  gayleLevel : Level
  /-- oldest first -/
  latQ : List Level
  lagLevel : Level
  deriving DecidableEq, Repr

/-- The interrupt controller after reset (R280). -/
def IntCtl.reset : IntCtl where
  intena := 0
  intreq := 0
  gayleLevel := 0
  latQ := []
  lagLevel := 0

/-- `waiting[s]` for each source (R30). -/
structure Waiting where
  agnus : Bool
  copper : Bool
  blitter : Bool
  cpu : Bool
  deriving DecidableEq, Repr

/-- The DMA arbiter (R22, R30, R31). -/
@[ext]
structure Arbiter where
  /-- `DMACON_r` -/
  dmacon : Word
  waiting : Waiting
  /-- `none` is the sentinel `None` (R31) -/
  lastGrant : Option Source
  deriving DecidableEq, Repr

/-- The arbiter after reset (R280). -/
def Arbiter.reset : Arbiter where
  dmacon := 0
  waiting := ⟨false, false, false, false⟩
  lastGrant := none

/-- The host's counters (R234): not state of the block. -/
structure HostCounters where
  cpuCycles : Nat
  totalWaits : Nat
  deriving DecidableEq, Repr

/-- What the event log holds (R45 (e)). -/
inductive Event where
  /-- a MemRead, with its address and the answer (R60) -/
  | memRead (a : Addr) (w : Word)
  /-- an interrupt assertion (R135) -/
  | intAssert (bit : Fin 15)
  /-- the 0-to-1 transition of a DMACON bit of an outside device (R101) -/
  | notify (bit : Fin 16)
  deriving DecidableEq, Repr

/-- What the outside has issued and the machine has not yet taken (R39; log entries 1, 15). -/
inductive Input where
  /-- a word of the command stream: a command word, or the operand of the write before it (R80) -/
  | word (w : Word)
  /-- another master writes chip memory (R71) -/
  | chipWrite (a : Addr) (bytes : List Byte)
  /-- the interface call `requestSlot(source, priority)`, outside the encoding (R106, R250) -/
  | requestSlot (source priority : Nat)
  /-- `debugExecuteAllDMAActivity`, or its variant for one source (R112) -/
  | debugDma (source : Option Source)
  /-- a host iteration begins (R230) -/
  | tick (t : Tick)
  /-- phase B of a tick begins (R235, R236); `run` is what the CPU does if it runs -/
  | cpuPhase (run : CpuRun)
  /-- the two CPU steps have ended and report (R235, R238) -/
  | cpuReport (c1 c2 : Int) (slots : BusSlots)
  /-- B3 of R236 -/
  | payCycle
  /-- phase D of a tick (R236) -/
  | bookkeep
  deriving DecidableEq, Repr

/-- Chip memory: the bytes some master has written, by address (log entry 7). -/
abbrev Memory := List Host.Cell

/-- The whole state. -/
@[ext]
structure State where
  /-- the parameters, which no step changes (R39; log entry 8) -/
  cfg : Params
  ints : IntCtl
  dma : Arbiter
  chans : Vector Channel 4
  /-- `ADKCON_r` (R25) -/
  adkcon : Word
  /-- chip memory, outside the block (R37) -/
  mem : Memory
  /-- how many MemReads there have been: the model's own counter, which makes each oracle answer fresh (log entry 7) -/
  memReads : Nat
  /-- the event log, oldest first (R45; log entry 6) -/
  log : List Event
  /-- what the most recent RD returned (R80; log entry 5) -/
  lastRead : Option Word
  host : HostCounters
  /-- oldest first (log entry 1) -/
  inputs : List Input
  deriving DecidableEq, Repr

/-- Why the machine stops with a fault (R250). A fault ends the step and the run. -/
inductive Fault where
  /-- AINT with bit 15, which has no pending bit (R135); records the command word. Safe: the spec's own fault. -/
  | badInterruptBit (c : Word)
  /-- a CPU step reports a negative cost (R238); records the cost. Safe: the spec's own fault. -/
  | hostInvariant (cost : Int)
  /-- a slot request for a number that is no source, only outside the encoding (R106); records the number. Safe: the
  spec's own fault. -/
  | unknownSource (v : Nat)
  deriving DecidableEq, Repr

/-- The spec's code of a fault (R250). -/
def Fault.code : Fault → Nat
  | .badInterruptBit _ => 1
  | .hostInvariant _ => 2
  | .unknownSource _ => 3

/-- Why the model gives an input no meaning (R251). -/
inductive Refusal where
  /-- an instruction whose arm of `exec` has no meaning yet; raised by no arm now. Safe. -/
  | notModelled (mnemonic : String)
  /-- a command word that is none of the block's (R89), raised by the step. Safe. -/
  | rejected (r : Reject)
  /-- a debug DMA operation (R112), raised by the step. Safe. -/
  | debugOperation
  deriving DecidableEq, Repr

/-- The spec's code of a refusal (R251); the model's own reasons have none. -/
def Refusal.code? : Refusal → Option Nat
  | .rejected .reservedCommand => some 16
  | .rejected .misalignedRegister => some 17
  | .rejected .foreignRegister => some 18
  | .rejected .wrongDirection => some 19
  | .debugOperation => some 20
  | .rejected .missingOperand => none
  | .notModelled _ => none

/-- The machine right after reset (R280, R281, R234). Memory lists nothing, nothing has been issued. -/
def State.reset : State where
  cfg := Config.params
  ints := .reset
  dma := .reset
  chans := #v[.reset, .reset, .reset, .reset]
  adkcon := 0
  mem := []
  memReads := 0
  log := []
  lastRead := none
  host := ⟨0, 0⟩
  inputs := []

end Sys2Proof.Machine
end

