-- ==== Sys2Proof/Machine/Operands.lean ====
section
/-! DEFINITION. How an operand becomes a register's new value: every operand form of the block (30_encoding.md R87). -/

namespace Sys2Proof.Machine

/-- `SetClr(old, v, wmask)` (R11): bit 15 of `v` selects set or clear; bits outside `wmask` stay. -/
def setClr (old v wmask : Word) : Word :=
  if v.getLsbD 15 then old ||| (v &&& wmask) else old &&& ~~~(v &&& wmask)

/-- The bits INTENA, INTREQ and ADKCON store: 14..0 (R23 to R25). -/
def regMask : Word := 0x7FFF#16

/-- `v` with bit `i` set to `b` (R135). -/
def writeBit (v : Word) (i : Nat) (b : Bool) : Word :=
  if b then v ||| BitVec.twoPow 16 i else v &&& ~~~(BitVec.twoPow 16 i)

/-- `MapVolume(v)` (R166): 7 bits, with bit 6 meaning 64. -/
def mapVolume (v : Word) : BitVec 7 :=
  let m := v &&& 0x7F#16
  if m.getLsbD 6 then 64#7 else m.setWidth 7

/-- The pointer after a write of its high half (R160). -/
def pointerHigh (mask p : Addr) (d : Word) : Addr :=
  ((d.setWidth 32 <<< 16) ||| (p &&& 0x0000FFFF#32)) &&& mask

/-- The pointer after a write of its low half, bit 0 of the operand dropped (R161). -/
def pointerLow (mask p : Addr) (d : Word) : Addr :=
  ((p &&& 0xFFFF0000#32) ||| (d &&& 0xFFFE#16).setWidth 32) &&& mask

/-- A working pointer advanced by one word, modulo 2^32 under the mask (R194). -/
def pointerNext (mask p : Addr) : Addr := (p + 2#32) &&& mask

/-- A word as a non-negative integer: `zext` into an `int` (R9, R190). -/
def zextInt (v : Word) : Int := (v.toNat : Int)

/-- `USEnV`: ADKCON says channel `n` modulates the volume of channel n+1 (R25, R168). -/
def useVolume (adkcon : Word) (n : ChannelId) : Bool := adkcon.getLsbD n.val

/-- `USEnP`: ADKCON says channel `n` modulates the period of channel n+1 (R25, R168). -/
def usePeriod (adkcon : Word) (n : ChannelId) : Bool := adkcon.getLsbD (n.val + 4)

/-- The channel that channel `n` can modulate: n+1, and none for channel 3 (R168). -/
def nextChannel : ChannelId → Option ChannelId
  | 0 => some 1 | 1 => some 2 | 2 => some 3 | 3 => none

/-- `RoleUpdate` for one channel (R168). Channel 3 has no role. -/
def rolesFor (adkcon : Word) (n : ChannelId) (c : Channel) : Channel :=
  let v := useVolume adkcon n && decide (n.val < 3)
  let p := usePeriod adkcon n && decide (n.val < 3)
  { c with modulateToggle := v && p, modulatingVp := p && !v }

/-- Whether bit `b` rises from `old` to `new`, as `P_ARM_TRIGGER` reads "rises" (R101). -/
def rises (p : Params) (old new : Word) (b : Nat) : Bool :=
  match p.armTrigger with
  | .ownBit => !old.getLsbD b && new.getLsbD b
  | .effective =>
    !(old.getLsbD b && old.getLsbD p.dmaenBit) && (new.getLsbD b && new.getLsbD p.dmaenBit)

end Sys2Proof.Machine
end

