-- ==== Sys2Proof/Machine/Flags.lean ====
section
/-! DEFINITION. What the block computes from its state and exposes: enable query, CPU-wait flag, interrupt levels. The
block has no condition codes (10_state.md R36); these functions are its flags, and none of them is stored. -/

namespace Sys2Proof.Machine

/-- One source's `waiting` flag (R30). -/
def Waiting.get (w : Waiting) : Source → Bool
  | .agnus => w.agnus | .copper => w.copper | .blitter => w.blitter | .cpu => w.cpu

/-- One source's `waiting` flag set to `b` (R30). -/
def Waiting.set (w : Waiting) (src : Source) (b : Bool) : Waiting :=
  match src with
  | .agnus => { w with agnus := b }
  | .copper => { w with copper := b }
  | .blitter => { w with blitter := b }
  | .cpu => { w with cpu := b }

/-- Channel `n`. -/
def State.chan (s : State) (n : ChannelId) : Channel := s.chans[n]

/-- The master enable (R103). -/
def State.dmaEnabled (s : State) : Bool := s.dma.dmacon.getLsbD s.cfg.dmaenBit

/-- `isEnabled(b)` (R104): the bit and the master enable. -/
def State.isEnabled (s : State) (b : Nat) : Bool := s.dma.dmacon.getLsbD b && s.dmaEnabled

/-- `Eligible(s)` (R110): the CPU always, every other source only under the master enable. -/
def State.eligible (s : State) (src : Source) : Bool := decide (src = .cpu) || s.dmaEnabled

/-- The CPU-wait flag (R108), meaningful after the tick's COMMIT. -/
def State.cpuWait (s : State) : Bool := s.dma.waiting.get .cpu

/-- `ModActive(n)` (R168). -/
def State.modActive (s : State) (n : ChannelId) : Bool :=
  decide (n.val < 3) && (useVolume s.adkcon n || usePeriod s.adkcon n)

/-- The priority of the highest set bit of `m` below `k`; 0 where there is none (the scan of R133). -/
def scanLevel (prio : Vector Level 16) (m : Word) : Nat → Level
  | 0 => 0
  | k + 1 => if m.getLsbD k then prio.toList.getD k 0 else scanLevel prio m k

/-- `PaulaLevel(pend, ena)` (R133). -/
def paulaLevel (p : Params) (pend ena : Word) : Level :=
  if ena.getLsbD p.globalEnBit then
    if pend &&& ena = 0 then 0 else scanLevel p.prio (pend &&& ena) 16
  else 0

/-- The Paula level of the current registers (R29). -/
def State.paula (s : State) : Level := paulaLevel s.cfg s.ints.intreq s.ints.intena

/-- `VisiblePaula` (R140). -/
def State.visiblePaula (s : State) : Level := if s.cfg.depth = 0 then s.paula else s.ints.lagLevel

/-- `IPL`, the level presented to the CPU (R142). -/
def State.ipl (s : State) : Level := max s.visiblePaula s.ints.gayleLevel

end Sys2Proof.Machine
end

