-- ==== Sys2Proof/Machine/Ops.lean ====
section
/-! DEFINITION. The named operations over chip memory, channels, pending bits and the event log. The block takes no
exception and returns from none (60_exceptions.md R253, R255, R257): what it does instead is raise a pending bit, the one
shared operation `assertInt`. -/

namespace Sys2Proof.Machine

/-- The outcome of one step of this machine. -/
abbrev Result := Host.Outcome State Fault Refusal

/-! ### Chip memory -/

/-- The byte listed at an address, if a master has written it. -/
def Memory.get? : Memory → Nat → Option Byte
  | [], _ => none
  | (k, v) :: rest, a => if k = a then some v else Memory.get? rest a

/-- The memory with one byte written, kept in rising order of address. -/
def Memory.set : Memory → Nat → Byte → Memory
  | [], a, b => [(a, b)]
  | (k, v) :: rest, a, b =>
    if a < k then (a, b) :: (k, v) :: rest
    else if a = k then (a, b) :: rest
    else (k, v) :: Memory.set rest a b

/-- Every address of the list is above `lo` and inside the 32-bit space, and they rise strictly. -/
def Memory.rising : Memory → Nat → Bool
  | [], _ => true
  | (k, _) :: rest, lo => decide (lo ≤ k) && decide (k < 2 ^ 32) && Memory.rising rest (k + 1)

/-- The canonical form: addresses strictly rising, inside the 32-bit space. An unlisted address has no value of its own
(its answer is free), so no entry can equal one. -/
def Memory.wf (m : Memory) : Bool := Memory.rising m 0

/-- The memory after bytes are written from an address up, the address wrapping at 2^32 (log entry 21). -/
def Memory.write : Memory → Addr → List Byte → Memory
  | m, _, [] => m
  | m, a, b :: rest => Memory.write (Memory.set m a.toNat b) (a + 1#32) rest

/-- The memory subsystem's answer for one byte of the current MemRead: the byte a master wrote, or a free value (R60). -/
def State.chipByte (s : State) (a : Addr) : Byte :=
  (s.mem.get? a.toNat).getD (Config.chipAnswer s.memReads a.toNat)

/-- The 16-bit answer to `MemRead(a, 2)`: the lower address in bits 15..8 (R60, R61). -/
def State.chipWord (s : State) (a : Addr) : Word := s.chipByte a ++ s.chipByte (a + 1#32)

/-! ### Channels -/

/-- Channel `n` replaced. -/
def State.setChan (s : State) (n : ChannelId) (c : Channel) : State := { s with chans := s.chans.set n c }

/-- Channel `n` changed by a function. -/
def State.modifyChan (s : State) (n : ChannelId) (f : Channel → Channel) : State := s.setChan n (f (s.chan n))

/-! ### Registers, log and the answer of a read -/

/-- One event appended to the log (R45). -/
def State.record (s : State) (e : Event) : State := { s with log := s.log ++ [e] }

/-- `INTREQ_r` replaced (R24). -/
def State.setIntreq (s : State) (v : Word) : State := { s with ints := { s.ints with intreq := v } }

/-- `INTENA_r` replaced (R23). -/
def State.setIntena (s : State) (v : Word) : State := { s with ints := { s.ints with intena := v } }

/-- `DMACON_r` replaced (R22). -/
def State.setDmacon (s : State) (v : Word) : State := { s with dma := { s.dma with dmacon := v } }

/-- `ADKCON_r` replaced (R25). -/
def State.setAdkcon (s : State) (v : Word) : State := { s with adkcon := v }

/-- `waiting[src] <- b` (R30). -/
def State.setWaiting (s : State) (src : Source) (b : Bool) : State :=
  { s with dma := { s.dma with waiting := s.dma.waiting.set src b } }

/-- The value an RD returns to its issuer (R80; log entry 5). -/
def State.answer (s : State) (w : Word) : State := { s with lastRead := some w }

/-! ### Interrupt assertion -/

/-- `AssertInterrupt(bit, 1)` (R135), with its log entry (R45). -/
def State.assertInt (s : State) (bit : Fin 15) : State :=
  (s.setIntreq (writeBit s.ints.intreq bit true)).record (.intAssert bit)

/-- `AssertInterrupt(bit, 0)` (R135). -/
def State.deassertInt (s : State) (bit : Fin 15) : State := s.setIntreq (writeBit s.ints.intreq bit false)

/-- `RaiseAudioInt(n)` (R10). -/
def State.raiseAudioInt (s : State) (n : ChannelId) : State := s.assertInt (s.cfg.intBit n)

/-! ### The sample fetch -/

/-- The state after `MemRead(a, 2)`: the read is recorded with its answer, the oracle's counter advances (R60). -/
def State.readChip (s : State) (a : Addr) : State :=
  { s.record (.memRead a (s.chipWord a)) with memReads := s.memReads + 1 }

end Sys2Proof.Machine
end

