-- ==== Sys2Proof/Machine/AudioFsm.lean ====
section
/-! DEFINITION. The audio channels' state machine (44_audio_state_machine.md). -/

namespace Sys2Proof.Machine

/-- What arming does to the channel itself (R190). -/
def Channel.arm (c : Channel) : Channel :=
  { c with
    mode := .dma
    workingPeriod := zextInt c.period
    workingLength := c.length
    workingPointer := c.pointer }

/-- `AudioArm(n)` (R190). -/
def audioArm (n : ChannelId) (s : State) : State := (s.modifyChan n Channel.arm).raiseAudioInt n

/-- What a block restart does to the channel itself (R195). -/
def Channel.restart (c : Channel) : Channel :=
  { c with workingPointer := c.pointer, workingLength := c.length }

/-- `BlockRestart(n)` (R195). -/
def blockRestart (n : ChannelId) (s : State) : State := (s.modifyChan n Channel.restart).raiseAudioInt n

/-- What modulation with the word `w` does to the neighbour (R197): its working period or its volume. -/
def Channel.modulated (vp : Bool) (w : Word) (c : Channel) : Channel :=
  if vp then { c with workingPeriod := zextInt w } else { c with volume := mapVolume w }

/-- What modulating does to the modulator (R197): its sample is zeroed, and its role flips if it alternates. -/
def Channel.afterModulating (c : Channel) : Channel :=
  { c with data := 0, modulatingVp := if c.modulateToggle then !c.modulatingVp else c.modulatingVp }

/-- `Modulate(n, W)` (R197), where `m` is channel n+1. -/
def modulate (n m : ChannelId) (w : Word) (s : State) : State :=
  (s.modifyChan m (Channel.modulated (s.chan n).modulatingVp w)).modifyChan n Channel.afterModulating

/-- `if ModActive(n): Modulate(n, W)` (R194, R197). -/
def modulateIfActive (n : ChannelId) (w : Word) (s : State) : State :=
  match nextChannel n with
  | some m => if s.modActive n then modulate n m w s else s
  | none => s

/-- What a fetch of the word `w` does to the channel itself, but for the working period (R194). -/
def Channel.fetched (mask : Addr) (w : Word) (c : Channel) : Channel :=
  { c with
    workingPointer := pointerNext mask c.workingPointer
    workingLength := c.workingLength - 1
    data := w }

/-- `if P_AUDIO_REQ: waiting[Agnus] <- true` (R111). -/
def audioRequest (s : State) : State := if s.cfg.audioReq then s.setWaiting .agnus true else s

/-- The body of the fetching branch of `DMAPoll` (R194), but for the working period. -/
def dmaFetch (n : ChannelId) (s : State) : State :=
  let a := (s.chan n).workingPointer
  let w := s.chipWord a
  let s1 := (audioRequest (s.readChip a)).modifyChan n (Channel.fetched s.cfg.ptrMask w)
  let s2 := modulateIfActive n w s1
  if (s2.chan n).workingLength = 0 then blockRestart n s2 else s2

/-- `working_period[n] <- v` (R194, R200). -/
def setWorkingPeriod (n : ChannelId) (v : Int) (s : State) : State :=
  s.modifyChan n fun c => { c with workingPeriod := v }

/-- `mode[n] <- Idle` (R198, R200). -/
def toIdle (n : ChannelId) (s : State) : State := s.modifyChan n fun c => { c with mode := .idle }

/-- `EnableCheck(n)` (R198). -/
def enableCheck (n : ChannelId) (s : State) : State :=
  if s.isEnabled (s.cfg.dmaBit n) then s else (toIdle n s).raiseAudioInt n

/-- The working period of channel `n` after this poll's decrement (R194, R200). -/
def State.counted (s : State) (n : ChannelId) : Int := (s.chan n).workingPeriod - s.cfg.rate

/-- `DMAPoll(n)` (R194): countdown, fetch on "zero or below" with the period added back, then the enable check. -/
def dmaPoll (n : ChannelId) (s : State) : State :=
  let wp := s.counted n
  enableCheck n
    (if wp ≤ 0 then setWorkingPeriod n (wp + zextInt (s.chan n).period) (dmaFetch n s)
     else setWorkingPeriod n wp s)

/-- `IntPoll(n)` (R200). -/
def intPoll (n : ChannelId) (s : State) : State :=
  let wp := s.counted n
  if wp ≤ 0 then
    if s.ints.intreq.getLsbD (s.cfg.intBit n) then setWorkingPeriod n wp (toIdle n s)
    else setWorkingPeriod n (wp + zextInt (s.chan n).period) (s.raiseAudioInt n)
  else setWorkingPeriod n wp s

/-- `ChannelPoll(n)` (R193, R199). -/
def channelPoll (n : ChannelId) (s : State) : State :=
  match (s.chan n).mode with
  | .idle => s
  | .dma => dmaPoll n s
  | .interrupt => intPoll n s

/-- The four polls, in ascending order (R192). -/
def pollAll (s : State) : State := channelPoll 3 (channelPoll 2 (channelPoll 1 (channelPoll 0 s)))

/-- AUDPOLL (R192). -/
def execAudpoll (s : State) : Result := .next (pollAll s)

end Sys2Proof.Machine
end

