-- ==== Sys2Proof/Machine/ArbiterOps.lean ====
section
/-! DEFINITION. The DMA arbiter's commands (41_dma_arbiter.md). -/

namespace Sys2Proof.Machine

/-- RD DMACONR (R102). -/
def execRdDmaconr (s : State) : Result := .next (s.answer s.dma.dmacon)

/-- Arm channel `n` if its bit rose (R101). -/
def armIfRises (old new : Word) (s : State) (n : ChannelId) : State :=
  if rises s.cfg old new (s.cfg.dmaBit n) then audioArm n s else s

/-- Log the notification of bit `b` if it rose (R101). -/
def notifyIfRises (old new : Word) (s : State) (b : Fin 16) : State :=
  if rises s.cfg old new b then s.record (.notify b) else s

/-- DSKEN, SPREN, BLTEN, COPEN, BPLEN: the bits of devices outside the block (R101). -/
def deviceBits : List (Fin 16) := [4, 5, 6, 7, 8]

/-- `Arm(old, new)` (R101): channels in ascending order, then the outside devices. -/
def armAll (old new : Word) (s : State) : State :=
  deviceBits.foldl (notifyIfRises old new) (([0, 1, 2, 3] : List ChannelId).foldl (armIfRises old new) s)

/-- WR DMACON (R100). -/
def execWrDmacon (d : Word) (s : State) : Result :=
  let new := setClr s.dma.dmacon d s.cfg.dmaconWmask
  .next (armAll s.dma.dmacon new (s.setDmacon new))

/-- REQ (R106). A number that is no source is a fault that records it (R250); the encoding has none (R83). -/
def execReq (v : Nat) (s : State) : Result :=
  match Source.ofNat? v with
  | some src => .next (s.setWaiting src true)
  | none => .fault (.unknownSource v)

/-- The source the arbiter grants: the first of `SRC` that is waiting and eligible (R107, R110). -/
def State.winner (s : State) : Option Source :=
  Source.all.find? fun src => s.dma.waiting.get src && s.eligible src

/-- The state after the grant of `g` (R107). -/
def grant (g : Option Source) (s : State) : State :=
  let s' := match g with
    | some src => s.setWaiting src false
    | none => s
  { s' with dma := { s'.dma with lastGrant := g } }

/-- COMMIT (R107). -/
def execCommit (s : State) : Result := .next (grant s.winner s)

end Sys2Proof.Machine
end

