-- ==== Sys2Proof/Machine/AudioRegs.lean ====
section
/-! DEFINITION. The audio channels' registers and ADKCON (43_audio_registers.md). -/

namespace Sys2Proof.Machine

/-- WR AUDnLCH (R160). -/
def writeLch (n : ChannelId) (d : Word) (s : State) : State :=
  s.modifyChan n fun c => { c with pointer := pointerHigh s.cfg.ptrMask c.pointer d }

/-- WR AUDnLCL (R161). -/
def writeLcl (n : ChannelId) (d : Word) (s : State) : State :=
  s.modifyChan n fun c => { c with pointer := pointerLow s.cfg.ptrMask c.pointer d }

/-- WR AUDnLEN (R162). -/
def writeLen (n : ChannelId) (d : Word) (s : State) : State := s.modifyChan n fun c => { c with length := d }

/-- WR AUDnPER (R163). -/
def writePer (n : ChannelId) (d : Word) (s : State) : State := s.modifyChan n fun c => { c with period := d }

/-- WR AUDnVOL (R164). -/
def writeVol (n : ChannelId) (d : Word) (s : State) : State :=
  s.modifyChan n fun c => { c with volume := mapVolume d }

/-- WR AUDnDAT (R165): Interrupt mode is armed, whatever the mode was. -/
def writeDat (n : ChannelId) (d : Word) (s : State) : State :=
  s.modifyChan n fun c => { c with data := d, mode := .interrupt, workingPeriod := zextInt c.period }

/-- `RoleUpdate()` (R168). -/
def roleUpdate (s : State) : State :=
  { s with chans := Vector.ofFn fun n : ChannelId => rolesFor s.adkcon n (s.chan n) }

/-- WR ADKCON (R167): every write runs `RoleUpdate`, even one that changes no bit. -/
def execWrAdkcon (d : Word) (s : State) : Result := .next (roleUpdate (s.setAdkcon (setClr s.adkcon d regMask)))

/-- RD ADKCONR (R169). -/
def execRdAdkconr (s : State) : Result := .next (s.answer s.adkcon)

/-- WR AUD0LCH (R160). -/
def execWrAud0Lch (d : Word) (s : State) : Result := .next (writeLch 0 d s)

/-- WR AUD0LCL (R161). -/
def execWrAud0Lcl (d : Word) (s : State) : Result := .next (writeLcl 0 d s)

/-- WR AUD0LEN (R162). -/
def execWrAud0Len (d : Word) (s : State) : Result := .next (writeLen 0 d s)

/-- WR AUD0PER (R163). -/
def execWrAud0Per (d : Word) (s : State) : Result := .next (writePer 0 d s)

/-- WR AUD0VOL (R164). -/
def execWrAud0Vol (d : Word) (s : State) : Result := .next (writeVol 0 d s)

/-- WR AUD0DAT (R165). -/
def execWrAud0Dat (d : Word) (s : State) : Result := .next (writeDat 0 d s)

/-- WR AUD1LCH (R160). -/
def execWrAud1Lch (d : Word) (s : State) : Result := .next (writeLch 1 d s)

/-- WR AUD1LCL (R161). -/
def execWrAud1Lcl (d : Word) (s : State) : Result := .next (writeLcl 1 d s)

/-- WR AUD1LEN (R162). -/
def execWrAud1Len (d : Word) (s : State) : Result := .next (writeLen 1 d s)

/-- WR AUD1PER (R163). -/
def execWrAud1Per (d : Word) (s : State) : Result := .next (writePer 1 d s)

/-- WR AUD1VOL (R164). -/
def execWrAud1Vol (d : Word) (s : State) : Result := .next (writeVol 1 d s)

/-- WR AUD1DAT (R165). -/
def execWrAud1Dat (d : Word) (s : State) : Result := .next (writeDat 1 d s)

/-- WR AUD2LCH (R160). -/
def execWrAud2Lch (d : Word) (s : State) : Result := .next (writeLch 2 d s)

/-- WR AUD2LCL (R161). -/
def execWrAud2Lcl (d : Word) (s : State) : Result := .next (writeLcl 2 d s)

/-- WR AUD2LEN (R162). -/
def execWrAud2Len (d : Word) (s : State) : Result := .next (writeLen 2 d s)

/-- WR AUD2PER (R163). -/
def execWrAud2Per (d : Word) (s : State) : Result := .next (writePer 2 d s)

/-- WR AUD2VOL (R164). -/
def execWrAud2Vol (d : Word) (s : State) : Result := .next (writeVol 2 d s)

/-- WR AUD2DAT (R165). -/
def execWrAud2Dat (d : Word) (s : State) : Result := .next (writeDat 2 d s)

/-- WR AUD3LCH (R160). -/
def execWrAud3Lch (d : Word) (s : State) : Result := .next (writeLch 3 d s)

/-- WR AUD3LCL (R161). -/
def execWrAud3Lcl (d : Word) (s : State) : Result := .next (writeLcl 3 d s)

/-- WR AUD3LEN (R162). -/
def execWrAud3Len (d : Word) (s : State) : Result := .next (writeLen 3 d s)

/-- WR AUD3PER (R163). -/
def execWrAud3Per (d : Word) (s : State) : Result := .next (writePer 3 d s)

/-- WR AUD3VOL (R164). -/
def execWrAud3Vol (d : Word) (s : State) : Result := .next (writeVol 3 d s)

/-- WR AUD3DAT (R165). -/
def execWrAud3Dat (d : Word) (s : State) : Result := .next (writeDat 3 d s)

end Sys2Proof.Machine
end

