-- ==== Sys2Proof/Machine/Interrupts.lean ====
section
/-! DEFINITION. The interrupt controller's commands (42_interrupt_controller.md). -/

namespace Sys2Proof.Machine

/-- RD INTENAR (R132). -/
def execRdIntenar (s : State) : Result := .next (s.answer s.ints.intena)

/-- RD INTREQR (R132). -/
def execRdIntreqr (s : State) : Result := .next (s.answer s.ints.intreq)

/-- WR INTENA (R130). -/
def execWrIntena (d : Word) (s : State) : Result := .next (s.setIntena (setClr s.ints.intena d regMask))

/-- WR INTREQ (R131). -/
def execWrIntreq (d : Word) (s : State) : Result := .next (s.setIntreq (setClr s.ints.intreq d regMask))

/-- AINT (R135). Bit 15 has no pending bit: the fault records the command word (R250). -/
def execAint (bit : Fin 16) (asserted : Bool) (s : State) : Result :=
  if h : bit.val < 15 then
    .next (if asserted then s.assertInt ⟨bit, h⟩ else s.deassertInt ⟨bit, h⟩)
  else .fault (.badInterruptBit (BitVec.ofNat 16 (0x4000 + 16 * asserted.toNat + bit.val)))

/-- The state after a Gayle level: `gayleLevel` is written, and a non-zero level also asserts the funnel bit, if the
configuration has one (R136, R137). -/
def gayleState (l : Level) (s : State) : State :=
  let s' := { s with ints := { s.ints with gayleLevel := l } }
  match s.cfg.gayleBit with
  | some b => if l = 0 then s' else s'.assertInt b
  | none => s'

/-- GAYLE (R136). -/
def execGayle (l : Level) (s : State) : Result := .next (gayleState l s)

/-- The interrupt controller after one advance of the latency queue: pop the oldest entry when the queue is full, then
push the level computed now (R138, conflict C3). -/
def latAdvance (p : Params) (c : IntCtl) : IntCtl :=
  if p.depth = 0 then c
  else
    let level := paulaLevel p c.intreq c.intena
    if c.latQ.length = p.depth then
      { c with lagLevel := c.latQ.headD c.lagLevel, latQ := c.latQ.tail ++ [level] }
    else { c with latQ := c.latQ ++ [level] }

/-- LATADV (R138). -/
def execLatadv (s : State) : Result := .next { s with ints := latAdvance s.cfg s.ints }

end Sys2Proof.Machine
end

