-- ==== Sys2Proof/Machine/ResetOps.lean ====
section
/-! DEFINITION. RESET (70_reset_and_hazards.md R280). -/

namespace Sys2Proof.Machine

/-- Every element of the block in its reset state (R280). What is no element of the block stays: the configuration,
chip memory, the log, the last answer, the host's counters and the inputs (log entry 14). -/
def blockReset (s : State) : State :=
  { s with ints := .reset, dma := .reset, chans := #v[.reset, .reset, .reset, .reset], adkcon := 0 }

/-- RESET (R280). -/
def execReset (s : State) : Result := .next (blockReset s)

end Sys2Proof.Machine
end

