-- ==== Sys2Proof/Machine/Dispatch.lean ====
section
/-! DEFINITION. What each command does: one arm for each constructor of Instr. -/

namespace Sys2Proof.Machine

def exec (i : Instr) (s : State) : Host.Outcome State Fault Refusal :=
  match i with
  | .rdDmaconr => Sys2Proof.Machine.execRdDmaconr s
  | .rdAdkconr => Sys2Proof.Machine.execRdAdkconr s
  | .rdIntenar => Sys2Proof.Machine.execRdIntenar s
  | .rdIntreqr => Sys2Proof.Machine.execRdIntreqr s
  | .wrDmacon d => Sys2Proof.Machine.execWrDmacon d s
  | .wrIntena d => Sys2Proof.Machine.execWrIntena d s
  | .wrIntreq d => Sys2Proof.Machine.execWrIntreq d s
  | .wrAdkcon d => Sys2Proof.Machine.execWrAdkcon d s
  | .wrAud0Lch d => Sys2Proof.Machine.execWrAud0Lch d s
  | .wrAud0Lcl d => Sys2Proof.Machine.execWrAud0Lcl d s
  | .wrAud0Len d => Sys2Proof.Machine.execWrAud0Len d s
  | .wrAud0Per d => Sys2Proof.Machine.execWrAud0Per d s
  | .wrAud0Vol d => Sys2Proof.Machine.execWrAud0Vol d s
  | .wrAud0Dat d => Sys2Proof.Machine.execWrAud0Dat d s
  | .wrAud1Lch d => Sys2Proof.Machine.execWrAud1Lch d s
  | .wrAud1Lcl d => Sys2Proof.Machine.execWrAud1Lcl d s
  | .wrAud1Len d => Sys2Proof.Machine.execWrAud1Len d s
  | .wrAud1Per d => Sys2Proof.Machine.execWrAud1Per d s
  | .wrAud1Vol d => Sys2Proof.Machine.execWrAud1Vol d s
  | .wrAud1Dat d => Sys2Proof.Machine.execWrAud1Dat d s
  | .wrAud2Lch d => Sys2Proof.Machine.execWrAud2Lch d s
  | .wrAud2Lcl d => Sys2Proof.Machine.execWrAud2Lcl d s
  | .wrAud2Len d => Sys2Proof.Machine.execWrAud2Len d s
  | .wrAud2Per d => Sys2Proof.Machine.execWrAud2Per d s
  | .wrAud2Vol d => Sys2Proof.Machine.execWrAud2Vol d s
  | .wrAud2Dat d => Sys2Proof.Machine.execWrAud2Dat d s
  | .wrAud3Lch d => Sys2Proof.Machine.execWrAud3Lch d s
  | .wrAud3Lcl d => Sys2Proof.Machine.execWrAud3Lcl d s
  | .wrAud3Len d => Sys2Proof.Machine.execWrAud3Len d s
  | .wrAud3Per d => Sys2Proof.Machine.execWrAud3Per d s
  | .wrAud3Vol d => Sys2Proof.Machine.execWrAud3Vol d s
  | .wrAud3Dat d => Sys2Proof.Machine.execWrAud3Dat d s
  | .req v => Sys2Proof.Machine.execReq v s
  | .aint b a => Sys2Proof.Machine.execAint b a s
  | .gayle l => Sys2Proof.Machine.execGayle l s
  | .audpoll => Sys2Proof.Machine.execAudpoll s
  | .latadv => Sys2Proof.Machine.execLatadv s
  | .commit => Sys2Proof.Machine.execCommit s
  | .reset => Sys2Proof.Machine.execReset s

end Sys2Proof.Machine
end

