-- ==== Sys2Proof/Machine/Platform.lean ====
section
/-! DEFINITION. How the machine takes an input that is no command: the tick order and the host's accounting
(45_tick_and_host.md), memory writes by other masters, the interface calls outside the encoding; and how it takes the words
of a command. -/

namespace Sys2Proof.Machine

/-- The words of a command as inputs, under a register map (R80, R82). -/
def commandInputs (m : RegMap) (i : Instr) : List Input := (encode m i).map Input.word

/-- What a bus master does, as inputs (R230 A2, B). -/
def masterInputs (m : RegMap) : MasterOp → List Input
  | .command i => commandInputs m i
  | .chipWrite a bytes => [.chipWrite a bytes]

/-- One host iteration in the order of R230: A1 AUDPOLL if the end-of-line flag is set (R231), A2 the other devices, A3
LATADV, B the CPU phase, C COMMIT, D the bookkeeping. -/
def tickInputs (m : RegMap) (t : Tick) : List Input :=
  (if t.eol then commandInputs m .audpoll else []) ++ t.devices.flatMap (masterInputs m) ++ commandInputs m .latadv ++
    [.cpuPhase t.cpu] ++ commandInputs m .commit ++ [.bookkeep]

/-- Phase B (R235, R236): the CPU runs two steps if both budgets are 0, their commands in program order and then their
report (of both at once: log entry 25); else it requests a slot if it owes one (B2). Then B3, in every tick. -/
def cpuPhaseInputs (m : RegMap) (run : CpuRun) (h : HostCounters) : List Input :=
  (if h.cpuCycles = 0 ∧ h.totalWaits = 0 then
     run.ops.flatMap (masterInputs m) ++ [.cpuReport run.c1 run.c2 run.slots]
   else if 0 < h.totalWaits then commandInputs m (.req Source.cpu.rank) else []) ++ [.payCycle]

/-- What remains of the budgets when the CPU's two steps report (R235); a negative cost is a defect (R238). That the fault
comes after the commands of both steps, and records `c1` where both costs are negative, is the model's choice: the spec
says neither (log entry 25). -/
def takeReport (c1 c2 : Int) (slots : BusSlots) (s : State) : Result :=
  if c1 < 0 then .fault (.hostInvariant c1)
  else if c2 < 0 then .fault (.hostInvariant c2)
  else .next { s with host := ⟨((c1 + c2) / 2).toNat, slots.total⟩ }

/-- B3 (R236). -/
def payCycle (s : State) : State := { s with host := { s.host with cpuCycles := s.host.cpuCycles - 1 } }

/-- D (R236): a slot owed is paid unless the CPU's request was left pending. -/
def bookkeep (s : State) : State :=
  if 0 < s.host.totalWaits ∧ s.cpuWait = false then
    { s with host := { s.host with totalWaits := s.host.totalWaits - 1 } }
  else s

/-- The words at the front of the inputs, as far as one command can reach. -/
def frontWords : List Input → List Word
  | .word c :: .word d :: _ => [c, d]
  | .word c :: _ => [c]
  | _ => []

/-- The command at the front of the inputs and the inputs after it; `none` where no command word stands there. -/
def fetch (m : RegMap) (inputs : List Input) : Option (Except Reject Instr × List Input) :=
  match decodeWords m (frontWords inputs) with
  | none => none
  | some (r, unread) => some (r, inputs.drop ((frontWords inputs).length - unread.length))

/-- One step: the input at the front is taken. An empty list of inputs means that nothing has been issued, and the state
stays (log entry 2). -/
def stepInput (s : State) : Result :=
  match s.inputs with
  | [] => .next s
  | .word _ :: _ =>
    match fetch s.cfg.regAddr s.inputs with
    | none => .next s
    | some (.ok i, rest) => exec i { s with inputs := rest }
    | some (.error r, _) => .refused (.rejected r)
  | .chipWrite a bytes :: rest => .next { s with inputs := rest, mem := s.mem.write a bytes }
  | .requestSlot source _ :: rest => execReq source { s with inputs := rest }
  | .debugDma _ :: _ => .refused .debugOperation
  | .tick t :: rest => .next { s with inputs := tickInputs s.cfg.regAddr t ++ rest }
  | .cpuPhase run :: rest => .next { s with inputs := cpuPhaseInputs s.cfg.regAddr run s.host ++ rest }
  | .cpuReport c1 c2 slots :: rest => takeReport c1 c2 slots { s with inputs := rest }
  | .payCycle :: rest => .next (payCycle { s with inputs := rest })
  | .bookkeep :: rest => .next (bookkeep { s with inputs := rest })

/-- The state with the words of a table word issued before everything else. -/
def issueTableWord (s : State) (nbits w : Nat) : State :=
  { s with inputs := (tableWords nbits w).map Input.word ++ s.inputs }

end Sys2Proof.Machine
end

