-- ==== Sys2Proof/Machine/Step.lean ====
section
/-! DEFINITION. One step of the machine, and how one command is placed where the step takes its next. -/

namespace Sys2Proof.Machine

/-- One step (R64: one command or one host action, indivisible). -/
def step (s : State) : Host.Outcome State Fault Refusal := stepInput s

/-- The state in which the next step runs the command with these bits (log entry 1). -/
def State.withFetchWord (s : State) (nbits w : Nat) : State := issueTableWord s nbits w

end Sys2Proof.Machine
end

