-- ==== Sys2Proof/Machine/Assembler.lean ====
section
/-! DEFINITION. The spec's assembler text (30_encoding.md R91) and its pseudo-instructions (R92). -/

namespace Sys2Proof.Machine

/-- A set/clear register (R92). -/
inductive SetClrReg where
  | dmacon | intena | intreq | adkcon
  deriving DecidableEq, Repr

/-- WR of a set/clear register (R92). -/
def wrSetClr : SetClrReg → Word → Instr
  | .dmacon, d => .wrDmacon d
  | .intena, d => .wrIntena d
  | .intreq, d => .wrIntreq d
  | .adkcon, d => .wrAdkcon d

/-- A pseudo-instruction (R92). -/
inductive Pseudo where
  /-- `SET <reg>, #m` -/
  | set (r : SetClrReg) (m : Word)
  /-- `CLR <reg>, #m` -/
  | clr (r : SetClrReg) (m : Word)
  /-- `ACK <bit>`. R92 gives the bit no range: 0..15, as AINT's, is the model's choice (log entry 24) -/
  | ack (bit : Fin 16)
  /-- `WRLC <n>, #<u32 a>` -/
  | wrlc (n : ChannelId) (a : Addr)
  /-- `TICK <eol>` -/
  | tick (eol : Bool)
  deriving DecidableEq, Repr

/-- The expansion of a pseudo-instruction (R92). -/
def Pseudo.expand : Pseudo → List Instr
  | .set r m => [wrSetClr r (0x8000#16 ||| m)]
  | .clr r m => [wrSetClr r (m &&& 0x7FFF#16)]
  | .ack bit => [.wrIntreq (BitVec.twoPow 16 bit)]
  | .wrlc n a => [Instr.wrAudLch n (a.extractLsb' 16 16), Instr.wrAudLcl n (a.extractLsb' 0 16)]
  | .tick eol => (if eol then [.audpoll] else []) ++ [.latadv, .commit]

/-- The name of a source (R91). -/
def Source.text : Source → String
  | .agnus => "Agnus" | .copper => "Copper" | .blitter => "Blitter" | .cpu => "CPU"

/-- `WR <reg>, #<u16>` (R91). -/
def wrText (reg : String) (d : Word) : String := "WR " ++ reg ++ ", #" ++ toString d.toNat

/-- A command in the spec's syntax (R91), numbers in decimal. A REQ of no source has no text of its own. -/
def asmText : Instr → String
  | .rdDmaconr => "RD DMACONR"
  | .rdAdkconr => "RD ADKCONR"
  | .rdIntenar => "RD INTENAR"
  | .rdIntreqr => "RD INTREQR"
  | .wrDmacon d => wrText "DMACON" d
  | .wrIntena d => wrText "INTENA" d
  | .wrIntreq d => wrText "INTREQ" d
  | .wrAdkcon d => wrText "ADKCON" d
  | .wrAud0Lch d => wrText "AUD0LCH" d
  | .wrAud0Lcl d => wrText "AUD0LCL" d
  | .wrAud0Len d => wrText "AUD0LEN" d
  | .wrAud0Per d => wrText "AUD0PER" d
  | .wrAud0Vol d => wrText "AUD0VOL" d
  | .wrAud0Dat d => wrText "AUD0DAT" d
  | .wrAud1Lch d => wrText "AUD1LCH" d
  | .wrAud1Lcl d => wrText "AUD1LCL" d
  | .wrAud1Len d => wrText "AUD1LEN" d
  | .wrAud1Per d => wrText "AUD1PER" d
  | .wrAud1Vol d => wrText "AUD1VOL" d
  | .wrAud1Dat d => wrText "AUD1DAT" d
  | .wrAud2Lch d => wrText "AUD2LCH" d
  | .wrAud2Lcl d => wrText "AUD2LCL" d
  | .wrAud2Len d => wrText "AUD2LEN" d
  | .wrAud2Per d => wrText "AUD2PER" d
  | .wrAud2Vol d => wrText "AUD2VOL" d
  | .wrAud2Dat d => wrText "AUD2DAT" d
  | .wrAud3Lch d => wrText "AUD3LCH" d
  | .wrAud3Lcl d => wrText "AUD3LCL" d
  | .wrAud3Len d => wrText "AUD3LEN" d
  | .wrAud3Per d => wrText "AUD3PER" d
  | .wrAud3Vol d => wrText "AUD3VOL" d
  | .wrAud3Dat d => wrText "AUD3DAT" d
  | .req v => "REQ " ++ ((Source.ofNat? v).map Source.text).getD (toString v)
  | .aint bit asserted => "AINT " ++ toString bit.val ++ ", " ++ toString asserted.toNat
  | .gayle level => "GAYLE #" ++ toString level.val
  | .audpoll => "AUDPOLL"
  | .latadv => "LATADV"
  | .commit => "COMMIT"
  | .reset => "RESET"

end Sys2Proof.Machine
end

