-- ==== Sys2Proof/Machine/Run.lean ====
section
/-! DEFINITION. A run that goes on after a refusal and never after a fault, with the two marks of 60_exceptions.md R250
and R251 (log entry 16). The step itself only says how it ended. -/

namespace Sys2Proof.Machine

/-- A state with the marks of the run so far. -/
structure Run where
  state : State
  /-- the fault that ended the run (R250) -/
  fault : Option Fault
  /-- the first refusal, kept for the rest of the run (R251) -/
  refusal : Option Refusal
  deriving DecidableEq, Repr

/-- The inputs without the one at the front: a command's words, or one other input. -/
def dropInput (m : RegMap) (inputs : List Input) : List Input :=
  match inputs with
  | .word w :: rest =>
    match fetch m (.word w :: rest) with
    | some (_, after) => after
    | none => rest
  | _ :: rest => rest
  | [] => []

/-- The run one step on. A faulted run stays as it is, whatever is issued (R250); a refused input leaves the block's state
unchanged and sets the mark (R251). -/
def Run.advance (r : Run) : Run :=
  match r.fault with
  | some _ => r
  | none =>
    match step r.state with
    | .next t => { r with state := t }
    | .fault f => { r with fault := some f }
    | .refused q =>
      { r with
        state := { r.state with inputs := dropInput r.state.cfg.regAddr r.state.inputs }
        refusal := r.refusal.or (some q) }

/-- The run after `k` steps. -/
def Run.iterate : Nat → Run → Run
  | 0, r => r
  | k + 1, r => Run.iterate k r.advance

/-- A final state: everything issued has been taken and the run has not faulted. R250 says only that "the faulted state is
never a final state"; that the other states with no input left are final, one with a refusal mark among them, is the
model's choice (log entry 26). -/
def Run.isFinal (r : Run) : Bool := r.fault.isNone && r.state.inputs.isEmpty

end Sys2Proof.Machine
end

