-- ==== Sys2Proof/Safety.lean ====
section
/-! DEFINITION. What claims are stated in: the invariants of 10_state.md R41, what counts as a safe run, and the spec's
words for a rising enable bit and a source that can be granted. -/

namespace Sys2Proof.Machine

/-- The invariants of one channel (R41): the volume's bound, and the even pointers. -/
abbrev Channel.Inv (c : Channel) : Prop :=
  c.volume.toNat ≤ 64 ∧ c.pointer.getLsbD 0 = false ∧ c.workingPointer.getLsbD 0 = false

/-- The invariants of R41, with the canonical form of chip memory. -/
abbrev State.Inv (s : State) : Prop :=
  s.dma.dmacon &&& ~~~s.cfg.dmaconWmask = 0 ∧
  s.ints.intena.getLsbD 15 = false ∧ s.ints.intreq.getLsbD 15 = false ∧ s.adkcon.getLsbD 15 = false ∧
  (∀ n : ChannelId, (s.chan n).Inv) ∧
  s.ints.latQ.length ≤ s.cfg.depth ∧
  s.mem.wf = true

/-- Bit `b` counts as enabled in the mask `m`, as `P_ARM_TRIGGER` reads "enabled" (R101). -/
def armEnabled (p : Params) (m : Word) (b : Nat) : Bool :=
  m.getLsbD b && (decide (p.armTrigger = .ownBit) || m.getLsbD p.dmaenBit)

/-- Bit `b` went from not enabled to enabled (R101: "transitioned from 0→1"). -/
def armRise (p : Params) (old new : Word) (b : Nat) : Bool := !armEnabled p old b && armEnabled p new b

/-- A source that waits and may be granted: the CPU always may, the others under the master enable (R110). -/
abbrev State.ready (s : State) (src : Source) : Prop :=
  s.dma.waiting.get src = true ∧ (src = .cpu ∨ s.dma.dmacon.getLsbD s.cfg.dmaenBit = true)

/-- The state in which an AUDPOLL polls channel `n`: the channels before it have been polled (R192). -/
def State.beforePoll (s : State) : ChannelId → State
  | 0 => s
  | 1 => channelPoll 0 s
  | 2 => channelPoll 1 (channelPoll 0 s)
  | 3 => channelPoll 2 (channelPoll 1 (channelPoll 0 s))

/-- The addresses of the MemReads among some events, in order (R45 (e)). -/
def fetchAddresses (events : List Event) : List Addr :=
  events.filterMap fun
    | .memRead a _ => some a
    | _ => none

/-- The next state of an outcome, if it is one. -/
def nextOf {σ φ ρ : Type} : Host.Outcome σ φ ρ → Option σ
  | .next s => some s
  | .fault _ => none
  | .refused _ => none

/-- `k` steps from `s` reach neither a fault nor a refusal: a safe run (R250, R251). -/
def SafeRun (k : Nat) (s : State) : Prop := ∃ t, Sys2Proof.core.run k s = .next t

/-- What the outside sees of the block, but for the log (R45 (a) to (d)). -/
structure Observation where
  ipl : Level
  cpuWait : Bool
  lastGrant : Option Source
  sound : List (Word × BitVec 7)
  deriving DecidableEq, Repr

/-- The observation of a state (R45). -/
def observe (s : State) : Observation where
  ipl := s.ipl
  cpuWait := s.cpuWait
  lastGrant := s.dma.lastGrant
  sound := s.chans.toList.map fun c => (c.data, c.volume)

end Sys2Proof.Machine
end

