-- ==== Sys2Proof/Certificates/Slice0/Obligations.lean ====
section
/-! DEFINITION. The statements about the model, from the numbered rules of spec/. A statement that exec answers
`.next { s with … }` says that every field it does not name is unchanged. -/

open Sys2Proof Sys2Proof.Machine

/-! ### Encoding -/

/-- Under every register map the encoding allows, every command the encoding can name decodes from its own words, whatever
words follow, and leaves those unread (30_encoding.md R80 to R90; the encoding is the spec's own, D1). -/
def Obligations.CommandsDecodeFromTheirOwnWords : Prop :=
  ∀ (m : RegMap) (i : Instr) (rest : List Word), m.wf = true → i.wf = true →
    decodeWords m (encode m i ++ rest) = some (.ok i, rest)

/-- Every word the decoder accepts is the encoding of the command it gives, which is well formed: no accepted word has a
second meaning or a bit that is ignored, under any register map (R88). -/
def Obligations.AcceptedWordsAreTheirCommandsEncoding : Prop :=
  ∀ (m : RegMap) (c d : Word) (i : Instr), decode m c (some d) = .ok i →
    i.wf = true ∧ encode m i = if c.toNat / 4096 = 1 then [c, d] else [c]

/-- Under every register map the encoding allows, the rows of the opcode table do not overlap, and a word that a row
matches is that row's command (R88). -/
def Obligations.OpcodeRowsAreDisjointAndDecodeTheirWords : Prop :=
  ∀ (m : RegMap) (c d : Word) (r : Row), m.wf = true → r ∈ opcodeRows m → c &&& r.mask = r.pattern →
    (∀ r' ∈ opcodeRows m, c &&& r'.mask = r'.pattern → r'.mnemonic = r.mnemonic) ∧
    decode m c (some d) = .ok (r.build c (if c.toNat / 4096 = 1 then d else 0))

/-- Words of 95_test_vectors.md section 2.1 and the command words of R82, each written out, under the default map. -/
def Obligations.WordsOfTheSpecDecode : Prop :=
  decode .default 0x2002#16 none = .ok .rdDmaconr ∧
  decode .default 0x1096#16 (some 0x8201#16) = .ok (.wrDmacon 0x8201#16) ∧
  decode .default 0x10A0#16 (some 2#16) = .ok (.wrAud0Lch 2#16) ∧
  decode .default 0x10D8#16 (some 64#16) = .ok (.wrAud3Vol 64#16) ∧
  decode .default 0x10BA#16 (some 1#16) = .ok (.wrAud1Dat 1#16) ∧ decode .default 0x3003#16 none = .ok (.req 3) ∧
  decode .default 0x4017#16 none = .ok (.aint 7 true) ∧ decode .default 0x5002#16 none = .ok (.gayle 2) ∧
  decode .default 0x7000#16 none = .ok .latadv ∧ decode .default 0x3004#16 none = .error .reservedCommand

/-- A word that is no command is refused by the name the spec gives its case (R89, R251), whatever stands after it: a word,
another input or nothing. The order of the cases is the model's (log entry 4), and so is the refusal of a write word that no
operand follows (log entry 3). -/
def Obligations.WordsThatAreNoCommandAreRefused : Prop :=
  ∀ (s : State) (c : Word) (rest : List Input), s.cfg.regAddr.wf = true → s.inputs = .word c :: rest →
    let m := s.cfg.regAddr
    let cls := c.toNat / 4096
    let mbz := c.toNat / 512 % 8
    let off : Offset := c.extractLsb' 0 9
    ((cls = 0 ∨ 10 ≤ cls) → step s = .refused (.rejected .reservedCommand)) ∧
    ((cls = 1 ∨ cls = 2) → mbz ≠ 0 → step s = .refused (.rejected .reservedCommand)) ∧
    ((cls = 1 ∨ cls = 2) → mbz = 0 → off.getLsbD 0 = true → step s = .refused (.rejected .misalignedRegister)) ∧
    (cls = 1 → mbz = 0 → off ∈ m.readOffsets → step s = .refused (.rejected .wrongDirection)) ∧
    (cls = 2 → mbz = 0 → off ∈ m.writeOffsets → step s = .refused (.rejected .wrongDirection)) ∧
    ((cls = 1 ∨ cls = 2) → mbz = 0 → off.getLsbD 0 = false → off ∉ m.readOffsets → off ∉ m.writeOffsets →
      step s = .refused (.rejected .foreignRegister)) ∧
    (cls = 1 → mbz = 0 → off ∈ m.writeOffsets → (∀ d rest', rest ≠ .word d :: rest') →
      step s = .refused (.rejected .missingOperand)) ∧
    (cls = 3 → c.toNat / 4 % 1024 ≠ 0 → step s = .refused (.rejected .reservedCommand)) ∧
    (cls = 4 → c.toNat / 32 % 128 ≠ 0 → step s = .refused (.rejected .reservedCommand)) ∧
    (cls = 5 → c.toNat / 8 % 512 ≠ 0 → step s = .refused (.rejected .reservedCommand)) ∧
    ((6 ≤ cls ∧ cls ≤ 9) → c.toNat % 4096 ≠ 0 → step s = .refused (.rejected .reservedCommand))

/-- The step runs the command whose words stand at the front of the inputs, on the state with those words taken. -/
def Obligations.StepRunsTheDecodedCommand : Prop :=
  ∀ (s : State) (i : Instr) (rest : List Input), s.cfg.regAddr.wf = true → i.wf = true →
    s.inputs = (encode s.cfg.regAddr i).map Input.word ++ rest →
    step s = exec i { s with inputs := rest }

/-! ### The machine as a whole -/

/-- Every command the encoding can name runs to a next state, but for AINT of bit 15, which faults (R135, R250); none is
refused. -/
def Obligations.EveryCommandCompletes : Prop :=
  ∀ (i : Instr) (s : State), i.wf = true →
    ((∀ a, i ≠ .aint 15 a) → ∃ t, exec i s = .next t) ∧
    ∀ a, i = .aint 15 a → exec i s = .fault (.badInterruptBit (encode s.cfg.regAddr i).head!)

/-- RESET and power-on leave a state in which the invariants of R41 hold. -/
def Obligations.InvariantsHoldAtReset : Prop := State.reset.Inv ∧ State.reset.cfg.wf = true

/-- The invariants of R41 and the canonical form of chip memory are kept by every step, from every state that has them. -/
def Obligations.EveryStepKeepsTheInvariants : Prop :=
  ∀ s t : State, s.Inv → step s = .next t → t.Inv

/-- No step changes a parameter: the parameters are configuration, not state (R39; log entry 8). -/
def Obligations.NoStepChangesAParameter : Prop := ∀ s t : State, step s = .next t → t.cfg = s.cfg

/-- No command writes chip memory: every address reads as before (R37, R60). That RESET too leaves the host's counters, which
R234 only says are 0 at reset, is the model's choice (log entry 14), and the inputs are the model's own (log entry 1). -/
def Obligations.NoCommandWritesChipMemory : Prop :=
  ∀ (i : Instr) (s t : State), exec i s = .next t →
    (∀ a, t.mem.get? a = s.mem.get? a) ∧ t.mem = s.mem ∧ t.host = s.host ∧ t.inputs = s.inputs

/-- Which commands can change each register of the interrupt controller and the arbiter, and ADKCON (R22 to R28, R30, R31,
R111); of INTREQ, which bits each may change is said by `PendingBitsChangeOnlyAsTheSpecSays`. The channels' registers are in
`ChannelRegistersChangeOnlyByTheirOwnCommands`. The last clause is about the model's own field, which holds the answer of an
RD until the next one, through a RESET too (log entry 5). -/
def Obligations.RegistersOutsideTheChannelsChangeOnlyByTheirOwnCommands : Prop :=
  ∀ (i : Instr) (s t : State), exec i s = .next t →
    (t.ints.intreq ≠ s.ints.intreq → i = .reset ∨ i = .audpoll ∨ (∃ d, i = .wrIntreq d) ∨ (∃ b a, i = .aint b a) ∨
      (∃ d, i = .wrDmacon d) ∨ ∃ l b, i = .gayle l ∧ s.cfg.gayleBit = some b) ∧
    (t.ints.latQ ≠ s.ints.latQ → i = .reset ∨ i = .latadv) ∧
    (t.ints.lagLevel ≠ s.ints.lagLevel → i = .reset ∨ i = .latadv) ∧
    (t.dma.dmacon ≠ s.dma.dmacon → i = .reset ∨ ∃ d, i = .wrDmacon d) ∧
    (t.ints.intena ≠ s.ints.intena → i = .reset ∨ ∃ d, i = .wrIntena d) ∧
    (t.adkcon ≠ s.adkcon → i = .reset ∨ ∃ d, i = .wrAdkcon d) ∧
    (t.ints.gayleLevel ≠ s.ints.gayleLevel → i = .reset ∨ ∃ l, i = .gayle l) ∧
    (t.dma.lastGrant ≠ s.dma.lastGrant → i = .reset ∨ i = .commit) ∧
    (∀ src, s.dma.waiting.get src = true → t.dma.waiting.get src = false → i = .reset ∨ i = .commit) ∧
    (∀ src, s.dma.waiting.get src = false → t.dma.waiting.get src = true →
      i = .req src.rank ∨ (i = .audpoll ∧ src = .agnus ∧ s.cfg.audioReq = true)) ∧
    (t.lastRead ≠ s.lastRead → i = .rdDmaconr ∨ i = .rdAdkconr ∨ i = .rdIntenar ∨ i = .rdIntreqr)

/-- Nothing but software, a device or RESET clears a pending bit, and the audio channels set no bit but their own (R203,
R254). -/
def Obligations.PendingBitsChangeOnlyAsTheSpecSays : Prop :=
  ∀ (i : Instr) (s t : State) (b : Nat), exec i s = .next t →
    (s.ints.intreq.getLsbD b = true → t.ints.intreq.getLsbD b = false →
      i = .reset ∨ (∃ d : Word, i = .wrIntreq d ∧ d.getLsbD 15 = false ∧ d.getLsbD b = true) ∨
        ∃ k : Fin 16, i = .aint k false ∧ k.val = b) ∧
    (s.ints.intreq.getLsbD b = false → t.ints.intreq.getLsbD b = true →
      (∃ d : Word, i = .wrIntreq d ∧ d.getLsbD 15 = true ∧ d.getLsbD b = true) ∨
      (∃ k : Fin 16, i = .aint k true ∧ k.val = b) ∨
      (∃ (l : Level) (k : Fin 15), i = .gayle l ∧ l ≠ 0 ∧ s.cfg.gayleBit = some k ∧ k.val = b) ∨
      ((i = .audpoll ∨ ∃ d, i = .wrDmacon d) ∧ ∃ n : ChannelId, (s.cfg.intBit n).val = b))

/-! ### Reads, set/clear writes -/

/-- Each RD returns its register and changes nothing else; a bit that is not stored reads 0 (R102, R132, R169, R65). -/
def Obligations.ReadsReturnTheStoredRegister : Prop :=
  ∀ s : State,
    encode .default .rdDmaconr = [0x2002#16] ∧ exec .rdDmaconr s = .next { s with lastRead := some s.dma.dmacon } ∧
    encode .default .rdIntenar = [0x201C#16] ∧ exec .rdIntenar s = .next { s with lastRead := some s.ints.intena } ∧
    encode .default .rdIntreqr = [0x201E#16] ∧ exec .rdIntreqr s = .next { s with lastRead := some s.ints.intreq } ∧
    encode .default .rdAdkconr = [0x2010#16] ∧ exec .rdAdkconr s = .next { s with lastRead := some s.adkcon } ∧
    (s.Inv → s.cfg.wf = true →
      (∀ b, s.cfg.dmaconWmask.getLsbD b = false → s.dma.dmacon.getLsbD b = false) ∧
      s.dma.dmacon.getLsbD 15 = false ∧ s.ints.intena.getLsbD 15 = false ∧ s.ints.intreq.getLsbD 15 = false ∧
      s.adkcon.getLsbD 15 = false)

/-- SetClr, bit by bit (R11). Bit 15 stays as it was where the mask does not hold it, as no legal mask does. -/
def Obligations.SetClearWritesTheSelectedBits : Prop :=
  ∀ (old v wmask : Word) (b : Nat),
    (setClr old v wmask).getLsbD b =
      if wmask.getLsbD b = true ∧ v.getLsbD b = true then v.getLsbD 15 else old.getLsbD b

/-- A set/clear write done twice is done once: DMACON, INTENA, INTREQ, ADKCON (R65). -/
def Obligations.SetClearWritesAreIdempotent : Prop :=
  ∀ (d : Word) (i : Instr) (s t : State), i ∈ [Instr.wrDmacon d, .wrIntena d, .wrIntreq d, .wrAdkcon d] →
    exec i s = .next t → exec i t = .next t

/-- WR INTENA (R130), with its corner cases: clearing the global enable forces the Paula level to 0. -/
def Obligations.IntenaWriteSetsOrClears : Prop :=
  ∀ (d : Word) (s : State), encode .default (.wrIntena d) = [0x109A#16, d] ∧
    ∃ v : Word, exec (.wrIntena d) s = .next { s with ints := { s.ints with intena := v } } ∧
      (∀ b < 15, v.getLsbD b = if d.getLsbD b = true then d.getLsbD 15 else s.ints.intena.getLsbD b) ∧
      v.getLsbD 15 = s.ints.intena.getLsbD 15 ∧
      (d = 0x8000#16 ∨ d = 0#16 → v = s.ints.intena) ∧
      (d.getLsbD 15 = false → d.getLsbD s.cfg.globalEnBit = true → paulaLevel s.cfg s.ints.intreq v = 0)

/-- WR INTREQ (R131): acknowledge or request, bits 14 to 0; nothing else changes. -/
def Obligations.IntreqWriteAcknowledgesOrRequests : Prop :=
  ∀ (d : Word) (s : State), encode .default (.wrIntreq d) = [0x109C#16, d] ∧
    ∃ v : Word, exec (.wrIntreq d) s = .next { s with ints := { s.ints with intreq := v } } ∧
      (∀ b < 15, v.getLsbD b = if d.getLsbD b = true then d.getLsbD 15 else s.ints.intreq.getLsbD b) ∧
      v.getLsbD 15 = s.ints.intreq.getLsbD 15

/-! ### DMA arbiter -/

/-- WR DMACON (R100, R101, R190): the mask's set/clear write; each channel whose bit rose enters DMA mode with its working
copies loaded from the live registers and its interrupt raised, no sample being fetched; each outside device whose bit rose
is notified; nothing else changes. -/
def Obligations.DmaconWriteArmsTheRisingChannels : Prop :=
  ∀ (d : Word) (s : State), encode .default (.wrDmacon d) = [0x1096#16, d] ∧
    ∃ t, exec (.wrDmacon d) s = .next t ∧
      (∀ b, t.dma.dmacon.getLsbD b =
        if s.cfg.dmaconWmask.getLsbD b = true ∧ d.getLsbD b = true then d.getLsbD 15 else s.dma.dmacon.getLsbD b) ∧
      (∀ n : ChannelId, t.chan n =
        if armRise s.cfg s.dma.dmacon t.dma.dmacon (s.cfg.dmaBit n) = true then
          { s.chan n with
            mode := .dma
            workingPeriod := ((s.chan n).period.toNat : Int)
            workingLength := (s.chan n).length
            workingPointer := (s.chan n).pointer }
        else s.chan n) ∧
      (∀ b, t.ints.intreq.getLsbD b = true ↔
        s.ints.intreq.getLsbD b = true ∨ ∃ n : ChannelId,
          armRise s.cfg s.dma.dmacon t.dma.dmacon (s.cfg.dmaBit n) = true ∧ (s.cfg.intBit n).val = b) ∧
      t.log = s.log ++
        (([0, 1, 2, 3] : List ChannelId).filter fun (n : ChannelId) =>
          armRise s.cfg s.dma.dmacon t.dma.dmacon (s.cfg.dmaBit n)).map
            (fun (n : ChannelId) => Event.intAssert (s.cfg.intBit n)) ++
        (([4, 5, 6, 7, 8] : List (Fin 16)).filter fun (b : Fin 16) =>
          armRise s.cfg s.dma.dmacon t.dma.dmacon b.val).map Event.notify ∧
      t = { s with
        dma := { s.dma with dmacon := t.dma.dmacon }
        chans := t.chans
        ints := { s.ints with intreq := t.ints.intreq }
        log := t.log }

/-- A DMACON write that clears changes the mask alone: no channel stops, no interrupt, no notification; and writing 0x8000
or 0x0000 changes nothing at all (R100's corner cases). -/
def Obligations.ClearingDmaconDisturbsNothingElse : Prop :=
  ∀ (d : Word) (s : State),
    (d.getLsbD 15 = false → ∃ v, exec (.wrDmacon d) s = .next { s with dma := { s.dma with dmacon := v } }) ∧
    (s.cfg.wf = true → d = 0x8000#16 ∨ d = 0#16 → exec (.wrDmacon d) s = .next s)

/-- The enable query (R104): the bit and the master enable; the master bit asks for itself alone; a bit that is not stored
is never enabled. -/
def Obligations.EnableQueryNeedsTheMasterBit : Prop :=
  ∀ (s : State) (b : Nat),
    (s.isEnabled b = true ↔ s.dma.dmacon.getLsbD b = true ∧ s.dma.dmacon.getLsbD s.cfg.dmaenBit = true) ∧
    s.isEnabled s.cfg.dmaenBit = s.dma.dmacon.getLsbD s.cfg.dmaenBit ∧
    (s.Inv → s.cfg.dmaconWmask.getLsbD b = false → s.isEnabled b = false)

/-- REQ (R106, R83): the source waits, the others as before; requests do not count up. The interface call requestSlot is the
same, whatever its priority (D13). R106 gives REQ no exception; the two clauses for a number that is no source, which the
encoding has not, state the fault of R250 in the form the model chose for it (log entry 20). -/
def Obligations.RequestDeclaresTheSourceWaiting : Prop :=
  (∀ (v : Nat) (src : Source) (s : State),
    (v, src) ∈ [(0, Source.agnus), (1, .copper), (2, .blitter), (3, .cpu)] →
    encode s.cfg.regAddr (.req v) = [BitVec.ofNat 16 (0x3000 + v)] ∧
    ∃ w : Waiting, exec (.req v) s = .next { s with dma := { s.dma with waiting := w } } ∧
      (∀ o, w.get o = (decide (o = src) || s.dma.waiting.get o)) ∧
      (s.dma.waiting.get src = true → w = s.dma.waiting)) ∧
  (∀ (v : Nat) (s : State), 4 ≤ v → exec (.req v) s = .fault (.unknownSource v)) ∧
  ∀ (v priority : Nat) (rest : List Input) (s : State), s.inputs = .requestSlot v priority :: rest →
    (∀ src, (v, src) ∈ [(0, Source.agnus), (1, .copper), (2, .blitter), (3, .cpu)] →
      ∃ w : Waiting, step s = .next { s with inputs := rest, dma := { s.dma with waiting := w } } ∧
        ∀ o, w.get o = (decide (o = src) || s.dma.waiting.get o)) ∧
    (4 ≤ v → step s = .fault (.unknownSource v))

/-- COMMIT (R107, R110): the first of Agnus, Copper, Blitter, CPU that waits and is eligible is granted and stops waiting;
all others keep waiting; with none, nothing is granted. -/
def Obligations.CommitGrantsTheHighestPriorityReadySource : Prop :=
  ∀ s : State, encode s.cfg.regAddr .commit = [0x8000#16] ∧
    ∃ (g : Option Source) (w : Waiting),
      exec .commit s = .next { s with dma := { s.dma with waiting := w, lastGrant := g } } ∧
      (∀ src, g = some src ↔ s.ready src ∧ ∀ o, s.ready o → src.rank ≤ o.rank) ∧
      (g = none ↔ ∀ o, ¬ s.ready o) ∧
      (∀ o, w.get o = (s.dma.waiting.get o && decide (g ≠ some o)))

/-- BLTPRI, DMACON bit 10, has no effect on COMMIT (R109). -/
def Obligations.BlitterPriorityBitDoesNotAffectCommit : Prop :=
  ∀ s : State, s.cfg.dmaenBit ≠ 10 →
    ∃ t t', exec .commit s = .next t ∧
      exec .commit { s with dma := { s.dma with dmacon := s.dma.dmacon ^^^ 0x0400#16 } } = .next t' ∧
      t'.dma.lastGrant = t.dma.lastGrant ∧ t'.dma.waiting = t.dma.waiting

/-! ### Interrupt controller -/

/-- The Paula level (R133): 0 without the global enable or without a pending and enabled bit, else the priority of the
highest such bit, whatever its value. -/
def Obligations.PaulaLevelIsThePriorityOfTheHighestBit : Prop :=
  ∀ (p : Params) (pend ena : Word),
    (ena.getLsbD p.globalEnBit = false → paulaLevel p pend ena = 0) ∧
    (pend &&& ena = 0 → paulaLevel p pend ena = 0) ∧
    ∀ i : Fin 16, ena.getLsbD p.globalEnBit = true → (pend &&& ena).getLsbD i = true →
      (∀ j : Nat, i.val < j → j < 16 → (pend &&& ena).getLsbD j = false) → paulaLevel p pend ena = p.prio[i]

/-- AINT (R135): one pending bit is set or cleared, as WR INTREQ with that bit alone would; an assertion is logged; bit 15
faults with the command word. -/
def Obligations.AintSetsOrClearsOnePendingBit : Prop :=
  (∀ (b : Fin 15) (a : Bool) (s : State),
    encode s.cfg.regAddr (.aint b.castSucc a) = [BitVec.ofNat 16 (0x4000 + (if a then 16 else 0) + b.val)] ∧
    ∃ v : Word,
      exec (.aint b.castSucc a) s =
        .next { s with
          ints := { s.ints with intreq := v }
          log := if a then s.log ++ [.intAssert b] else s.log } ∧
      (∀ j : Nat, v.getLsbD j = if j = b.val then a else s.ints.intreq.getLsbD j) ∧
      exec (.wrIntreq (BitVec.ofNat 16 ((if a then 0x8000 else 0) + 2 ^ b.val))) s =
        .next { s with ints := { s.ints with intreq := v } }) ∧
  ∀ (a : Bool) (s : State),
    exec (.aint 15 a) s = .fault (.badInterruptBit (if a then 0x401F#16 else 0x400F#16))

/-- GAYLE (R136, R137): the level is written, and a non-zero level also asserts the funnel bit where there is one; a level
of 0 clears no pending bit. -/
def Obligations.GayleWritesItsLevelAndFunnels : Prop :=
  ∀ (l : Level) (s : State), encode s.cfg.regAddr (.gayle l) = [BitVec.ofNat 16 (0x5000 + l.val)] ∧
    ∃ v : Word,
      exec (.gayle l) s =
        .next { s with
          ints := { s.ints with gayleLevel := l, intreq := v }
          log := s.log ++ if l = 0 then [] else s.cfg.gayleBit.toList.map Event.intAssert } ∧
      ∀ j : Nat, v.getLsbD j = true ↔
        s.ints.intreq.getLsbD j = true ∨ (l ≠ 0 ∧ ∃ b : Fin 15, s.cfg.gayleBit = some b ∧ b.val = j)

/-- LATADV (R138): nothing with depth 0; else the oldest entry becomes visible when the queue is full, and the level
computed now is pushed. -/
def Obligations.LatencyAdvancePopsThenPushes : Prop :=
  ∀ s : State, encode s.cfg.regAddr .latadv = [0x7000#16] ∧
    (s.cfg.depth = 0 → exec .latadv s = .next s) ∧
    (0 < s.cfg.depth → s.ints.latQ.length ≠ s.cfg.depth →
      exec .latadv s = .next { s with ints := { s.ints with latQ := s.ints.latQ ++ [s.paula] } }) ∧
    ∀ oldest younger, 0 < s.cfg.depth → s.ints.latQ.length = s.cfg.depth → s.ints.latQ = oldest :: younger →
      exec .latadv s =
        .next { s with ints := { s.ints with lagLevel := oldest, latQ := younger ++ [s.paula] } }

/-- The latency law (R139): with one LATADV in each tick and any commands between that leave the queue alone, the visible
level from the LATADV of tick T on is the Paula level at the LATADV of tick T - P_DEPTH, and 0 before. `before T` and
`after T` are the states around the LATADV of tick T; tick 0 stands for the RESET. -/
def Obligations.VisibleLevelLagsByExactlyTheDepth : Prop :=
  ∀ (before after : Nat → State) (N : Nat), 0 < N →
    (∀ t, (before t).cfg.depth = N ∧ (after t).cfg.depth = N) →
    (after 0).ints.latQ = [] → (after 0).ints.lagLevel = 0 →
    (∀ t, (before (t + 1)).ints.latQ = (after t).ints.latQ ∧ (before (t + 1)).ints.lagLevel = (after t).ints.lagLevel) →
    (∀ t, exec .latadv (before (t + 1)) = .next (after (t + 1))) →
    ∀ T, (after T).visiblePaula = if N < T then (before (T - N)).paula else 0

/-- Only LATADV and RESET change the latency queue and the level popped from it, and the queue is never longer than
P_DEPTH, so it is empty with depth 0 (R27). -/
def Obligations.OnlyLatadvAndResetChangeTheLatencyQueue : Prop :=
  ∀ (i : Instr) (s t : State), exec i s = .next t →
    (i ≠ .latadv → i ≠ .reset → t.ints.latQ = s.ints.latQ ∧ t.ints.lagLevel = s.ints.lagLevel) ∧
    (s.ints.latQ.length ≤ s.cfg.depth → t.ints.latQ.length ≤ t.cfg.depth)

/-- The level presented to the CPU (R140, R142): the larger of the visible Paula level and the Gayle level, the visible
level being the Paula level of the registers with depth 0 and the lagged level otherwise. -/
def Obligations.IplIsTheMaximumOfPaulaAndGayle : Prop :=
  ∀ s : State,
    (s.cfg.depth = 0 → s.ipl.val = max (paulaLevel s.cfg s.ints.intreq s.ints.intena).val s.ints.gayleLevel.val) ∧
    (0 < s.cfg.depth → s.ipl.val = max s.ints.lagLevel.val s.ints.gayleLevel.val) ∧ s.ipl.val ≤ 7

/-! ### Audio registers -/

/-- WR AUDnLCH and AUDnLCL (R160, R161), for each channel: the half written, bit 0 dropped, under the stored mask; the
working pointer and everything else as before. -/
def Obligations.PointerWritesReplaceOneHalf : Prop :=
  ∀ (n : ChannelId) (d : Word) (s : State),
    encode .default (Instr.wrAudLch n d) = [BitVec.ofNat 16 (0x10A0 + 0x10 * n.val), d] ∧
    encode .default (Instr.wrAudLcl n d) = [BitVec.ofNat 16 (0x10A2 + 0x10 * n.val), d] ∧
    (∃ p : Addr, exec (Instr.wrAudLch n d) s = .next (s.setChan n { s.chan n with pointer := p }) ∧
      ∀ b < 32, p.getLsbD b =
        ((if b < 16 then (s.chan n).pointer.getLsbD b else d.getLsbD (b - 16)) && s.cfg.ptrMask.getLsbD b)) ∧
    ∃ p : Addr, exec (Instr.wrAudLcl n d) s = .next (s.setChan n { s.chan n with pointer := p }) ∧
      p.getLsbD 0 = false ∧
      ∀ b < 32, b ≠ 0 → p.getLsbD b =
        ((if b < 16 then d.getLsbD b else (s.chan n).pointer.getLsbD b) && s.cfg.ptrMask.getLsbD b)

/-- WR AUDnLEN, AUDnPER and AUDnVOL (R162, R163, R164, R166), for each channel: the register takes the operand, the volume
through the 7-bit mask with 64 as its ceiling; nothing else changes. -/
def Obligations.LengthPeriodAndVolumeWrites : Prop :=
  ∀ (n : ChannelId) (d : Word) (s : State),
    encode .default (Instr.wrAudLen n d) = [BitVec.ofNat 16 (0x10A4 + 0x10 * n.val), d] ∧
    encode .default (Instr.wrAudPer n d) = [BitVec.ofNat 16 (0x10A6 + 0x10 * n.val), d] ∧
    encode .default (Instr.wrAudVol n d) = [BitVec.ofNat 16 (0x10A8 + 0x10 * n.val), d] ∧
    exec (Instr.wrAudLen n d) s = .next (s.setChan n { s.chan n with length := d }) ∧
    exec (Instr.wrAudPer n d) s = .next (s.setChan n { s.chan n with period := d }) ∧
    ∃ v : BitVec 7, exec (Instr.wrAudVol n d) s = .next (s.setChan n { s.chan n with volume := v }) ∧
      v.toNat = if d.toNat % 128 < 64 then d.toNat % 128 else 64

/-- WR AUDnDAT (R165), for each channel and in every mode: the sample is held, Interrupt mode is entered, the countdown
starts from the period; no interrupt is raised and nothing else changes. -/
def Obligations.DataWriteArmsInterruptMode : Prop :=
  ∀ (n : ChannelId) (d : Word) (s : State),
    encode .default (Instr.wrAudDat n d) = [BitVec.ofNat 16 (0x10AA + 0x10 * n.val), d] ∧
    exec (Instr.wrAudDat n d) s =
      .next (s.setChan n
        { s.chan n with data := d, mode := .interrupt, workingPeriod := ((s.chan n).period.toNat : Int) })

/-- Replacing one channel leaves every other channel and every other field as it was: what `setChan` means in the
statements above. -/
def Obligations.SettingOneChannelLeavesTheRest : Prop :=
  ∀ (n : ChannelId) (c : Channel) (s : State),
    (s.setChan n c).chan n = c ∧ (∀ m, m ≠ n → (s.setChan n c).chan m = s.chan m) ∧
    s.setChan n c = { s with chans := (s.setChan n c).chans }

/-- A write of the pointer, the length, the period (R170) or the volume (R164) changes no working copy, nor the mode. The
fifth live register is left to `DataWriteArmsInterruptMode`: an AUDnDAT write loads the working period (R165). -/
def Obligations.PointerLengthPeriodAndVolumeWritesChangeNoWorkingCopy : Prop :=
  ∀ (n m : ChannelId) (d : Word) (s t : State) (i : Instr),
    i ∈ [Instr.wrAudLch n d, Instr.wrAudLcl n d, Instr.wrAudLen n d, Instr.wrAudPer n d, Instr.wrAudVol n d] →
    exec i s = .next t →
    (t.chan m).workingPeriod = (s.chan m).workingPeriod ∧ (t.chan m).workingLength = (s.chan m).workingLength ∧
    (t.chan m).workingPointer = (s.chan m).workingPointer ∧ (t.chan m).mode = (s.chan m).mode

/-- WR ADKCON (R167, R168): the set/clear write, then the roles of every channel from the bits now stored. -/
def Obligations.AdkconWriteSetsTheModulationRoles : Prop :=
  ∀ (d : Word) (s : State), encode .default (.wrAdkcon d) = [0x109E#16, d] ∧
    ∃ t, exec (.wrAdkcon d) s = .next t ∧
      (∀ b < 15, t.adkcon.getLsbD b = if d.getLsbD b = true then d.getLsbD 15 else s.adkcon.getLsbD b) ∧
      t.adkcon.getLsbD 15 = s.adkcon.getLsbD 15 ∧
      (∀ n : ChannelId, t.chan n =
        { s.chan n with
          modulateToggle := decide (n.val < 3) && (t.adkcon.getLsbD n.val && t.adkcon.getLsbD (n.val + 4))
          modulatingVp := decide (n.val < 3) && (t.adkcon.getLsbD (n.val + 4) && !t.adkcon.getLsbD n.val) }) ∧
      (∀ n : ChannelId, t.modActive n = true ↔
        n.val < 3 ∧ (t.adkcon.getLsbD n.val = true ∨ t.adkcon.getLsbD (n.val + 4) = true)) ∧
      t = { s with adkcon := t.adkcon, chans := t.chans }

/-! ### Audio state machine -/

/-- AUDPOLL (R192, R193, R199): the four channels are polled in ascending order, each by its mode, and an Idle one does
nothing; with all channels Idle nothing changes. -/
def Obligations.AudpollPollsTheChannelsInOrder : Prop :=
  (∀ s : State, encode s.cfg.regAddr .audpoll = [0x6000#16] ∧ exec .audpoll s = .next (channelPoll 3 (channelPoll 2 (channelPoll 1 (channelPoll 0 s))))) ∧
  (∀ (n : ChannelId) (s : State),
    ((s.chan n).mode = .idle → channelPoll n s = s) ∧ ((s.chan n).mode = .dma → channelPoll n s = dmaPoll n s) ∧
    ((s.chan n).mode = .interrupt → channelPoll n s = intPoll n s)) ∧
  ∀ s : State, (∀ n : ChannelId, (s.chan n).mode = .idle) → exec .audpoll s = .next s

/-- The DMA-mode poll (R194, R195, R197, R198, R111), whole: countdown; on zero or below one fetch at the working pointer,
with the pointer and length advanced, the period added back and the sample held or, under modulation, routed to the next
channel and zeroed; the block restart when the length reaches 0; then the enable check. Nothing else changes. -/
def Obligations.DmaPollFollowsTheAlgorithm : Prop :=
  ∀ (n : ChannelId) (s t : State), t = dmaPoll n s →
    let c := s.chan n
    let wp := c.workingPeriod - (s.cfg.rate : Int)
    let fetches := wp ≤ 0
    let W := s.chipWord c.workingPointer
    let modulates := fetches ∧ n.val < 3 ∧
      (s.adkcon.getLsbD n.val = true ∨ s.adkcon.getLsbD (n.val + 4) = true)
    let restarts := fetches ∧ c.workingLength = 1
    let stops := ¬ (s.dma.dmacon.getLsbD (s.cfg.dmaBit n) = true ∧ s.dma.dmacon.getLsbD s.cfg.dmaenBit = true)
    t.chan n =
      { c with
        workingPeriod := if fetches then wp + (c.period.toNat : Int) else wp
        workingPointer :=
          if restarts then c.pointer else if fetches then (c.workingPointer + 2) &&& s.cfg.ptrMask else c.workingPointer
        workingLength := if restarts then c.length else if fetches then c.workingLength - 1 else c.workingLength
        data := if modulates then 0 else if fetches then W else c.data
        modulatingVp := if modulates ∧ c.modulateToggle = true then !c.modulatingVp else c.modulatingVp
        mode := if stops then .idle else c.mode } ∧
    (∀ m : ChannelId, m.val = n.val + 1 → t.chan m =
      if modulates then
        if c.modulatingVp = true then { s.chan m with workingPeriod := (W.toNat : Int) }
        else { s.chan m with volume := mapVolume W }
      else s.chan m) ∧
    (∀ m : ChannelId, m ≠ n → m.val ≠ n.val + 1 → t.chan m = s.chan m) ∧
    (∀ b, t.ints.intreq.getLsbD b = true ↔
      s.ints.intreq.getLsbD b = true ∨ ((restarts ∨ stops) ∧ (s.cfg.intBit n).val = b)) ∧
    t.log = s.log ++ (if fetches then [Event.memRead c.workingPointer W] else []) ++
      (if restarts then [.intAssert (s.cfg.intBit n)] else []) ++
      (if stops then [.intAssert (s.cfg.intBit n)] else []) ∧
    (∀ o, t.dma.waiting.get o = (s.dma.waiting.get o || decide (fetches ∧ s.cfg.audioReq = true ∧ o = .agnus))) ∧
    t = { s with
      chans := t.chans
      ints := { s.ints with intreq := t.ints.intreq }
      dma := { s.dma with waiting := t.dma.waiting }
      log := t.log
      memReads := s.memReads + if fetches then 1 else 0 }

/-- The Interrupt-mode poll (R200), whole: countdown; on expiry, Idle without a raise if the channel's request is still
pending, else a raise with the period added back. DMACON is not looked at and nothing is fetched. -/
def Obligations.InterruptPollFollowsTheAlgorithm : Prop :=
  ∀ (n : ChannelId) (s : State),
    let c := s.chan n
    let wp := c.workingPeriod - (s.cfg.rate : Int)
    let bit := (s.cfg.intBit n)
    (0 < wp → intPoll n s = s.setChan n { c with workingPeriod := wp }) ∧
    (wp ≤ 0 → s.ints.intreq.getLsbD bit = true →
      intPoll n s = s.setChan n { c with workingPeriod := wp, mode := .idle }) ∧
    (wp ≤ 0 → s.ints.intreq.getLsbD bit = false →
      ∃ v : Word, (∀ b, v.getLsbD b = (decide (b = bit.val) || s.ints.intreq.getLsbD b)) ∧
        intPoll n s =
          { s.setChan n { c with workingPeriod := wp + (c.period.toNat : Int) } with
            ints := { s.ints with intreq := v }
            log := s.log ++ [.intAssert bit] })

/-- The transition table of R191: a command changes a channel's mode only in one of its five rows, and raises the
channel's interrupt where the row says so and nowhere else (for the missed acknowledge: where no other channel is set to
the same interrupt bit, since such a channel could raise that bit in the same AUDPOLL). -/
def Obligations.ModeChangesAreTheTransitionTable : Prop :=
  ∀ (i : Instr) (s t : State) (n : ChannelId), exec i s = .next t → (t.chan n).mode ≠ (s.chan n).mode →
    (∃ d, i = .wrDmacon d ∧ armRise s.cfg s.dma.dmacon t.dma.dmacon (s.cfg.dmaBit n) = true ∧
      (t.chan n).mode = .dma ∧ Event.intAssert (s.cfg.intBit n) ∈ t.log.drop s.log.length) ∨
    (∃ d, i = Instr.wrAudDat n d ∧ (t.chan n).mode = .interrupt ∧ t.log = s.log ∧ t.ints = s.ints) ∨
    (i = .audpoll ∧ (s.chan n).mode = .dma ∧ (t.chan n).mode = .idle ∧ s.isEnabled (s.cfg.dmaBit n) = false ∧
      Event.intAssert (s.cfg.intBit n) ∈ t.log.drop s.log.length) ∨
    (i = .audpoll ∧ (s.chan n).mode = .interrupt ∧ (t.chan n).mode = .idle ∧
      t.ints.intreq.getLsbD (s.cfg.intBit n) = true ∧
      ((∀ m : ChannelId, m ≠ n → s.cfg.intBit m ≠ s.cfg.intBit n) →
        Event.intAssert (s.cfg.intBit n) ∉ t.log.drop s.log.length)) ∨
    (i = .reset ∧ (t.chan n).mode = .idle ∧ t.log = s.log ∧ t.ints.intreq = 0)

/-- Every address AUDPOLL fetches from is even (R62), from every state with the invariants of R41; and no other command
fetches (R60). -/
def Obligations.FetchAddressesAreEven : Prop :=
  ∀ (i : Instr) (s t : State), s.Inv → exec i s = .next t →
    (∀ a ∈ fetchAddresses (t.log.drop s.log.length), a.getLsbD 0 = false) ∧
    (i ≠ .audpoll → fetchAddresses (t.log.drop s.log.length) = [])

/-- One poll of a channel makes one MemRead, at the channel's working pointer, or none, and none outside DMA mode (R196 (a));
so one AUDPOLL makes at most one for each channel in DMA mode, and the log records every one. -/
def Obligations.OneFetchPerChannelPerPoll : Prop :=
  (∀ (n : ChannelId) (s : State),
    let fetched := fetchAddresses ((channelPoll n s).log.drop s.log.length)
    (fetched = [] ∨ fetched = [(s.chan n).workingPointer]) ∧
    ((s.chan n).mode ≠ .dma → fetched = []) ∧
    (channelPoll n s).memReads = s.memReads + fetched.length ∧
    (channelPoll n s).log = s.log ++ (channelPoll n s).log.drop s.log.length) ∧
  ∀ s t : State, exec .audpoll s = .next t →
    (fetchAddresses (t.log.drop s.log.length)).length ≤
      (([0, 1, 2, 3] : List ChannelId).filter fun n => decide ((s.chan n).mode = .dma)).length ∧
    t.memReads = s.memReads + (fetchAddresses (t.log.drop s.log.length)).length ∧
    t.log = s.log ++ t.log.drop s.log.length

/-- A modulation of the next channel lands before that channel's own poll in the same AUDPOLL (R202). `u` is the state in
which channel `n` is polled. A period modulation writes the word as the working period of channel `m`: kept by an Idle
channel, counted down by one `P_RATE` by any other, the period being added back where that expires it (but for a missed
acknowledge). A volume modulation stands after the AUDPOLL. -/
def Obligations.ModulationLandsBeforeTheNeighboursPoll : Prop :=
  ∀ (s : State) (n m : ChannelId), m.val = n.val + 1 →
    let u := s.beforePoll n
    let W := u.chipWord (u.chan n).workingPointer
    let wp := (W.toNat : Int) - (s.cfg.rate : Int)
    (u.chan n).mode = .dma → (u.chan n).workingPeriod ≤ s.cfg.rate →
    (s.adkcon.getLsbD n.val = true ∨ s.adkcon.getLsbD (n.val + 4) = true) →
    ∃ t, exec .audpoll s = .next t ∧
      ((u.chan n).modulatingVp = true →
        ((s.chan m).mode = .idle → (t.chan m).workingPeriod = (W.toNat : Int)) ∧
        ((s.chan m).mode = .dma → (t.chan m).workingPeriod = if 0 < wp then wp else wp + ((s.chan m).period.toNat : Int)) ∧
        ((s.chan m).mode = .interrupt → (t.chan m).workingPeriod =
          if 0 < wp ∨ (channelPoll n u).ints.intreq.getLsbD (s.cfg.intBit m) = true then wp
          else wp + ((s.chan m).period.toNat : Int))) ∧
      ((u.chan n).modulatingVp = false → (t.chan m).volume = mapVolume W)

/-! ### Chip memory -/

/-- Chip memory (R71, R61, with the big-endian order the spec gives as general knowledge): a word that another master
wrote as two bytes is what a fetch there reads, and every other address reads as before. -/
def Obligations.FetchReadsWhatMastersWrote : Prop :=
  ∀ (s : State) (a : Addr) (hi lo : Byte) (rest : List Input), a.getLsbD 0 = false →
    s.inputs = .chipWrite a [hi, lo] :: rest →
    ∃ m : Memory, step s = .next { s with inputs := rest, mem := m } ∧
      ({ s with inputs := rest, mem := m } : State).chipWord a = hi ++ lo ∧
      ∀ k : Nat, k ≠ a.toNat → k ≠ a.toNat + 1 → m.get? k = s.mem.get? k

/-! ### Reset -/

/-- RESET (R280): every element of the block is in its reset state, whatever it was; no channel is armed, nothing is logged
or fetched, and the levels are 0. The values are the spec's decisions D7 and D25. -/
def Obligations.ResetCommandResetsEveryElement : Prop :=
  ∀ s : State, encode s.cfg.regAddr .reset = [0x9000#16] ∧ ∃ t, exec .reset s = .next t ∧
    t.dma.dmacon = 0 ∧ t.ints.intena = 0 ∧ t.ints.intreq = 0 ∧ t.adkcon = 0 ∧ t.ints.gayleLevel = 0 ∧
    t.ints.latQ = [] ∧ t.ints.lagLevel = 0 ∧ (∀ src, t.dma.waiting.get src = false) ∧ t.dma.lastGrant = none ∧
    (∀ n : ChannelId, t.chan n =
      { period := 0, volume := 0, length := 0, data := 0, pointer := 0, workingPeriod := 0, workingLength := 0,
        workingPointer := 0, mode := .idle, modulatingVp := false, modulateToggle := false }) ∧
    t.paula = 0 ∧ t.visiblePaula = 0 ∧ t.ipl = 0 ∧ t.log = s.log ∧ t.memReads = s.memReads

/-- The machine right after reset (R280, R281, R234): every register 0, every channel Idle, nobody waits, both budgets 0.
That nothing has been issued, memory lists nothing and the log is empty are the model's choices (log entries 1, 6, 7). -/
def Obligations.MachineAfterReset : Prop :=
  exec .reset State.reset = .next State.reset ∧ State.reset.ipl = 0 ∧ State.reset.cpuWait = false ∧
  State.reset.host.cpuCycles = 0 ∧ State.reset.host.totalWaits = 0 ∧ State.reset.log = [] ∧ State.reset.mem = [] ∧
  State.reset.inputs = []

/-! ### The host -/

/-- One host iteration (R230, R231): a tick becomes its commands in the fixed order, AUDPOLL first and only with the
end-of-line flag, LATADV last of the device phase, then the CPU phase, COMMIT and the bookkeeping; taking it changes
nothing else. -/
def Obligations.TickIssuesItsCommandsInOrder : Prop :=
  ∀ (s : State) (t : Tick) (rest : List Input), s.inputs = .tick t :: rest →
    ∃ devices : List Input,
      step s = .next { s with inputs :=
        (if t.eol = true then [.word 0x6000#16] else []) ++ devices ++
          [.word 0x7000#16, .cpuPhase t.cpu, .word 0x8000#16, .bookkeep] ++ rest } ∧
      devices = t.devices.flatMap fun
        | .command i => (encode s.cfg.regAddr i).map Input.word
        | .chipWrite a bytes => [.chipWrite a bytes]

/-- The CPU phase (R235, R236): the CPU runs two steps only when both budgets are 0; otherwise it requests a slot while it
owes one; B3 follows in every tick. -/
def Obligations.CpuRunsOnlyWhenBothBudgetsAreZero : Prop :=
  ∀ (s : State) (run : CpuRun) (rest : List Input), s.inputs = .cpuPhase run :: rest →
    (s.host.cpuCycles = 0 → s.host.totalWaits = 0 →
      step s = .next { s with inputs := run.ops.flatMap (masterInputs s.cfg.regAddr) ++
        [.cpuReport run.c1 run.c2 run.slots, .payCycle] ++ rest }) ∧
    (0 < s.host.totalWaits → step s = .next { s with inputs := [.word 0x3003#16, .payCycle] ++ rest }) ∧
    (0 < s.host.cpuCycles → s.host.totalWaits = 0 → step s = .next { s with inputs := [.payCycle] ++ rest })

/-- The report of the two CPU steps (R235): half the summed cost, rounded down, and the slots consumed (D31); a negative cost
is a fault that records it (R238, R250). Which cost is recorded where both are negative is the model's choice (log entry
25). -/
def Obligations.CpuReportSetsTheBudgets : Prop :=
  ∀ (s : State) (c1 c2 : Int) (slots : BusSlots) (rest : List Input), s.inputs = .cpuReport c1 c2 slots :: rest →
    (∀ a b : Nat, c1 = a → c2 = b →
      step s = .next { s with
        inputs := rest
        host := ⟨(a + b) / 2, slots.chipReads + slots.chipWrites + slots.trapdoorReads + slots.trapdoorWrites +
          slots.registerReads + slots.registerWrites⟩ }) ∧
    (c1 < 0 → step s = .fault (.hostInvariant c1)) ∧
    (0 ≤ c1 → c2 < 0 → step s = .fault (.hostInvariant c2))

/-- B3 and D of R236: the cycle budget falls by one in every tick, the slot budget only when the CPU is not left waiting. -/
def Obligations.BudgetsArePaidAsTheSpecSays : Prop :=
  ∀ (s : State) (rest : List Input),
    (s.inputs = .payCycle :: rest →
      step s = .next { s with inputs := rest, host := ⟨s.host.cpuCycles - 1, s.host.totalWaits⟩ }) ∧
    (s.inputs = .bookkeep :: rest →
      step s = .next { s with
        inputs := rest
        host := ⟨s.host.cpuCycles,
          if s.dma.waiting.get .cpu = true then s.host.totalWaits else s.host.totalWaits - 1⟩ })

/-- A whole tick in which the CPU owes a slot and no device acts (R236, R237, vectors H2 and H3): after it the cycle budget
has fallen by one, and the slot budget by one if and only if no ready source stood before the CPU. -/
def Obligations.QuietTickPaysTheSlotTheCpuWins : Prop :=
  ∀ (s : State) (run : CpuRun), 0 < s.host.totalWaits → s.inputs = [.tick ⟨false, [], run⟩] →
    ∃ t, Sys2Proof.core.run 7 s = .next t ∧ t.inputs = [] ∧ t.host.cpuCycles = s.host.cpuCycles - 1 ∧
      ((∀ o, o ≠ .cpu → ¬ s.ready o) →
        t.host.totalWaits = s.host.totalWaits - 1 ∧ t.dma.lastGrant = some .cpu ∧ t.cpuWait = false) ∧
      ((∃ o, o ≠ .cpu ∧ s.ready o) → t.host.totalWaits = s.host.totalWaits ∧ t.cpuWait = true)

/-- Under a register map the encoding allows, ticks that the host protocol allows, with no AINT of bit 15 among their commands, run without a fault or a refusal,
however many there are and from any state. -/
def Obligations.AllowedTicksRunSafely : Prop :=
  ∀ (ticks : List Tick) (s : State), s.cfg.regAddr.wf = true →
    (∀ t ∈ ticks, t.wf = true ∧ ∀ a, MasterOp.command (.aint 15 a) ∉ t.devices) →
    s.inputs = ticks.map Input.tick → ∀ k, SafeRun k s

/-! ### Faults, refusals, pseudo-instructions -/

/-- A fault is never cleared, whatever has been issued, and the faulted run is never final (R250); the spec's codes. -/
def Obligations.FaultedRunsStayFaulted : Prop :=
  (∀ (r : Run) (f : Fault), r.fault = some f → ∀ k, (Run.iterate k r) = r ∧ r.isFinal = false) ∧
  (∀ (r : Run) (f : Fault), r.fault = none → step r.state = .fault f →
    r.advance = { r with fault := some f }) ∧
  ∀ (c : Word) (x : Int) (v : Nat),
    (Fault.badInterruptBit c).code = 1 ∧ (Fault.hostInvariant x).code = 2 ∧ (Fault.unknownSource v).code = 3

/-- A refusal takes the refused input, leaves every other element of the state as it was and sets a mark that is kept for
the rest of the run, the first one where there are several (R251; the marks are log entry 16). What is taken is a command's
words, its operand among them where the class is 1 and a word follows (R90), or one other input. The debug operations are
refused (R112); the spec's codes. -/
def Obligations.RefusalsLeaveTheStateAndAMark : Prop :=
  (∀ (r : Run) (q : Refusal), r.fault = none → step r.state = .refused q →
    ∃ taken rest : List Input, r.state.inputs = taken ++ rest ∧
      r.advance = { r with state := { r.state with inputs := rest }, refusal := some (r.refusal.getD q) } ∧
      ((∃ c d, taken = [.word c, .word d] ∧ c.toNat / 4096 = 1) ∨
       (∃ c, taken = [.word c] ∧ (c.toNat / 4096 = 1 → ∀ d rest', rest ≠ .word d :: rest')) ∨
       ∃ src, taken = [.debugDma src])) ∧
  (∀ (r : Run) (q : Refusal), r.refusal = some q → ∀ k, (Run.iterate k r).refusal = some q) ∧
  (∀ (s : State) (src : Option Source) (rest : List Input), s.inputs = .debugDma src :: rest →
    step s = .refused .debugOperation) ∧
  Refusal.code? (.rejected .reservedCommand) = some 16 ∧ Refusal.code? (.rejected .misalignedRegister) = some 17 ∧
  Refusal.code? (.rejected .foreignRegister) = some 18 ∧ Refusal.code? (.rejected .wrongDirection) = some 19 ∧
  Refusal.code? .debugOperation = some 20

/-- The pseudo-instructions do what their names say (R92). ACK clears one pending bit, and with bit 15, which the model
admits by its own choice (log entry 24), changes nothing. SET and CLR set and clear the named bits of INTENA, INTREQ,
ADKCON (with the roles that follow from it) and, under the stored mask, DMACON (SET arms what rises, CLR nothing). WRLC
writes the whole pointer, even and under the stored mask. TICK is AUDPOLL where `eol`, then LATADV, then COMMIT: the
commands of a tick in which no other master acts. -/
def Obligations.PseudoInstructionsDoWhatTheyName : Prop :=
  (∀ (b : Fin 16) (s : State), ∃ (i : Instr) (v : Word), (Pseudo.ack b).expand = [i] ∧
    exec i s = .next { s with ints := { s.ints with intreq := v } } ∧
    (∀ j : Nat, v.getLsbD j = (s.ints.intreq.getLsbD j && (decide (j ≠ b.val) || decide (b = 15))))) ∧
  (∀ (m : Word) (s : State), ∃ (i j : Instr) (v w : Word),
    (Pseudo.set .intena m).expand = [i] ∧ (Pseudo.clr .intena m).expand = [j] ∧
    exec i s = .next { s with ints := { s.ints with intena := v } } ∧
    exec j s = .next { s with ints := { s.ints with intena := w } } ∧
    ∀ b < 15, v.getLsbD b = (s.ints.intena.getLsbD b || m.getLsbD b) ∧
      w.getLsbD b = (s.ints.intena.getLsbD b && !m.getLsbD b)) ∧
  (∀ (m : Word) (s : State), ∃ (i j : Instr) (v w : Word),
    (Pseudo.set .intreq m).expand = [i] ∧ (Pseudo.clr .intreq m).expand = [j] ∧
    exec i s = .next { s with ints := { s.ints with intreq := v } } ∧
    exec j s = .next { s with ints := { s.ints with intreq := w } } ∧
    ∀ b < 15, v.getLsbD b = (s.ints.intreq.getLsbD b || m.getLsbD b) ∧
      w.getLsbD b = (s.ints.intreq.getLsbD b && !m.getLsbD b)) ∧
  (∀ (m : Word) (s : State), ∃ (i j : Instr) (t u : State),
    (Pseudo.set .adkcon m).expand = [i] ∧ (Pseudo.clr .adkcon m).expand = [j] ∧
    exec i s = .next t ∧ t = { s with adkcon := t.adkcon, chans := t.chans } ∧
    exec j s = .next u ∧ u = { s with adkcon := u.adkcon, chans := u.chans } ∧
    ∀ b < 15, t.adkcon.getLsbD b = (s.adkcon.getLsbD b || m.getLsbD b) ∧
      u.adkcon.getLsbD b = (s.adkcon.getLsbD b && !m.getLsbD b)) ∧
  (∀ (m : Word) (s : State), ∃ (i j : Instr) (t : State) (w : Word),
    (Pseudo.set .dmacon m).expand = [i] ∧ (Pseudo.clr .dmacon m).expand = [j] ∧
    exec i s = .next t ∧ exec j s = .next { s with dma := { s.dma with dmacon := w } } ∧
    ∀ b < 15, t.dma.dmacon.getLsbD b = (s.dma.dmacon.getLsbD b || (m.getLsbD b && s.cfg.dmaconWmask.getLsbD b)) ∧
      w.getLsbD b = (s.dma.dmacon.getLsbD b && !(m.getLsbD b && s.cfg.dmaconWmask.getLsbD b))) ∧
  (∀ (n : ChannelId) (a : Addr) (s : State), ∃ (i j : Instr) (t u : State), (Pseudo.wrlc n a).expand = [i, j] ∧
    exec i s = .next t ∧ exec j t = .next u ∧
    u = s.setChan n { s.chan n with pointer := a &&& 0xFFFFFFFE#32 &&& s.cfg.ptrMask }) ∧
  ∀ (eol : Bool) (run : CpuRun) (s : State),
    (Pseudo.tick eol).expand.flatMap (encode s.cfg.regAddr) =
      (if eol = true then [0x6000#16, 0x7000#16, 0x8000#16] else [0x7000#16, 0x8000#16]) ∧
    (Pseudo.tick eol).expand.flatMap (commandInputs s.cfg.regAddr) =
      (tickInputs s.cfg.regAddr ⟨eol, [], run⟩).filter (fun x => decide (x ≠ .cpuPhase run ∧ x ≠ .bookkeep)) ∧
    ∃ t u v, (if eol = true then exec .audpoll s else .next s) = .next t ∧ exec .latadv t = .next u ∧
      exec .commit u = .next v ∧ (eol = false → v.chans = s.chans ∧ v.ints.intreq = s.ints.intreq)

/-- The whole offset selects the register (R81, R82), with every register at the place P_REG_ADDR gives it: a read or write
word runs the command of the register at its offset, under every map the encoding allows. -/
def Obligations.TheWholeOffsetSelectsTheRegister : Prop :=
  ∀ (s : State) (c : Word) (rest : List Input), s.cfg.regAddr.wf = true → c.toNat / 512 % 8 = 0 →
    let m := s.cfg.regAddr
    let off : Offset := c.extractLsb' 0 9
    (∀ i, c.toNat / 4096 = 2 → s.inputs = .word c :: rest →
      (off, i) ∈ [(m.dmaconr, Instr.rdDmaconr), (m.adkconr, .rdAdkconr), (m.intenar, .rdIntenar),
        (m.intreqr, .rdIntreqr)] →
      step s = exec i { s with inputs := rest }) ∧
    ∀ d i, c.toNat / 4096 = 1 → s.inputs = .word c :: .word d :: rest →
      ((off, i) ∈ [(m.dmacon, Instr.wrDmacon d), (m.intena, .wrIntena d), (m.intreq, .wrIntreq d),
          (m.adkcon, .wrAdkcon d)] ∨
        ∃ n : ChannelId, (off, i) ∈ [(m.audio[n].lch, Instr.wrAudLch n d), (m.audio[n].lcl, Instr.wrAudLcl n d),
          (m.audio[n].len, Instr.wrAudLen n d), (m.audio[n].per, Instr.wrAudPer n d),
          (m.audio[n].vol, Instr.wrAudVol n d), (m.audio[n].dat, Instr.wrAudDat n d)]) →
      step s = exec i { s with inputs := rest }

/-- Which commands can change each register of a channel (R32, R33, R34, R35): the live registers by their own writes of
that channel, the volume by a modulating AUDPOLL too, the sample by a DMA-mode AUDPOLL too; the working copies by an arm, an
AUDnDAT write (the working period) or an AUDPOLL; the roles by an ADKCON write, and `modulatingVp` by an alternating
AUDPOLL; and everything by RESET. `modulated vp` says that the channel before this one is in DMA mode and modulates it, by
volume where `vp` is false and by period where it is true. -/
def Obligations.ChannelRegistersChangeOnlyByTheirOwnCommands : Prop :=
  ∀ (i : Instr) (s t : State) (n : ChannelId), exec i s = .next t →
    let c := s.chan n
    let c' := t.chan n
    let armed := ∃ d, i = .wrDmacon d ∧ armRise s.cfg s.dma.dmacon t.dma.dmacon (s.cfg.dmaBit n) = true
    let modulated : Bool → Prop := fun vp => ∃ m : ChannelId, n.val = m.val + 1 ∧ (s.chan m).mode = .dma ∧
      s.modActive m = true ∧ (s.chan m).modulatingVp = vp
    (c'.period ≠ c.period → i = .reset ∨ ∃ d, i = Instr.wrAudPer n d) ∧
    (c'.length ≠ c.length → i = .reset ∨ ∃ d, i = Instr.wrAudLen n d) ∧
    (c'.pointer ≠ c.pointer → i = .reset ∨ (∃ d, i = Instr.wrAudLch n d) ∨ ∃ d, i = Instr.wrAudLcl n d) ∧
    (c'.volume ≠ c.volume → i = .reset ∨ (∃ d, i = Instr.wrAudVol n d) ∨ (i = .audpoll ∧ modulated false)) ∧
    (c'.data ≠ c.data → i = .reset ∨ (∃ d, i = Instr.wrAudDat n d) ∨ (i = .audpoll ∧ c.mode = .dma)) ∧
    (c'.workingPeriod ≠ c.workingPeriod → i = .reset ∨ armed ∨ (∃ d, i = Instr.wrAudDat n d) ∨
      (i = .audpoll ∧ (c.mode ≠ .idle ∨ modulated true))) ∧
    (c'.workingLength ≠ c.workingLength → i = .reset ∨ armed ∨ (i = .audpoll ∧ c.mode = .dma)) ∧
    (c'.workingPointer ≠ c.workingPointer → i = .reset ∨ armed ∨ (i = .audpoll ∧ c.mode = .dma)) ∧
    (c'.mode ≠ c.mode → i = .reset ∨ armed ∨ (∃ d, i = Instr.wrAudDat n d) ∨ (i = .audpoll ∧ c.mode ≠ .idle)) ∧
    (c'.modulatingVp ≠ c.modulatingVp → i = .reset ∨ (∃ d, i = .wrAdkcon d) ∨
      (i = .audpoll ∧ c.mode = .dma ∧ c.modulateToggle = true ∧ s.modActive n = true)) ∧
    (c'.modulateToggle ≠ c.modulateToggle → i = .reset ∨ ∃ d, i = .wrAdkcon d)
end

