-- ==== Sys2Proof/Laws/Bits.lean ====
section
/-! SUPPORT. One lemma for each operand form: which bit of the result is what (Operands.lean), and the scan of the
priority table (Flags.lean). -/

namespace Sys2Proof.Machine

/-- SetClr bit by bit (R11). -/
theorem setClr_bit (old v mask : Word) (b : Nat) :
    (setClr old v mask).getLsbD b =
      if mask.getLsbD b then (if v.getLsbD 15 then old.getLsbD b || v.getLsbD b else old.getLsbD b && !v.getLsbD b)
      else old.getLsbD b := by
  have hge : ¬ b < 16 → old.getLsbD b = false ∧ mask.getLsbD b = false := fun h =>
    ⟨BitVec.getLsbD_of_ge old b (by omega), BitVec.getLsbD_of_ge mask b (by omega)⟩
  unfold setClr
  cases v.getLsbD 15
  · simp only [Bool.false_eq_true, if_false, BitVec.getLsbD_and, BitVec.getLsbD_not]
    by_cases hb : b < 16
    · cases mask.getLsbD b <;> cases old.getLsbD b <;> cases v.getLsbD b <;> simp [hb]
    · simp [hge hb]
  · simp only [if_true, BitVec.getLsbD_and, BitVec.getLsbD_or]
    cases mask.getLsbD b <;> cases old.getLsbD b <;> cases v.getLsbD b <;> rfl

/-- A set/clear write done twice is done once (R65). -/
theorem setClr_idem (old v mask : Word) : setClr (setClr old v mask) v mask = setClr old v mask := by
  apply BitVec.eq_of_getLsbD_eq
  intro b _
  rw [setClr_bit, setClr_bit]
  cases mask.getLsbD b <;> cases v.getLsbD 15 <;> cases old.getLsbD b <;> cases v.getLsbD b <;> rfl

/-- A set/clear write that selects no bit of the mask changes nothing. -/
theorem setClr_noop (old v mask : Word) (h : v &&& mask = 0) : setClr old v mask = old := by
  apply BitVec.eq_of_getLsbD_eq
  intro b _
  have hx := congrArg (fun x => x.getLsbD b) h
  simp only [BitVec.getLsbD_and] at hx
  rw [setClr_bit]
  revert hx
  cases mask.getLsbD b <;> cases v.getLsbD 15 <;> cases v.getLsbD b <;> simp

/-- No bit outside the mask is set by a set/clear write. -/
theorem setClr_outside {old v mask : Word} (h : old &&& ~~~mask = 0) : setClr old v mask &&& ~~~mask = 0 := by
  apply BitVec.eq_of_getLsbD_eq
  intro b hb
  have hx := congrArg (fun x => x.getLsbD b) h
  simp only [BitVec.getLsbD_and, BitVec.getLsbD_not, hb, decide_true, Bool.true_and] at hx
  simp only [BitVec.getLsbD_and, BitVec.getLsbD_not, hb, decide_true, Bool.true_and]
  rw [setClr_bit]
  revert hx
  cases mask.getLsbD b <;> simp

theorem regMask_bit (b : Nat) : regMask.getLsbD b = decide (b < 15) := by
  by_cases h : b < 16
  · revert h b; decide
  · rw [BitVec.getLsbD_of_ge _ _ (by omega)]
    simp; omega

/-- One bit written, the others kept (R135). -/
theorem writeBit_bit (v : Word) (i : Nat) (x : Bool) (b : Nat) (hi : i < 16) :
    (writeBit v i x).getLsbD b = if b = i then x else v.getLsbD b := by
  unfold writeBit
  have htwo : (BitVec.twoPow 16 i).getLsbD b = decide (b = i) := by
    rw [BitVec.getLsbD_twoPow]
    simp only [hi, decide_true, Bool.true_and, eq_comm]
  cases x
  · simp only [Bool.false_eq_true, if_false, BitVec.getLsbD_and, BitVec.getLsbD_not, htwo]
    by_cases hb : b < 16
    · by_cases h : b = i <;> simp only [hb, h, decide_true, decide_false, Bool.not_true, Bool.not_false, Bool.and_true,
        Bool.and_false, if_true, if_false]
    · have hne : b ≠ i := by omega
      simp only [BitVec.getLsbD_of_ge v b (by omega), Bool.false_and, if_neg hne]
  · simp only [if_true, BitVec.getLsbD_or, htwo]
    by_cases h : b = i <;> simp [h]

/-- `MapVolume` as a number (R166). -/
theorem mapVolume_toNat (v : Word) : (mapVolume v).toNat = min (v.toNat % 128) 64 := by
  have key : ∀ m : Fin 128, (if Nat.testBit m.val 6 then 64 else m.val % 128) = min m.val 64 := by decide
  have hm : (v &&& 0x7F#16).toNat = v.toNat % 128 := by
    rw [BitVec.toNat_and]
    exact Nat.and_two_pow_sub_one_eq_mod v.toNat 7
  have k := key ⟨v.toNat % 128, Nat.mod_lt _ (by decide)⟩
  simp only at k
  unfold mapVolume
  simp only
  rw [BitVec.getLsbD, hm]
  split
  · rename_i h
    rw [if_pos h] at k
    simpa using k
  · rename_i h
    rw [if_neg h] at k
    rw [BitVec.toNat_setWidth, hm]
    simpa using k

theorem mapVolume_le (v : Word) : (mapVolume v).toNat ≤ 64 := by
  rw [mapVolume_toNat]
  exact Nat.min_le_right _ _

theorem pointerHigh_bit (mask p : Addr) (d : Word) (b : Nat) (hb : b < 32) :
    (pointerHigh mask p d).getLsbD b = ((if b < 16 then p.getLsbD b else d.getLsbD (b - 16)) && mask.getLsbD b) := by
  have hk : ∀ b : Fin 32, (0x0000FFFF#32).getLsbD b.val = decide (b.val < 16) := by decide
  have h1 := hk ⟨b, hb⟩
  simp only at h1
  unfold pointerHigh
  rw [BitVec.getLsbD_and, BitVec.getLsbD_or, BitVec.getLsbD_and, h1, BitVec.getLsbD_shiftLeft, BitVec.getLsbD_setWidth]
  by_cases h : b < 16
  · simp [h]
  · have h2 : b - 16 < 32 := by omega
    simp [h, hb, h2]

theorem pointerLow_bit (mask p : Addr) (d : Word) (b : Nat) (hb : b < 32) :
    (pointerLow mask p d).getLsbD b =
      ((if b < 16 then (d.getLsbD b && decide (b ≠ 0)) else p.getLsbD b) && mask.getLsbD b) := by
  have hk : ∀ b : Fin 32, (0xFFFF0000#32).getLsbD b.val = decide (16 ≤ b.val) := by decide
  have hl : ∀ b : Fin 16, (0xFFFE#16).getLsbD b.val = decide (b.val ≠ 0) := by decide
  have h1 := hk ⟨b, hb⟩
  simp only at h1
  unfold pointerLow
  by_cases h : b < 16
  · have h2 := hl ⟨b, h⟩
    simp only at h2
    have h3 : ¬ 16 ≤ b := by omega
    rw [BitVec.getLsbD_and, BitVec.getLsbD_or, BitVec.getLsbD_and, BitVec.getLsbD_setWidth, BitVec.getLsbD_and, h1, h2]
    simp [h, hb, h3]
  · have h3 : 16 ≤ b := by omega
    have h4 : d.getLsbD b = false := BitVec.getLsbD_of_ge d b h3
    rw [BitVec.getLsbD_and, BitVec.getLsbD_or, BitVec.getLsbD_and, BitVec.getLsbD_setWidth, BitVec.getLsbD_and, h1, h4]
    simp [h, h3]

theorem bit0_add_two (p : Addr) : (p + 2#32).getLsbD 0 = p.getLsbD 0 := by
  rw [BitVec.getLsbD, BitVec.getLsbD, Nat.testBit_zero, Nat.testBit_zero, BitVec.toNat_add]
  have h : (2#32).toNat = 2 := rfl
  rw [h]
  congr 1
  simp only [eq_iff_iff]
  omega

theorem pointerNext_bit0 (mask p : Addr) (h : p.getLsbD 0 = false) : (pointerNext mask p).getLsbD 0 = false := by
  unfold pointerNext
  rw [BitVec.getLsbD_and, bit0_add_two, h]
  rfl

/-- The scan finds the highest set bit (R133). -/
theorem scanLevel_highest (prio : Vector Level 16) (m : Word) (i : Nat) (hi : i < 16) (hset : m.getLsbD i = true)
    (k : Nat) (hk : i < k) (hclear : ∀ j, i < j → j < k → m.getLsbD j = false) :
    scanLevel prio m k = prio[i] := by
  induction k with
  | zero => omega
  | succ k ih =>
    unfold scanLevel
    by_cases h : i = k
    · subst h
      rw [if_pos hset]
      simp [hi]
    · rw [if_neg (by rw [hclear k (by omega) (by omega)]; decide)]
      exact ih (by omega) fun j h1 h2 => hclear j h1 (by omega)

end Sys2Proof.Machine
end

