-- ==== Sys2Proof/Laws/State.lean ====
section
/-! SUPPORT. What each named update of the state does to each field, and how channels are read after an update. -/

namespace Sys2Proof.Machine

section Fields

variable (s : State)

@[simp] theorem State.setChan_cfg (n : ChannelId) (c : Channel) : (s.setChan n c).cfg = s.cfg := rfl
@[simp] theorem State.setChan_ints (n : ChannelId) (c : Channel) : (s.setChan n c).ints = s.ints := rfl
@[simp] theorem State.setChan_dma (n : ChannelId) (c : Channel) : (s.setChan n c).dma = s.dma := rfl
@[simp] theorem State.setChan_chans (n : ChannelId) (c : Channel) : (s.setChan n c).chans = s.chans.set n c := rfl
@[simp] theorem State.setChan_adkcon (n : ChannelId) (c : Channel) : (s.setChan n c).adkcon = s.adkcon := rfl
@[simp] theorem State.setChan_mem (n : ChannelId) (c : Channel) : (s.setChan n c).mem = s.mem := rfl
@[simp] theorem State.setChan_memReads (n : ChannelId) (c : Channel) : (s.setChan n c).memReads = s.memReads := rfl
@[simp] theorem State.setChan_log (n : ChannelId) (c : Channel) : (s.setChan n c).log = s.log := rfl
@[simp] theorem State.setChan_lastRead (n : ChannelId) (c : Channel) : (s.setChan n c).lastRead = s.lastRead := rfl
@[simp] theorem State.setChan_host (n : ChannelId) (c : Channel) : (s.setChan n c).host = s.host := rfl
@[simp] theorem State.setChan_inputs (n : ChannelId) (c : Channel) : (s.setChan n c).inputs = s.inputs := rfl

@[simp] theorem State.modifyChan_cfg (n : ChannelId) (f : Channel → Channel) : (s.modifyChan n f).cfg = s.cfg := rfl
@[simp] theorem State.modifyChan_ints (n : ChannelId) (f : Channel → Channel) : (s.modifyChan n f).ints = s.ints := rfl
@[simp] theorem State.modifyChan_dma (n : ChannelId) (f : Channel → Channel) : (s.modifyChan n f).dma = s.dma := rfl
@[simp] theorem State.modifyChan_chans (n : ChannelId) (f : Channel → Channel) : (s.modifyChan n f).chans = s.chans.set n (f (s.chan n)) := rfl
@[simp] theorem State.modifyChan_adkcon (n : ChannelId) (f : Channel → Channel) : (s.modifyChan n f).adkcon = s.adkcon := rfl
@[simp] theorem State.modifyChan_mem (n : ChannelId) (f : Channel → Channel) : (s.modifyChan n f).mem = s.mem := rfl
@[simp] theorem State.modifyChan_memReads (n : ChannelId) (f : Channel → Channel) : (s.modifyChan n f).memReads = s.memReads := rfl
@[simp] theorem State.modifyChan_log (n : ChannelId) (f : Channel → Channel) : (s.modifyChan n f).log = s.log := rfl
@[simp] theorem State.modifyChan_lastRead (n : ChannelId) (f : Channel → Channel) : (s.modifyChan n f).lastRead = s.lastRead := rfl
@[simp] theorem State.modifyChan_host (n : ChannelId) (f : Channel → Channel) : (s.modifyChan n f).host = s.host := rfl
@[simp] theorem State.modifyChan_inputs (n : ChannelId) (f : Channel → Channel) : (s.modifyChan n f).inputs = s.inputs := rfl

@[simp] theorem State.record_cfg (e : Event) : (s.record e).cfg = s.cfg := rfl
@[simp] theorem State.record_ints (e : Event) : (s.record e).ints = s.ints := rfl
@[simp] theorem State.record_dma (e : Event) : (s.record e).dma = s.dma := rfl
@[simp] theorem State.record_chans (e : Event) : (s.record e).chans = s.chans := rfl
@[simp] theorem State.record_adkcon (e : Event) : (s.record e).adkcon = s.adkcon := rfl
@[simp] theorem State.record_mem (e : Event) : (s.record e).mem = s.mem := rfl
@[simp] theorem State.record_memReads (e : Event) : (s.record e).memReads = s.memReads := rfl
@[simp] theorem State.record_log (e : Event) : (s.record e).log = s.log ++ [e] := rfl
@[simp] theorem State.record_lastRead (e : Event) : (s.record e).lastRead = s.lastRead := rfl
@[simp] theorem State.record_host (e : Event) : (s.record e).host = s.host := rfl
@[simp] theorem State.record_inputs (e : Event) : (s.record e).inputs = s.inputs := rfl

@[simp] theorem State.setIntreq_cfg (v : Word) : (s.setIntreq v).cfg = s.cfg := rfl
@[simp] theorem State.setIntreq_ints (v : Word) : (s.setIntreq v).ints = { s.ints with intreq := v } := rfl
@[simp] theorem State.setIntreq_dma (v : Word) : (s.setIntreq v).dma = s.dma := rfl
@[simp] theorem State.setIntreq_chans (v : Word) : (s.setIntreq v).chans = s.chans := rfl
@[simp] theorem State.setIntreq_adkcon (v : Word) : (s.setIntreq v).adkcon = s.adkcon := rfl
@[simp] theorem State.setIntreq_mem (v : Word) : (s.setIntreq v).mem = s.mem := rfl
@[simp] theorem State.setIntreq_memReads (v : Word) : (s.setIntreq v).memReads = s.memReads := rfl
@[simp] theorem State.setIntreq_log (v : Word) : (s.setIntreq v).log = s.log := rfl
@[simp] theorem State.setIntreq_lastRead (v : Word) : (s.setIntreq v).lastRead = s.lastRead := rfl
@[simp] theorem State.setIntreq_host (v : Word) : (s.setIntreq v).host = s.host := rfl
@[simp] theorem State.setIntreq_inputs (v : Word) : (s.setIntreq v).inputs = s.inputs := rfl

@[simp] theorem State.setIntena_cfg (v : Word) : (s.setIntena v).cfg = s.cfg := rfl
@[simp] theorem State.setIntena_ints (v : Word) : (s.setIntena v).ints = { s.ints with intena := v } := rfl
@[simp] theorem State.setIntena_dma (v : Word) : (s.setIntena v).dma = s.dma := rfl
@[simp] theorem State.setIntena_chans (v : Word) : (s.setIntena v).chans = s.chans := rfl
@[simp] theorem State.setIntena_adkcon (v : Word) : (s.setIntena v).adkcon = s.adkcon := rfl
@[simp] theorem State.setIntena_mem (v : Word) : (s.setIntena v).mem = s.mem := rfl
@[simp] theorem State.setIntena_memReads (v : Word) : (s.setIntena v).memReads = s.memReads := rfl
@[simp] theorem State.setIntena_log (v : Word) : (s.setIntena v).log = s.log := rfl
@[simp] theorem State.setIntena_lastRead (v : Word) : (s.setIntena v).lastRead = s.lastRead := rfl
@[simp] theorem State.setIntena_host (v : Word) : (s.setIntena v).host = s.host := rfl
@[simp] theorem State.setIntena_inputs (v : Word) : (s.setIntena v).inputs = s.inputs := rfl

@[simp] theorem State.setDmacon_cfg (v : Word) : (s.setDmacon v).cfg = s.cfg := rfl
@[simp] theorem State.setDmacon_ints (v : Word) : (s.setDmacon v).ints = s.ints := rfl
@[simp] theorem State.setDmacon_dma (v : Word) : (s.setDmacon v).dma = { s.dma with dmacon := v } := rfl
@[simp] theorem State.setDmacon_chans (v : Word) : (s.setDmacon v).chans = s.chans := rfl
@[simp] theorem State.setDmacon_adkcon (v : Word) : (s.setDmacon v).adkcon = s.adkcon := rfl
@[simp] theorem State.setDmacon_mem (v : Word) : (s.setDmacon v).mem = s.mem := rfl
@[simp] theorem State.setDmacon_memReads (v : Word) : (s.setDmacon v).memReads = s.memReads := rfl
@[simp] theorem State.setDmacon_log (v : Word) : (s.setDmacon v).log = s.log := rfl
@[simp] theorem State.setDmacon_lastRead (v : Word) : (s.setDmacon v).lastRead = s.lastRead := rfl
@[simp] theorem State.setDmacon_host (v : Word) : (s.setDmacon v).host = s.host := rfl
@[simp] theorem State.setDmacon_inputs (v : Word) : (s.setDmacon v).inputs = s.inputs := rfl

@[simp] theorem State.setAdkcon_cfg (v : Word) : (s.setAdkcon v).cfg = s.cfg := rfl
@[simp] theorem State.setAdkcon_ints (v : Word) : (s.setAdkcon v).ints = s.ints := rfl
@[simp] theorem State.setAdkcon_dma (v : Word) : (s.setAdkcon v).dma = s.dma := rfl
@[simp] theorem State.setAdkcon_chans (v : Word) : (s.setAdkcon v).chans = s.chans := rfl
@[simp] theorem State.setAdkcon_adkcon (v : Word) : (s.setAdkcon v).adkcon = v := rfl
@[simp] theorem State.setAdkcon_mem (v : Word) : (s.setAdkcon v).mem = s.mem := rfl
@[simp] theorem State.setAdkcon_memReads (v : Word) : (s.setAdkcon v).memReads = s.memReads := rfl
@[simp] theorem State.setAdkcon_log (v : Word) : (s.setAdkcon v).log = s.log := rfl
@[simp] theorem State.setAdkcon_lastRead (v : Word) : (s.setAdkcon v).lastRead = s.lastRead := rfl
@[simp] theorem State.setAdkcon_host (v : Word) : (s.setAdkcon v).host = s.host := rfl
@[simp] theorem State.setAdkcon_inputs (v : Word) : (s.setAdkcon v).inputs = s.inputs := rfl

@[simp] theorem State.setWaiting_cfg (src : Source) (b : Bool) : (s.setWaiting src b).cfg = s.cfg := rfl
@[simp] theorem State.setWaiting_ints (src : Source) (b : Bool) : (s.setWaiting src b).ints = s.ints := rfl
@[simp] theorem State.setWaiting_dma (src : Source) (b : Bool) : (s.setWaiting src b).dma = { s.dma with waiting := s.dma.waiting.set src b } := rfl
@[simp] theorem State.setWaiting_chans (src : Source) (b : Bool) : (s.setWaiting src b).chans = s.chans := rfl
@[simp] theorem State.setWaiting_adkcon (src : Source) (b : Bool) : (s.setWaiting src b).adkcon = s.adkcon := rfl
@[simp] theorem State.setWaiting_mem (src : Source) (b : Bool) : (s.setWaiting src b).mem = s.mem := rfl
@[simp] theorem State.setWaiting_memReads (src : Source) (b : Bool) : (s.setWaiting src b).memReads = s.memReads := rfl
@[simp] theorem State.setWaiting_log (src : Source) (b : Bool) : (s.setWaiting src b).log = s.log := rfl
@[simp] theorem State.setWaiting_lastRead (src : Source) (b : Bool) : (s.setWaiting src b).lastRead = s.lastRead := rfl
@[simp] theorem State.setWaiting_host (src : Source) (b : Bool) : (s.setWaiting src b).host = s.host := rfl
@[simp] theorem State.setWaiting_inputs (src : Source) (b : Bool) : (s.setWaiting src b).inputs = s.inputs := rfl

@[simp] theorem State.answer_cfg (w : Word) : (s.answer w).cfg = s.cfg := rfl
@[simp] theorem State.answer_ints (w : Word) : (s.answer w).ints = s.ints := rfl
@[simp] theorem State.answer_dma (w : Word) : (s.answer w).dma = s.dma := rfl
@[simp] theorem State.answer_chans (w : Word) : (s.answer w).chans = s.chans := rfl
@[simp] theorem State.answer_adkcon (w : Word) : (s.answer w).adkcon = s.adkcon := rfl
@[simp] theorem State.answer_mem (w : Word) : (s.answer w).mem = s.mem := rfl
@[simp] theorem State.answer_memReads (w : Word) : (s.answer w).memReads = s.memReads := rfl
@[simp] theorem State.answer_log (w : Word) : (s.answer w).log = s.log := rfl
@[simp] theorem State.answer_lastRead (w : Word) : (s.answer w).lastRead = some w := rfl
@[simp] theorem State.answer_host (w : Word) : (s.answer w).host = s.host := rfl
@[simp] theorem State.answer_inputs (w : Word) : (s.answer w).inputs = s.inputs := rfl

@[simp] theorem State.assertInt_cfg (b : Fin 15) : (s.assertInt b).cfg = s.cfg := rfl
@[simp] theorem State.assertInt_ints (b : Fin 15) : (s.assertInt b).ints = { s.ints with intreq := writeBit s.ints.intreq b true } := rfl
@[simp] theorem State.assertInt_dma (b : Fin 15) : (s.assertInt b).dma = s.dma := rfl
@[simp] theorem State.assertInt_chans (b : Fin 15) : (s.assertInt b).chans = s.chans := rfl
@[simp] theorem State.assertInt_adkcon (b : Fin 15) : (s.assertInt b).adkcon = s.adkcon := rfl
@[simp] theorem State.assertInt_mem (b : Fin 15) : (s.assertInt b).mem = s.mem := rfl
@[simp] theorem State.assertInt_memReads (b : Fin 15) : (s.assertInt b).memReads = s.memReads := rfl
@[simp] theorem State.assertInt_log (b : Fin 15) : (s.assertInt b).log = s.log ++ [.intAssert b] := rfl
@[simp] theorem State.assertInt_lastRead (b : Fin 15) : (s.assertInt b).lastRead = s.lastRead := rfl
@[simp] theorem State.assertInt_host (b : Fin 15) : (s.assertInt b).host = s.host := rfl
@[simp] theorem State.assertInt_inputs (b : Fin 15) : (s.assertInt b).inputs = s.inputs := rfl

@[simp] theorem State.deassertInt_cfg (b : Fin 15) : (s.deassertInt b).cfg = s.cfg := rfl
@[simp] theorem State.deassertInt_ints (b : Fin 15) : (s.deassertInt b).ints = { s.ints with intreq := writeBit s.ints.intreq b false } := rfl
@[simp] theorem State.deassertInt_dma (b : Fin 15) : (s.deassertInt b).dma = s.dma := rfl
@[simp] theorem State.deassertInt_chans (b : Fin 15) : (s.deassertInt b).chans = s.chans := rfl
@[simp] theorem State.deassertInt_adkcon (b : Fin 15) : (s.deassertInt b).adkcon = s.adkcon := rfl
@[simp] theorem State.deassertInt_mem (b : Fin 15) : (s.deassertInt b).mem = s.mem := rfl
@[simp] theorem State.deassertInt_memReads (b : Fin 15) : (s.deassertInt b).memReads = s.memReads := rfl
@[simp] theorem State.deassertInt_log (b : Fin 15) : (s.deassertInt b).log = s.log := rfl
@[simp] theorem State.deassertInt_lastRead (b : Fin 15) : (s.deassertInt b).lastRead = s.lastRead := rfl
@[simp] theorem State.deassertInt_host (b : Fin 15) : (s.deassertInt b).host = s.host := rfl
@[simp] theorem State.deassertInt_inputs (b : Fin 15) : (s.deassertInt b).inputs = s.inputs := rfl

@[simp] theorem State.raiseAudioInt_cfg (n : ChannelId) : (s.raiseAudioInt n).cfg = s.cfg := rfl
@[simp] theorem State.raiseAudioInt_ints (n : ChannelId) : (s.raiseAudioInt n).ints = { s.ints with intreq := writeBit s.ints.intreq (s.cfg.intBit n) true } := rfl
@[simp] theorem State.raiseAudioInt_dma (n : ChannelId) : (s.raiseAudioInt n).dma = s.dma := rfl
@[simp] theorem State.raiseAudioInt_chans (n : ChannelId) : (s.raiseAudioInt n).chans = s.chans := rfl
@[simp] theorem State.raiseAudioInt_adkcon (n : ChannelId) : (s.raiseAudioInt n).adkcon = s.adkcon := rfl
@[simp] theorem State.raiseAudioInt_mem (n : ChannelId) : (s.raiseAudioInt n).mem = s.mem := rfl
@[simp] theorem State.raiseAudioInt_memReads (n : ChannelId) : (s.raiseAudioInt n).memReads = s.memReads := rfl
@[simp] theorem State.raiseAudioInt_log (n : ChannelId) : (s.raiseAudioInt n).log = s.log ++ [.intAssert (s.cfg.intBit n)] := rfl
@[simp] theorem State.raiseAudioInt_lastRead (n : ChannelId) : (s.raiseAudioInt n).lastRead = s.lastRead := rfl
@[simp] theorem State.raiseAudioInt_host (n : ChannelId) : (s.raiseAudioInt n).host = s.host := rfl
@[simp] theorem State.raiseAudioInt_inputs (n : ChannelId) : (s.raiseAudioInt n).inputs = s.inputs := rfl

@[simp] theorem State.readChip_cfg (a : Addr) : (s.readChip a).cfg = s.cfg := rfl
@[simp] theorem State.readChip_ints (a : Addr) : (s.readChip a).ints = s.ints := rfl
@[simp] theorem State.readChip_dma (a : Addr) : (s.readChip a).dma = s.dma := rfl
@[simp] theorem State.readChip_chans (a : Addr) : (s.readChip a).chans = s.chans := rfl
@[simp] theorem State.readChip_adkcon (a : Addr) : (s.readChip a).adkcon = s.adkcon := rfl
@[simp] theorem State.readChip_mem (a : Addr) : (s.readChip a).mem = s.mem := rfl
@[simp] theorem State.readChip_memReads (a : Addr) : (s.readChip a).memReads = s.memReads + 1 := rfl
@[simp] theorem State.readChip_log (a : Addr) : (s.readChip a).log = s.log ++ [.memRead a (s.chipWord a)] := rfl
@[simp] theorem State.readChip_lastRead (a : Addr) : (s.readChip a).lastRead = s.lastRead := rfl
@[simp] theorem State.readChip_host (a : Addr) : (s.readChip a).host = s.host := rfl
@[simp] theorem State.readChip_inputs (a : Addr) : (s.readChip a).inputs = s.inputs := rfl

end Fields

section Channels

variable (s : State) (n m : ChannelId) (c : Channel)

theorem State.chan_eq : s.chan n = s.chans[n] := rfl

@[simp] theorem State.chan_setChan_same : (s.setChan n c).chan n = c := by
  simp [State.chan, State.setChan]

theorem State.chan_setChan : (s.setChan n c).chan m = if m = n then c else s.chan m := by
  simp only [State.chan, State.setChan, Fin.getElem_fin, Vector.getElem_set, Fin.ext_iff]
  by_cases h : n.val = m.val
  · rw [if_pos h, if_pos h.symm]
  · rw [if_neg h, if_neg (Ne.symm h)]

@[simp] theorem State.chan_modifyChan_same (f : Channel → Channel) :
    (s.modifyChan n f).chan n = f (s.chan n) := s.chan_setChan_same n _

theorem State.chan_modifyChan (f : Channel → Channel) :
    (s.modifyChan n f).chan m = if m = n then f (s.chan n) else s.chan m := s.chan_setChan n m _

theorem State.chan_modifyChan_ne (f : Channel → Channel) (h : m ≠ n) :
    (s.modifyChan n f).chan m = s.chan m := by rw [State.chan_modifyChan, if_neg h]

@[simp] theorem State.chan_record (e : Event) : (s.record e).chan n = s.chan n := rfl
@[simp] theorem State.chan_setIntreq (v : Word) : (s.setIntreq v).chan n = s.chan n := rfl
@[simp] theorem State.chan_setIntena (v : Word) : (s.setIntena v).chan n = s.chan n := rfl
@[simp] theorem State.chan_setDmacon (v : Word) : (s.setDmacon v).chan n = s.chan n := rfl
@[simp] theorem State.chan_setAdkcon (v : Word) : (s.setAdkcon v).chan n = s.chan n := rfl
@[simp] theorem State.chan_setWaiting (src : Source) (b : Bool) : (s.setWaiting src b).chan n = s.chan n := rfl
@[simp] theorem State.chan_answer (w : Word) : (s.answer w).chan n = s.chan n := rfl
@[simp] theorem State.chan_assertInt (b : Fin 15) : (s.assertInt b).chan n = s.chan n := rfl
@[simp] theorem State.chan_deassertInt (b : Fin 15) : (s.deassertInt b).chan n = s.chan n := rfl
@[simp] theorem State.chan_raiseAudioInt (k : ChannelId) : (s.raiseAudioInt k).chan n = s.chan n := rfl
@[simp] theorem State.chan_readChip (a : Addr) : (s.readChip a).chan n = s.chan n := rfl

/-- Two channel vectors with the same channels are the same. -/
theorem chans_ext {v w : Vector Channel 4} (h : ∀ n : ChannelId, v[n] = w[n]) : v = w :=
  Vector.ext fun i hi => h ⟨i, hi⟩

/-- A state is another one with some channels replaced, if every other field agrees. -/
theorem State.eq_with_chans {s t : State} (h : t = { s with chans := t.chans })
    (hc : ∀ k : ChannelId, t.chan k = s.chan k) : t = s := by
  have hv : t.chans = s.chans := chans_ext hc
  rw [h, hv]

end Channels

section Waiting

@[simp] theorem Waiting.get_set_same (w : Waiting) (src : Source) (b : Bool) : (w.set src b).get src = b := by
  cases src <;> rfl

theorem Waiting.get_set (w : Waiting) (src o : Source) (b : Bool) :
    (w.set src b).get o = if o = src then b else w.get o := by
  cases src <;> cases o <;> rfl

theorem Waiting.get_set_ne (w : Waiting) {src o : Source} (b : Bool) (h : o ≠ src) :
    (w.set src b).get o = w.get o := by rw [Waiting.get_set, if_neg h]

theorem Waiting.ext_get {w v : Waiting} (h : ∀ o, w.get o = v.get o) : w = v := by
  obtain ⟨a, b, c, d⟩ := w
  obtain ⟨a', b', c', d'⟩ := v
  have h1 := h .agnus
  have h2 := h .copper
  have h3 := h .blitter
  have h4 := h .cpu
  simp only [Waiting.get] at h1 h2 h3 h4
  subst h1 h2 h3 h4
  rfl

end Waiting

end Sys2Proof.Machine
end

