-- ==== Sys2Proof/Laws/Fsm.lean ====
section
/-! SUPPORT. What each subroutine of the audio state machine can do, said once. -/

namespace Sys2Proof.Machine

section Neighbours

variable (n m : ChannelId)

theorem nextChannel_eq_some_iff : nextChannel n = some m ↔ m.val = n.val + 1 := by
  revert n m; decide

theorem nextChannel_eq_none_iff : nextChannel n = none ↔ ¬ n.val < 3 := by
  revert n; decide

theorem nextChannel_ne {n m : ChannelId} (h : nextChannel n = some m) : m ≠ n := by
  rw [nextChannel_eq_some_iff] at h
  intro e
  rw [e] at h
  omega

end Neighbours

section Steps

variable (n k : ChannelId) (w : Word) (s : State)

/-- AudioArm (R190): one channel, its pending bit, one log entry. -/
theorem audioArm_eq : audioArm n s =
    { s with
      chans := s.chans.set n (s.chan n).arm
      ints := { s.ints with intreq := writeBit s.ints.intreq (s.cfg.intBit n) true }
      log := s.log ++ [.intAssert (s.cfg.intBit n)] } := rfl

/-! Modulation touches channels alone (R197). -/

@[simp] theorem modulateIfActive_cfg : (modulateIfActive n w s).cfg = s.cfg := by
  unfold modulateIfActive; split <;> [split <;> rfl; rfl]
@[simp] theorem modulateIfActive_ints : (modulateIfActive n w s).ints = s.ints := by
  unfold modulateIfActive; split <;> [split <;> rfl; rfl]
@[simp] theorem modulateIfActive_dma : (modulateIfActive n w s).dma = s.dma := by
  unfold modulateIfActive; split <;> [split <;> rfl; rfl]
@[simp] theorem modulateIfActive_adkcon : (modulateIfActive n w s).adkcon = s.adkcon := by
  unfold modulateIfActive; split <;> [split <;> rfl; rfl]
@[simp] theorem modulateIfActive_mem : (modulateIfActive n w s).mem = s.mem := by
  unfold modulateIfActive; split <;> [split <;> rfl; rfl]
@[simp] theorem modulateIfActive_memReads : (modulateIfActive n w s).memReads = s.memReads := by
  unfold modulateIfActive; split <;> [split <;> rfl; rfl]
@[simp] theorem modulateIfActive_log : (modulateIfActive n w s).log = s.log := by
  unfold modulateIfActive; split <;> [split <;> rfl; rfl]
@[simp] theorem modulateIfActive_lastRead : (modulateIfActive n w s).lastRead = s.lastRead := by
  unfold modulateIfActive; split <;> [split <;> rfl; rfl]
@[simp] theorem modulateIfActive_host : (modulateIfActive n w s).host = s.host := by
  unfold modulateIfActive; split <;> [split <;> rfl; rfl]
@[simp] theorem modulateIfActive_inputs : (modulateIfActive n w s).inputs = s.inputs := by
  unfold modulateIfActive; split <;> [split <;> rfl; rfl]

/-- What modulation leaves in each channel (R197). -/
theorem modulateIfActive_chan : (modulateIfActive n w s).chan k =
    if s.modActive n then
      if k = n then (s.chan n).afterModulating
      else if k.val = n.val + 1 then (s.chan k).modulated (s.chan n).modulatingVp w else s.chan k
    else s.chan k := by
  unfold modulateIfActive
  split
  · rename_i m hm
    have hmn := nextChannel_ne hm
    rw [nextChannel_eq_some_iff] at hm
    split
    · unfold modulate
      rw [State.chan_modifyChan]
      by_cases h1 : k = n
      · rw [if_pos h1, if_pos h1, State.chan_modifyChan_ne _ _ _ _ (Ne.symm hmn)]
      · rw [if_neg h1, if_neg h1, State.chan_modifyChan]
        by_cases h2 : k = m
        · rw [if_pos h2, if_pos (by rw [h2]; exact hm), h2]
        · rw [if_neg h2, if_neg (by rw [← hm, ← Fin.ext_iff]; exact h2)]
    · rfl
  · rename_i hm
    rw [nextChannel_eq_none_iff] at hm
    have : s.modActive n = false := by simp [State.modActive, hm]
    rw [this]
    rfl

/-! The audio request touches Agnus' flag alone (R111). -/

@[simp] theorem audioRequest_cfg : (audioRequest s).cfg = s.cfg := by
  unfold audioRequest; split <;> rfl
@[simp] theorem audioRequest_ints : (audioRequest s).ints = s.ints := by
  unfold audioRequest; split <;> rfl
@[simp] theorem audioRequest_chans : (audioRequest s).chans = s.chans := by
  unfold audioRequest; split <;> rfl
@[simp] theorem audioRequest_adkcon : (audioRequest s).adkcon = s.adkcon := by
  unfold audioRequest; split <;> rfl
@[simp] theorem audioRequest_mem : (audioRequest s).mem = s.mem := by
  unfold audioRequest; split <;> rfl
@[simp] theorem audioRequest_memReads : (audioRequest s).memReads = s.memReads := by
  unfold audioRequest; split <;> rfl
@[simp] theorem audioRequest_log : (audioRequest s).log = s.log := by
  unfold audioRequest; split <;> rfl
@[simp] theorem audioRequest_lastRead : (audioRequest s).lastRead = s.lastRead := by
  unfold audioRequest; split <;> rfl
@[simp] theorem audioRequest_host : (audioRequest s).host = s.host := by
  unfold audioRequest; split <;> rfl
@[simp] theorem audioRequest_inputs : (audioRequest s).inputs = s.inputs := by
  unfold audioRequest; split <;> rfl
@[simp] theorem audioRequest_chan : (audioRequest s).chan k = s.chan k := by
  unfold audioRequest; split <;> rfl
@[simp] theorem audioRequest_dmacon : (audioRequest s).dma.dmacon = s.dma.dmacon := by
  unfold audioRequest; split <;> rfl
@[simp] theorem audioRequest_lastGrant : (audioRequest s).dma.lastGrant = s.dma.lastGrant := by
  unfold audioRequest; split <;> rfl

theorem audioRequest_waiting (o : Source) : (audioRequest s).dma.waiting.get o =
    (s.dma.waiting.get o || decide (s.cfg.audioReq = true ∧ o = .agnus)) := by
  unfold audioRequest
  split
  · rename_i h
    rw [State.setWaiting_dma]
    simp only [Waiting.get_set, h, true_and]
    by_cases ho : o = .agnus <;> simp [ho]
  · rename_i h
    simp [h]

/-- The state in which the fetched word has been stored (R194), before modulation and restart. -/
def fetchedState (n : ChannelId) (s : State) : State :=
  (audioRequest (s.readChip (s.chan n).workingPointer)).modifyChan n
    (Channel.fetched s.cfg.ptrMask (s.chipWord (s.chan n).workingPointer))

theorem fetchedState_chan : (fetchedState n s).chan k =
    if k = n then (s.chan n).fetched s.cfg.ptrMask (s.chipWord (s.chan n).workingPointer) else s.chan k := by
  unfold fetchedState
  rw [State.chan_modifyChan, audioRequest_chan, audioRequest_chan]
  rfl

theorem word_sub_one_eq_zero (x : Word) : x - 1 = 0 ↔ x = 1 := by
  constructor
  · intro h
    have h2 := congrArg (· + 1) h
    simpa using h2
  · intro h
    rw [h]
    rfl

/-- The working length after a fetch and modulation: one less (R194). -/
theorem modulated_length : ((modulateIfActive n w (fetchedState n s)).chan n).workingLength =
    (s.chan n).workingLength - 1 := by
  rw [modulateIfActive_chan, fetchedState_chan, if_pos rfl, if_pos rfl]
  split <;> rfl

/-- A fetch restarts the block if and only if the length was 1 (R194, R195). -/
theorem dmaFetch_eq : dmaFetch n s =
    if (s.chan n).workingLength = 1 then
      blockRestart n (modulateIfActive n (s.chipWord (s.chan n).workingPointer) (fetchedState n s))
    else modulateIfActive n (s.chipWord (s.chan n).workingPointer) (fetchedState n s) := by
  have h := modulated_length n (s.chipWord (s.chan n).workingPointer) s
  unfold dmaFetch
  simp only
  change (if ((modulateIfActive n _ (fetchedState n s)).chan n).workingLength = 0 then _ else _) = _
  rw [h]
  simp only [word_sub_one_eq_zero]
  rfl

/-! A fetch, but for the working period: the fields it can change (R194, R195, R197, R111). -/

@[simp] theorem dmaFetch_cfg : (dmaFetch n s).cfg = s.cfg := by
  rw [dmaFetch_eq]; split <;> simp [blockRestart, fetchedState]
@[simp] theorem dmaFetch_adkcon : (dmaFetch n s).adkcon = s.adkcon := by
  rw [dmaFetch_eq]; split <;> simp [blockRestart, fetchedState]
@[simp] theorem dmaFetch_mem : (dmaFetch n s).mem = s.mem := by
  rw [dmaFetch_eq]; split <;> simp [blockRestart, fetchedState]
@[simp] theorem dmaFetch_lastRead : (dmaFetch n s).lastRead = s.lastRead := by
  rw [dmaFetch_eq]; split <;> simp [blockRestart, fetchedState]
@[simp] theorem dmaFetch_host : (dmaFetch n s).host = s.host := by
  rw [dmaFetch_eq]; split <;> simp [blockRestart, fetchedState]
@[simp] theorem dmaFetch_inputs : (dmaFetch n s).inputs = s.inputs := by
  rw [dmaFetch_eq]; split <;> simp [blockRestart, fetchedState]
@[simp] theorem dmaFetch_memReads : (dmaFetch n s).memReads = s.memReads + 1 := by
  rw [dmaFetch_eq]; split <;> simp [blockRestart, fetchedState]
theorem dmaFetch_dma : (dmaFetch n s).dma = (audioRequest s).dma := by
  rw [dmaFetch_eq]
  split <;> simp [blockRestart, fetchedState] <;> unfold audioRequest <;> split <;> simp_all
theorem dmaFetch_ints : (dmaFetch n s).ints =
    if (s.chan n).workingLength = 1 then { s.ints with intreq := writeBit s.ints.intreq (s.cfg.intBit n) true }
    else s.ints := by
  rw [dmaFetch_eq]; split <;> simp [blockRestart, fetchedState]
theorem dmaFetch_log : (dmaFetch n s).log =
    s.log ++ [.memRead (s.chan n).workingPointer (s.chipWord (s.chan n).workingPointer)] ++
      if (s.chan n).workingLength = 1 then [.intAssert (s.cfg.intBit n)] else [] := by
  rw [dmaFetch_eq]; split <;> simp [blockRestart, fetchedState]
theorem dmaFetch_chan : (dmaFetch n s).chan k =
    if k = n ∧ (s.chan n).workingLength = 1 then
      ((modulateIfActive n (s.chipWord (s.chan n).workingPointer) (fetchedState n s)).chan n).restart
    else (modulateIfActive n (s.chipWord (s.chan n).workingPointer) (fetchedState n s)).chan k := by
  rw [dmaFetch_eq]
  by_cases h : (s.chan n).workingLength = 1
  · rw [if_pos h]
    unfold blockRestart
    rw [State.chan_raiseAudioInt, State.chan_modifyChan]
    by_cases hk : k = n <;> simp [hk, h]
  · rw [if_neg h, if_neg (fun e => h e.2)]

@[simp] theorem modActive_fetchedState : (fetchedState n s).modActive n = s.modActive n := by
  simp [State.modActive, fetchedState]

end Steps

end Sys2Proof.Machine
end

