-- ==== Sys2Proof/Laws/Frame.lean ====
section
/-! SUPPORT. What the audio engine can change, said once: the relation `AudioFrame`, kept by every subroutine of the
state machine and by arming, and closed under sequence. -/

namespace Sys2Proof.Machine

/-- What every action of the audio engine keeps. -/
structure AudioFrame (s t : State) : Prop where
  cfg : t.cfg = s.cfg
  dmacon : t.dma.dmacon = s.dma.dmacon
  lastGrant : t.dma.lastGrant = s.dma.lastGrant
  waiting : ∀ o, t.dma.waiting.get o = s.dma.waiting.get o ∨
    (o = .agnus ∧ s.cfg.audioReq = true ∧ t.dma.waiting.get o = true)
  intena : t.ints.intena = s.ints.intena
  gayleLevel : t.ints.gayleLevel = s.ints.gayleLevel
  latQ : t.ints.latQ = s.ints.latQ
  lagLevel : t.ints.lagLevel = s.ints.lagLevel
  pendingKept : ∀ b, s.ints.intreq.getLsbD b = true → t.ints.intreq.getLsbD b = true
  pendingNew : ∀ b, t.ints.intreq.getLsbD b = true →
    s.ints.intreq.getLsbD b = true ∨ ∃ n : ChannelId, (s.cfg.intBit n).val = b
  adkcon : t.adkcon = s.adkcon
  mem : t.mem = s.mem
  lastRead : t.lastRead = s.lastRead
  host : t.host = s.host
  inputs : t.inputs = s.inputs
  log : ∃ l, t.log = s.log ++ l

theorem AudioFrame.refl (s : State) : AudioFrame s s :=
  ⟨rfl, rfl, rfl, fun _ => .inl rfl, rfl, rfl, rfl, rfl, fun _ h => h, fun _ h => .inl h, rfl, rfl, rfl, rfl, rfl,
    ⟨[], (List.append_nil _).symm⟩⟩

theorem AudioFrame.trans {s t u : State} (h : AudioFrame s t) (g : AudioFrame t u) : AudioFrame s u where
  cfg := g.cfg.trans h.cfg
  dmacon := g.dmacon.trans h.dmacon
  lastGrant := g.lastGrant.trans h.lastGrant
  waiting o := by
    rcases g.waiting o with e | ⟨e1, e2, e3⟩
    · rw [e]; exact h.waiting o
    · exact .inr ⟨e1, h.cfg ▸ e2, e3⟩
  intena := g.intena.trans h.intena
  gayleLevel := g.gayleLevel.trans h.gayleLevel
  latQ := g.latQ.trans h.latQ
  lagLevel := g.lagLevel.trans h.lagLevel
  pendingKept b hb := g.pendingKept b (h.pendingKept b hb)
  pendingNew b hb := by
    rcases g.pendingNew b hb with e | ⟨n, hn⟩
    · exact h.pendingNew b e
    · exact .inr ⟨n, by rw [← h.cfg]; exact hn⟩
  adkcon := g.adkcon.trans h.adkcon
  mem := g.mem.trans h.mem
  lastRead := g.lastRead.trans h.lastRead
  host := g.host.trans h.host
  inputs := g.inputs.trans h.inputs
  log := by
    obtain ⟨l, hl⟩ := h.log
    obtain ⟨l', hl'⟩ := g.log
    exact ⟨l ++ l', by rw [hl', hl, List.append_assoc]⟩

/-- A change of the channels alone is in the frame. -/
theorem AudioFrame.ofChans (s : State) (v : Vector Channel 4) : AudioFrame s { s with chans := v } :=
  ⟨rfl, rfl, rfl, fun _ => .inl rfl, rfl, rfl, rfl, rfl, fun _ h => h, fun _ h => .inl h, rfl, rfl, rfl, rfl, rfl,
    ⟨[], (List.append_nil _).symm⟩⟩

theorem raiseAudioInt_frame (n : ChannelId) (s : State) : AudioFrame s (s.raiseAudioInt n) where
  cfg := rfl
  dmacon := rfl
  lastGrant := rfl
  waiting _ := .inl rfl
  intena := rfl
  gayleLevel := rfl
  latQ := rfl
  lagLevel := rfl
  pendingKept b hb := by
    rw [State.raiseAudioInt_ints]
    simp only
    rw [writeBit_bit _ _ _ _ (by omega)]
    split <;> simp [hb]
  pendingNew b hb := by
    rw [State.raiseAudioInt_ints] at hb
    simp only at hb
    rw [writeBit_bit _ _ _ _ (by omega)] at hb
    split at hb
    · rename_i h
      exact .inr ⟨n, h.symm⟩
    · exact .inl hb
  adkcon := rfl
  mem := rfl
  lastRead := rfl
  host := rfl
  inputs := rfl
  log := ⟨_, rfl⟩

theorem readChip_frame (a : Addr) (s : State) : AudioFrame s (s.readChip a) :=
  ⟨rfl, rfl, rfl, fun _ => .inl rfl, rfl, rfl, rfl, rfl, fun _ h => h, fun _ h => .inl h, rfl, rfl, rfl, rfl, rfl,
    ⟨_, rfl⟩⟩

theorem audioRequest_frame (s : State) : AudioFrame s (audioRequest s) where
  cfg := audioRequest_cfg s
  dmacon := audioRequest_dmacon s
  lastGrant := audioRequest_lastGrant s
  waiting o := by
    rw [audioRequest_waiting]
    by_cases h : s.cfg.audioReq = true ∧ o = .agnus
    · exact .inr ⟨h.2, h.1, by simp [h]⟩
    · exact .inl (by simp [h])
  intena := by rw [audioRequest_ints]
  gayleLevel := by rw [audioRequest_ints]
  latQ := by rw [audioRequest_ints]
  lagLevel := by rw [audioRequest_ints]
  pendingKept b hb := by rw [audioRequest_ints]; exact hb
  pendingNew b hb := .inl (by rw [audioRequest_ints] at hb; exact hb)
  adkcon := audioRequest_adkcon s
  mem := audioRequest_mem s
  lastRead := audioRequest_lastRead s
  host := audioRequest_host s
  inputs := audioRequest_inputs s
  log := ⟨[], by rw [audioRequest_log, List.append_nil]⟩

theorem modulateIfActive_frame (n : ChannelId) (w : Word) (s : State) : AudioFrame s (modulateIfActive n w s) := by
  unfold modulateIfActive
  split
  · split
    · exact (AudioFrame.ofChans _ _).trans (AudioFrame.ofChans _ _)
    · exact .refl s
  · exact .refl s

theorem blockRestart_frame (n : ChannelId) (s : State) : AudioFrame s (blockRestart n s) :=
  (AudioFrame.ofChans s _).trans (raiseAudioInt_frame n _)

theorem audioArm_frame (n : ChannelId) (s : State) : AudioFrame s (audioArm n s) :=
  (AudioFrame.ofChans s _).trans (raiseAudioInt_frame n _)

theorem setWorkingPeriod_frame (n : ChannelId) (v : Int) (s : State) : AudioFrame s (setWorkingPeriod n v s) :=
  .ofChans s _

theorem toIdle_frame (n : ChannelId) (s : State) : AudioFrame s (toIdle n s) := .ofChans s _

theorem fetchedState_frame (n : ChannelId) (s : State) : AudioFrame s (fetchedState n s) :=
  ((readChip_frame _ s).trans (audioRequest_frame _)).trans (.ofChans _ _)

theorem dmaFetch_frame (n : ChannelId) (s : State) : AudioFrame s (dmaFetch n s) := by
  rw [dmaFetch_eq]
  split
  · exact ((fetchedState_frame n s).trans (modulateIfActive_frame n _ _)).trans (blockRestart_frame n _)
  · exact (fetchedState_frame n s).trans (modulateIfActive_frame n _ _)

theorem enableCheck_frame (n : ChannelId) (s : State) : AudioFrame s (enableCheck n s) := by
  unfold enableCheck
  split
  · exact .refl s
  · exact (toIdle_frame n s).trans (raiseAudioInt_frame n _)

theorem dmaPoll_frame (n : ChannelId) (s : State) : AudioFrame s (dmaPoll n s) := by
  unfold dmaPoll
  refine AudioFrame.trans ?_ (enableCheck_frame n _)
  split
  · exact (dmaFetch_frame n s).trans (setWorkingPeriod_frame n _ _)
  · exact setWorkingPeriod_frame n _ s

theorem intPoll_frame (n : ChannelId) (s : State) : AudioFrame s (intPoll n s) := by
  unfold intPoll
  simp only
  split
  · split
    · exact (toIdle_frame n s).trans (setWorkingPeriod_frame n _ _)
    · exact (raiseAudioInt_frame n s).trans (setWorkingPeriod_frame n _ _)
  · exact setWorkingPeriod_frame n _ s

theorem channelPoll_frame (n : ChannelId) (s : State) : AudioFrame s (channelPoll n s) := by
  unfold channelPoll
  split
  · exact .refl s
  · exact dmaPoll_frame n s
  · exact intPoll_frame n s

/-- AUDPOLL is in the frame (R192). -/
theorem pollAll_frame (s : State) : AudioFrame s (pollAll s) :=
  (((channelPoll_frame 0 s).trans (channelPoll_frame 1 _)).trans (channelPoll_frame 2 _)).trans (channelPoll_frame 3 _)

theorem armIfRises_frame (old new : Word) (s : State) (n : ChannelId) : AudioFrame s (armIfRises old new s n) := by
  unfold armIfRises
  split
  · exact audioArm_frame n s
  · exact .refl s

theorem notifyIfRises_frame (old new : Word) (s : State) (b : Fin 16) : AudioFrame s (notifyIfRises old new s b) := by
  unfold notifyIfRises
  split
  · exact ⟨rfl, rfl, rfl, fun _ => .inl rfl, rfl, rfl, rfl, rfl, fun _ h => h, fun _ h => .inl h, rfl, rfl, rfl, rfl, rfl,
      ⟨_, rfl⟩⟩
  · exact .refl s

/-- A sequence of actions in the frame is in the frame. -/
theorem foldl_frame {α : Type} (f : State → α → State) (h : ∀ s a, AudioFrame s (f s a)) (l : List α) (s : State) :
    AudioFrame s (l.foldl f s) := by
  induction l generalizing s with
  | nil => exact .refl s
  | cons a l ih => exact (h s a).trans (ih _)

/-- Arming is in the frame (R101). -/
theorem armAll_frame (old new : Word) (s : State) : AudioFrame s (armAll old new s) :=
  (foldl_frame _ (armIfRises_frame old new) _ s).trans (foldl_frame _ (notifyIfRises_frame old new) _ _)

/-! ### The channels' own invariants (R41) -/

/-- Every channel of the state has the invariants of R41. -/
abbrev State.ChansInv (s : State) : Prop := ∀ n : ChannelId, (s.chan n).Inv

theorem chansInv_modifyChan {s : State} (h : s.ChansInv) (n : ChannelId) (f : Channel → Channel)
    (hf : ∀ c : Channel, c.Inv → (f c).Inv) : (s.modifyChan n f).ChansInv := by
  intro k
  rw [State.chan_modifyChan]
  split
  · exact hf _ (h n)
  · exact h k

theorem chansInv_modulateIfActive {s : State} (h : s.ChansInv) (n : ChannelId) (w : Word) :
    (modulateIfActive n w s).ChansInv := by
  intro k
  rw [modulateIfActive_chan]
  split
  · split
    · exact h n
    · split
      · unfold Channel.modulated
        split
        · exact h k
        · exact ⟨mapVolume_le w, (h k).2⟩
      · exact h k
  · exact h k

theorem chansInv_dmaFetch {s : State} (h : s.ChansInv) (n : ChannelId) : (dmaFetch n s).ChansInv := by
  have hf : (fetchedState n s).ChansInv := by
    intro k
    rw [fetchedState_chan]
    split
    · exact ⟨(h n).1, (h n).2.1, pointerNext_bit0 _ _ (h n).2.2⟩
    · exact h k
  have hm := chansInv_modulateIfActive hf n (s.chipWord (s.chan n).workingPointer)
  rw [dmaFetch_eq]
  split
  · exact chansInv_modifyChan hm n Channel.restart fun c hc => ⟨hc.1, hc.2.1, hc.2.1⟩
  · exact hm

theorem chansInv_setWorkingPeriod {s : State} (h : s.ChansInv) (n : ChannelId) (v : Int) :
    (setWorkingPeriod n v s).ChansInv := chansInv_modifyChan h n _ fun _ hc => hc

theorem chansInv_toIdle {s : State} (h : s.ChansInv) (n : ChannelId) : (toIdle n s).ChansInv :=
  chansInv_modifyChan h n _ fun _ hc => hc

theorem chansInv_raiseAudioInt {s : State} (h : s.ChansInv) (n : ChannelId) : (s.raiseAudioInt n).ChansInv := h

theorem chansInv_enableCheck {s : State} (h : s.ChansInv) (n : ChannelId) : (enableCheck n s).ChansInv := by
  unfold enableCheck
  split
  · exact h
  · exact chansInv_raiseAudioInt (chansInv_toIdle h n) n

theorem chansInv_dmaPoll {s : State} (h : s.ChansInv) (n : ChannelId) : (dmaPoll n s).ChansInv := by
  unfold dmaPoll
  refine chansInv_enableCheck ?_ n
  split
  · exact chansInv_setWorkingPeriod (chansInv_dmaFetch h n) n _
  · exact chansInv_setWorkingPeriod h n _

theorem chansInv_intPoll {s : State} (h : s.ChansInv) (n : ChannelId) : (intPoll n s).ChansInv := by
  unfold intPoll
  simp only
  split
  · split
    · exact chansInv_setWorkingPeriod (chansInv_toIdle h n) n _
    · exact chansInv_setWorkingPeriod (chansInv_raiseAudioInt h n) n _
  · exact chansInv_setWorkingPeriod h n _

theorem chansInv_channelPoll {s : State} (h : s.ChansInv) (n : ChannelId) : (channelPoll n s).ChansInv := by
  unfold channelPoll
  split
  · exact h
  · exact chansInv_dmaPoll h n
  · exact chansInv_intPoll h n

theorem chansInv_pollAll {s : State} (h : s.ChansInv) : (pollAll s).ChansInv :=
  chansInv_channelPoll (chansInv_channelPoll (chansInv_channelPoll (chansInv_channelPoll h 0) 1) 2) 3

theorem chansInv_armAll {s : State} (h : s.ChansInv) (old new : Word) : (armAll old new s).ChansInv := by
  have step : ∀ (t : State) (n : ChannelId), t.ChansInv → (armIfRises old new t n).ChansInv := by
    intro t n ht
    unfold armIfRises
    split
    · exact chansInv_modifyChan ht n Channel.arm fun c hc => ⟨hc.1, hc.2.1, hc.2.1⟩
    · exact ht
  have arms : ∀ (l : List ChannelId) (t : State), t.ChansInv → (l.foldl (armIfRises old new) t).ChansInv := by
    intro l
    induction l with
    | nil => intro t ht; exact ht
    | cons a l ih => intro t ht; exact ih _ (step t a ht)
  have note : ∀ (l : List (Fin 16)) (t : State), t.ChansInv → (l.foldl (notifyIfRises old new) t).ChansInv := by
    intro l
    induction l with
    | nil => intro t ht; exact ht
    | cons a l ih =>
      intro t ht
      refine ih _ ?_
      unfold notifyIfRises
      split <;> exact ht
  exact note _ _ (arms _ s h)

end Sys2Proof.Machine
end

