-- ==== Sys2Proof/Laws/Arbiter.lean ====
section
/-! SUPPORT. What arming (R101) and granting (R107) do, said once. -/

namespace Sys2Proof.Machine

/-- "Rises" in the words of R101: from not enabled to enabled. -/
theorem rises_eq_armRise (p : Params) (old new : Word) (b : Nat) : rises p old new b = armRise p old new b := by
  unfold rises armRise armEnabled
  cases p.armTrigger <;> simp

theorem rises_self (p : Params) (v : Word) (b : Nat) : rises p v v b = false := by
  rw [rises_eq_armRise]
  unfold armRise
  cases armEnabled p v b <;> rfl

section Arm

variable (old new : Word)

/-- Arming touches channels, pending bits and the log alone. -/
theorem armFold_eq (l : List ChannelId) (s : State) :
    let t := l.foldl (armIfRises old new) s
    t = { s with chans := t.chans, ints := { s.ints with intreq := t.ints.intreq }, log := t.log } := by
  induction l generalizing s with
  | nil => rfl
  | cons a l ih =>
    simp only [List.foldl_cons]
    refine (ih _).trans ?_
    unfold armIfRises
    split <;> rfl

/-- The log after arming: one assertion for each channel that rose, in order. -/
theorem armFold_log (l : List ChannelId) (s : State) : (l.foldl (armIfRises old new) s).log =
    s.log ++ (l.filter fun (n : ChannelId) => rises s.cfg old new (s.cfg.dmaBit n)).map
      (fun (n : ChannelId) => Event.intAssert (s.cfg.intBit n)) := by
  induction l generalizing s with
  | nil => simp
  | cons a l ih =>
    simp only [List.foldl_cons]
    rw [ih, (armIfRises_frame old new s a).cfg]
    unfold armIfRises
    by_cases h : rises s.cfg old new (s.cfg.dmaBit a) = true
    · rw [if_pos h]
      simp [h, audioArm]
    · rw [if_neg h]
      simp [h]

/-- A channel after arming, where the list names no channel twice. -/
theorem armFold_chan (l : List ChannelId) (hl : l.Nodup) (s : State) (k : ChannelId) :
    (l.foldl (armIfRises old new) s).chan k =
      if k ∈ l ∧ rises s.cfg old new (s.cfg.dmaBit k) = true then (s.chan k).arm else s.chan k := by
  induction l generalizing s with
  | nil => simp
  | cons a l ih =>
    rw [List.nodup_cons] at hl
    simp only [List.foldl_cons]
    have hcfg := (armIfRises_frame old new s a).cfg
    rw [ih hl.2, hcfg]
    have hc : (armIfRises old new s a).chan k =
        if k = a ∧ rises s.cfg old new (s.cfg.dmaBit k) = true then (s.chan k).arm else s.chan k := by
      unfold armIfRises
      by_cases h : rises s.cfg old new (s.cfg.dmaBit a) = true
      · rw [if_pos h]
        unfold audioArm
        rw [State.chan_raiseAudioInt, State.chan_modifyChan]
        by_cases hk : k = a
        · subst hk; simp [h]
        · simp [hk]
      · rw [if_neg h]
        by_cases hk : k = a
        · subst hk; simp [h]
        · simp [hk]
    rw [hc]
    by_cases hk : k = a
    · subst hk
      simp [hl.1]
    · simp [hk]

/-- The pending bits after arming: those of the channels that rose are set too. -/
theorem armFold_intreq (l : List ChannelId) (s : State) (b : Nat) :
    (l.foldl (armIfRises old new) s).ints.intreq.getLsbD b = true ↔
      s.ints.intreq.getLsbD b = true ∨ ∃ n : ChannelId, n ∈ l ∧
        rises s.cfg old new (s.cfg.dmaBit n) = true ∧ (s.cfg.intBit n).val = b := by
  induction l generalizing s with
  | nil => simp
  | cons a l ih =>
    simp only [List.foldl_cons]
    rw [ih, (armIfRises_frame old new s a).cfg]
    have hc : (armIfRises old new s a).ints.intreq.getLsbD b = true ↔
        s.ints.intreq.getLsbD b = true ∨
          (rises s.cfg old new (s.cfg.dmaBit a) = true ∧ (s.cfg.intBit a).val = b) := by
      unfold armIfRises
      by_cases h : rises s.cfg old new (s.cfg.dmaBit a) = true
      · rw [if_pos h, audioArm_eq]
        simp only
        rw [writeBit_bit _ _ _ _ (by omega)]
        by_cases hb : b = (s.cfg.intBit a).val
        · rw [if_pos hb]
          exact ⟨fun _ => .inr ⟨h, hb.symm⟩, fun _ => rfl⟩
        · rw [if_neg hb]
          exact ⟨.inl, fun e => e.elim id fun e2 => absurd e2.2.symm hb⟩
      · rw [if_neg h]
        exact ⟨.inl, fun e => e.elim id fun e2 => absurd e2.1 h⟩
    rw [hc]
    constructor
    · rintro ((h | ⟨h1, h2⟩) | ⟨n, h1, h2⟩)
      · exact .inl h
      · exact .inr ⟨a, List.mem_cons_self, h1, h2⟩
      · exact .inr ⟨n, List.mem_cons_of_mem _ h1, h2⟩
    · rintro (h | ⟨n, h1, h2⟩)
      · exact .inl (.inl h)
      · rcases List.mem_cons.mp h1 with rfl | h1
        · exact .inl (.inr h2)
        · exact .inr ⟨n, h1, h2⟩

/-- Notifying touches the log alone: one entry for each bit that rose, in order. -/
theorem notifyFold_eq (l : List (Fin 16)) (s : State) : l.foldl (notifyIfRises old new) s =
    { s with log := s.log ++ (l.filter fun (b : Fin 16) => rises s.cfg old new b.val).map Event.notify } := by
  induction l generalizing s with
  | nil => simp
  | cons a l ih =>
    simp only [List.foldl_cons]
    rw [ih]
    unfold notifyIfRises
    by_cases h : rises s.cfg old new a.val = true
    · rw [if_pos h]
      simp [h, State.record]
    · rw [if_neg h]
      simp [h]

/-- Arming as a whole: the fields it can change (R101). -/
theorem armAll_eq (s : State) : armAll old new s =
    { s with
      chans := (armAll old new s).chans
      ints := { s.ints with intreq := (armAll old new s).ints.intreq }
      log := (armAll old new s).log } := by
  unfold armAll
  rw [notifyFold_eq]
  have h := armFold_eq old new [0, 1, 2, 3] s
  simp only at h ⊢
  generalize ([0, 1, 2, 3] : List ChannelId).foldl (armIfRises old new) s = u at h ⊢
  rw [h]

theorem armAll_chan (s : State) (k : ChannelId) : (armAll old new s).chan k =
    if rises s.cfg old new (s.cfg.dmaBit k) = true then (s.chan k).arm else s.chan k := by
  unfold armAll
  rw [notifyFold_eq]
  refine (armFold_chan old new [0, 1, 2, 3] (by decide) s k).trans ?_
  have : k ∈ ([0, 1, 2, 3] : List ChannelId) := by revert k; decide
  simp only [this, true_and]

theorem armAll_intreq (s : State) (b : Nat) : (armAll old new s).ints.intreq.getLsbD b = true ↔
    s.ints.intreq.getLsbD b = true ∨ ∃ n : ChannelId,
      rises s.cfg old new (s.cfg.dmaBit n) = true ∧ (s.cfg.intBit n).val = b := by
  unfold armAll
  rw [notifyFold_eq]
  refine (armFold_intreq old new [0, 1, 2, 3] s b).trans ?_
  have : ∀ k : ChannelId, k ∈ ([0, 1, 2, 3] : List ChannelId) := by decide
  simp only [this, true_and]

theorem armAll_log (s : State) : (armAll old new s).log = s.log ++
    (([0, 1, 2, 3] : List ChannelId).filter fun (n : ChannelId) => rises s.cfg old new (s.cfg.dmaBit n)).map
      (fun (n : ChannelId) => Event.intAssert (s.cfg.intBit n)) ++
    (([4, 5, 6, 7, 8] : List (Fin 16)).filter fun (b : Fin 16) => rises s.cfg old new b.val).map Event.notify := by
  unfold armAll
  rw [notifyFold_eq]
  simp only
  rw [armFold_log, (foldl_frame _ (armIfRises_frame old new) _ s).cfg]
  rfl

/-- A write that changes no bit arms nothing (R100). -/
theorem armAll_self (v : Word) (s : State) : armAll v v s = s := by
  simp [armAll, armIfRises, notifyIfRises, rises_self, deviceBits]

end Arm

theorem forall_source {p : Source → Prop} : (∀ o, p o) ↔ p .agnus ∧ p .copper ∧ p .blitter ∧ p .cpu :=
  ⟨fun h => ⟨h _, h _, h _, h _⟩, fun h o => by cases o <;> simp only [h]⟩

/-- A search in the fixed order finds the source of least rank. -/
theorem find_source (b : Source → Bool) (g : Source) :
    Source.all.find? b = some g ↔ b g = true ∧ ∀ o, b o = true → g.rank ≤ o.rank := by
  rw [forall_source]
  unfold Source.all
  cases h0 : b .agnus <;> cases h1 : b .copper <;> cases h2 : b .blitter <;> cases h3 : b .cpu <;>
    cases g <;> simp [h0, h1, h2, h3, Source.rank]

theorem ready_iff (s : State) (o : Source) : (s.dma.waiting.get o && s.eligible o) = true ↔ s.ready o := by
  simp [State.eligible, State.ready, State.dmaEnabled]

/-- The arbiter's choice: the first of the fixed order that waits and is eligible (R105, R107). -/
theorem winner_eq_some_iff (s : State) (g : Source) :
    s.winner = some g ↔ s.ready g ∧ ∀ o, s.ready o → g.rank ≤ o.rank := by
  unfold State.winner
  rw [find_source]
  simp only [ready_iff]

theorem winner_eq_none_iff (s : State) : s.winner = none ↔ ∀ o, ¬ s.ready o := by
  unfold State.winner
  rw [List.find?_eq_none]
  exact ⟨fun h o ho => h o (by cases o <;> decide) ((ready_iff s o).2 ho), fun h o _ ho => h o ((ready_iff s o).1 ho)⟩

/-- A grant changes the winner's flag and the record of the grant alone (R107). -/
theorem grant_eq (g : Option Source) (s : State) : grant g s =
    { s with dma := { s.dma with waiting := (grant g s).dma.waiting, lastGrant := g } } := by
  cases g <;> rfl

theorem grant_waiting (g : Option Source) (s : State) (o : Source) : (grant g s).dma.waiting.get o =
    (s.dma.waiting.get o && decide (g ≠ some o)) := by
  cases g with
  | none => simp [grant]
  | some src =>
    change (s.dma.waiting.set src false).get o = _
    rw [Waiting.get_set]
    by_cases h : o = src
    · simp [h]
    · simp [h, Ne.symm h]

end Sys2Proof.Machine
end

