-- ==== Sys2Proof/Laws/Decode.lean ====
section
/-! SUPPORT. How the fields of a word read as numbers, how a row of the opcode table is found under any register map, and
what a command's own words decode to. -/

namespace Sys2Proof

/-! ### Fields -/

theorem classOf_eq (c : Word) : classOf c = c.toNat / 4096 := by
  have := c.isLt
  simp only [classOf, field, Nat.shiftRight_eq_div_pow]
  omega

theorem carriesOperand_iff (c : Word) : carriesOperand c = true ↔ c.toNat / 4096 = 1 := by
  unfold carriesOperand
  rw [classOf_eq]
  simp

theorem mustBeZero_eq (c : Word) : field c 9 3 = c.toNat / 512 % 8 := by simp [field, Nat.shiftRight_eq_div_pow]

theorem wrWord_toNat (o : Offset) : (wrWord o).toNat = 4096 + o.toNat := by
  have h : wrWord o = 0x1000#16 + o.setWidth 16 := by
    unfold wrWord
    rw [BitVec.add_eq_or_of_and_eq_zero]
    ext i hi
    interval_cases i <;> simp
  have := o.isLt
  rw [h, BitVec.toNat_add]
  simp
  omega

theorem rdWord_toNat (o : Offset) : (rdWord o).toNat = 8192 + o.toNat := by
  have h : rdWord o = 0x2000#16 + o.setWidth 16 := by
    unfold rdWord
    rw [BitVec.add_eq_or_of_and_eq_zero]
    ext i hi
    interval_cases i <;> simp
  have := o.isLt
  rw [h, BitVec.toNat_add]
  simp
  omega

theorem offsetOf_toNat (c : Word) : (offsetOf c).toNat = c.toNat % 512 := by simp [offsetOf]

theorem wrWord_inj {a b : Offset} (h : wrWord a = wrWord b) : a = b := by
  have := congrArg BitVec.toNat h
  rw [wrWord_toNat, wrWord_toNat] at this
  exact BitVec.eq_of_toNat_eq (by omega)

theorem rdWord_inj {a b : Offset} (h : rdWord a = rdWord b) : a = b := by
  have := congrArg BitVec.toNat h
  rw [rdWord_toNat, rdWord_toNat] at this
  exact BitVec.eq_of_toNat_eq (by omega)

/-- A word of class 1 with its must-be-0 bits clear is the write word of its offset (R81). -/
theorem eq_wrWord {c : Word} (h : c.toNat / 4096 = 1) (hz : c.toNat / 512 % 8 = 0) : c = wrWord (offsetOf c) := by
  apply BitVec.eq_of_toNat_eq
  rw [wrWord_toNat, offsetOf_toNat]
  omega

/-- A word of class 2 with its must-be-0 bits clear is the read word of its offset (R81). -/
theorem eq_rdWord {c : Word} (h : c.toNat / 4096 = 2) (hz : c.toNat / 512 % 8 = 0) : c = rdWord (offsetOf c) := by
  apply BitVec.eq_of_toNat_eq
  rw [rdWord_toNat, offsetOf_toNat]
  omega

/-- The mask of a register row holds the whole word. -/
theorem and_ones (c : Word) : c &&& 0xFFFF#16 = c := by
  rw [show (0xFFFF#16) = BitVec.allOnes 16 from rfl, BitVec.and_allOnes]

/-! ### The rows -/

/-- The words of the register rows, which their masks hold whole (R82). -/
theorem registerRows_patterns (m : RegMap) :
    (registerRows m).map (·.pattern) = m.readOffsets.map rdWord ++ m.writeOffsets.map wrWord := rfl

theorem registerRows_mask {m : RegMap} {r : Row} (h : r ∈ registerRows m) : r.mask = 0xFFFF#16 := by
  have : (registerRows m).all (fun r => r.mask == 0xFFFF#16) = true := rfl
  simpa using List.all_eq_true.mp this r h

/-- A register row's word is the read word of a read-only register or the write word of a write-only one. -/
theorem registerRows_pattern {m : RegMap} {r : Row} (h : r ∈ registerRows m) :
    (∃ o ∈ m.readOffsets, r.pattern = rdWord o) ∨ ∃ o ∈ m.writeOffsets, r.pattern = wrWord o := by
  have := List.mem_map_of_mem (f := (·.pattern)) h
  rw [registerRows_patterns, List.mem_append, List.mem_map, List.mem_map] at this
  rcases this with ⟨o, ho, e⟩ | ⟨o, ho, e⟩
  · exact .inl ⟨o, ho, e.symm⟩
  · exact .inr ⟨o, ho, e.symm⟩

theorem registerRows_class {m : RegMap} {r : Row} (h : r ∈ registerRows m) :
    r.pattern.toNat / 4096 = 1 ∨ r.pattern.toNat / 4096 = 2 := by
  rcases registerRows_pattern h with ⟨o, -, e⟩ | ⟨o, -, e⟩ <;> have := o.isLt
  · rw [e, rdWord_toNat]; omega
  · rw [e, wrWord_toNat]; omega

/-- In a map the encoding allows, the offsets of the read-only registers are even and none is a write-only register's. -/
theorem RegMap.read_of_wf {m : RegMap} (h : m.wf = true) {o : Offset} (ho : o ∈ m.readOffsets) :
    o.getLsbD 0 = false ∧ o ∉ m.writeOffsets := by
  simp only [RegMap.wf, Bool.and_eq_true, decide_eq_true_eq, List.all_eq_true, List.mem_append, Bool.not_eq_true',
    List.nodup_append] at h
  exact ⟨h.1 o (.inl ho), fun ho' => h.2.2.2 o ho o ho' rfl⟩

/-- In a map the encoding allows, the offsets of the write-only registers are even and none is a read-only register's. -/
theorem RegMap.write_of_wf {m : RegMap} (h : m.wf = true) {o : Offset} (ho : o ∈ m.writeOffsets) :
    o.getLsbD 0 = false ∧ o ∉ m.readOffsets :=
  ⟨by
    simp only [RegMap.wf, Bool.and_eq_true, List.all_eq_true, List.mem_append, Bool.not_eq_true'] at h
    exact h.1 o (.inr ho), fun ho' => (RegMap.read_of_wf h ho').2 ho⟩

/-- A mask of the high bits reads as a quotient. -/
theorem div_of_mask (c : Word) (k : Nat) (m p : Word) (hm : m = BitVec.allOnes 16 <<< k) (h : c &&& m = p) :
    c.toNat / 2 ^ k = p.toNat / 2 ^ k := by
  have e : c >>> k = p >>> k := by
    rw [← h, BitVec.ushiftRight_and_distrib, hm]
    apply BitVec.eq_of_getLsbD_eq
    intro i hi
    simp only [BitVec.getLsbD_and, BitVec.getLsbD_ushiftRight, BitVec.getLsbD_shiftLeft, BitVec.getLsbD_allOnes]
    by_cases hx : k + i < 16
    · simp [hx, hi]
    · rw [BitVec.getLsbD_of_ge c _ (by omega)]
      simp
  simpa [Nat.shiftRight_eq_div_pow] using congrArg BitVec.toNat e

/-- A word that a control row matches has that row's class, which is none of a register access. -/
theorem controlRows_class {r : Row} (hr : r ∈ controlRows) {c : Word} (h : c &&& r.mask = r.pattern) :
    c.toNat / 4096 ≠ 1 ∧ c.toNat / 4096 ≠ 2 := by
  have : ∀ r ∈ controlRows, ∃ k ≤ 12, r.mask = BitVec.allOnes 16 <<< k ∧ r.pattern.toNat / 4096 ≠ 1 ∧
      r.pattern.toNat / 4096 ≠ 2 := by decide
  obtain ⟨k, hk, hm, h1, h2⟩ := this r hr
  have e := congrArg (· / 2 ^ (12 - k)) (div_of_mask c k r.mask r.pattern hm h)
  simp only [Nat.div_div_eq_div_mul, ← Nat.pow_add, show k + (12 - k) = 12 by omega] at e
  norm_num at e
  exact ⟨by omega, by omega⟩

/-- Two rows differ at a bit that both their masks hold (R88). -/
theorem opcodeRows_pairwise {m : RegMap} (hm : m.wf = true) :
    (opcodeRows m).Pairwise fun r r' => r.pattern &&& r'.mask ≠ r'.pattern &&& r.mask := by
  have hm : (m.readOffsets ++ m.writeOffsets).Nodup := by
    simp only [RegMap.wf, Bool.and_eq_true, decide_eq_true_eq] at hm
    exact hm.2
  rw [List.nodup_append] at hm
  refine List.pairwise_append.2 ⟨?_, by decide, fun r hr r' hr' e => ?_⟩
  · have hp : ((registerRows m).map (·.pattern)).Nodup := by
      rw [registerRows_patterns]
      refine List.nodup_append.2 ⟨hm.1.map fun _ _ h => rdWord_inj h, hm.2.1.map fun _ _ h => wrWord_inj h, ?_⟩
      intro a ha b hb e
      obtain ⟨o, -, rfl⟩ := List.mem_map.1 ha
      obtain ⟨o', -, rfl⟩ := List.mem_map.1 hb
      have := congrArg BitVec.toNat e
      have := o.isLt
      have := o'.isLt
      rw [rdWord_toNat, wrWord_toNat] at *
      omega
    refine (List.pairwise_map.1 hp).imp_of_mem fun hr hr' hne e => hne ?_
    rw [registerRows_mask hr, registerRows_mask hr', and_ones, and_ones] at e
    exact e
  · rw [registerRows_mask hr, and_ones] at e
    have := controlRows_class hr' e
    have := registerRows_class hr
    omega

/-- In a table whose rows differ pairwise, a row that matches is the row that is found. -/
theorem find_row (c : Word) (r : Row) (h : c &&& r.mask = r.pattern) (l : List Row)
    (hp : l.Pairwise fun r r' => r.pattern &&& r'.mask ≠ r'.pattern &&& r.mask) (hm : r ∈ l) :
    l.find? (fun r => r.matches c) = some r := by
  induction l with
  | nil => cases hm
  | cons a l ih =>
    rw [List.pairwise_cons] at hp
    rw [List.find?_cons]
    rcases List.mem_cons.mp hm with rfl | hm'
    · simp [Row.matches, h]
    · have hne := hp.1 r hm'
      have : a.matches c = false := by
        simp only [Row.matches, decide_eq_false_iff_not]
        intro e
        apply hne
        rw [← e, ← h, BitVec.and_assoc, BitVec.and_assoc, BitVec.and_comm a.mask]
      rw [this]
      exact ih hp.2 hm'

theorem find_opcodeRow {m : RegMap} (hm : m.wf = true) (c : Word) (r : Row) (hr : r ∈ opcodeRows m)
    (h : c &&& r.mask = r.pattern) : (opcodeRows m).find? (fun r => r.matches c) = some r :=
  find_row c r h _ (opcodeRows_pairwise hm) hr

/-- A word that is no register access is looked up among the control rows, whatever the map. -/
theorem find_control (m : RegMap) {c : Word} (h1 : c.toNat / 4096 ≠ 1) (h2 : c.toNat / 4096 ≠ 2) :
    (opcodeRows m).find? (fun r => r.matches c) = controlRows.find? (fun r => r.matches c) := by
  have hn : (registerRows m).find? (fun r => r.matches c) = none := by
    rw [List.find?_eq_none]
    intro r hr
    simp only [Row.matches, decide_eq_true_eq]
    intro e
    rw [registerRows_mask hr, and_ones] at e
    have := registerRows_class hr
    rw [← e] at this
    omega
  rw [opcodeRows, List.find?_append, hn]
  rfl

/-! ### What decodes to what -/

/-- A word outside the table is rejected for the reason R251 gives it, whatever follows it. -/
theorem decode_eq_error (m : RegMap) (c : Word) (d : Option Word) (h : ∀ r ∈ opcodeRows m, c &&& r.mask ≠ r.pattern) :
    decode m c d = .error (rejectReason m c) := by
  have hf : (opcodeRows m).find? (fun r => r.matches c) = none := by
    rw [List.find?_eq_none]
    intro r hr
    simp [Row.matches, h r hr]
  unfold decode
  rw [hf]

/-- The words of a read of the register of a row. -/
theorem decodeWords_read {m : RegMap} (hm : m.wf = true) {o : Offset} {r : Row} (hr : r ∈ registerRows m)
    (hp : r.pattern = rdWord o) (rest : List Word) :
    decodeWords m (rdWord o :: rest) = some (.ok (r.build (rdWord o) 0), rest) := by
  have hc : carriesOperand (rdWord o) = false := by
    rw [Bool.eq_false_iff, Ne, carriesOperand_iff, rdWord_toNat]
    have := o.isLt
    omega
  have hf := find_opcodeRow hm (rdWord o) r (List.mem_append_left _ hr) (by
    rw [registerRows_mask hr, and_ones, hp])
  simp [decodeWords, decode, hf, hc]

/-- The words of a write of the register of a row. -/
theorem decodeWords_write {m : RegMap} (hm : m.wf = true) {o : Offset} {r : Row} (hr : r ∈ registerRows m)
    (hp : r.pattern = wrWord o) (d : Word) (rest : List Word) :
    decodeWords m (wrWord o :: d :: rest) = some (.ok (r.build (wrWord o) d), rest) := by
  have hc : carriesOperand (wrWord o) = true := by
    rw [carriesOperand_iff, wrWord_toNat]
    have := o.isLt
    omega
  have hf := find_opcodeRow hm (wrWord o) r (List.mem_append_left _ hr) (by
    rw [registerRows_mask hr, and_ones, hp])
  simp [decodeWords, decode, hf, hc]

/-- The word of a command that is no register access, under any map. -/
theorem decodeWords_control (m : RegMap) {c : Word} (h1 : c.toNat / 4096 ≠ 1) (h2 : c.toNat / 4096 ≠ 2) {r : Row}
    (hf : controlRows.find? (fun r => r.matches c) = some r) (rest : List Word) :
    decodeWords m (c :: rest) = some (.ok (r.build c 0), rest) := by
  have hc : carriesOperand c = false := by rw [Bool.eq_false_iff, Ne, carriesOperand_iff]; exact h1
  simp [decodeWords, decode, find_control m h1 h2, hf, hc]

end Sys2Proof
end

