-- ==== Sys2Proof/Laws/Exec.lean ====
section
/-! SUPPORT. What the commands that branch can answer, how a command is fetched, and what one step can do, said once. -/

namespace Sys2Proof.Machine

theorem next_inj {σ φ ρ : Type} {a t : σ} (h : (Host.Outcome.next a : Host.Outcome σ φ ρ) = .next t) : t = a := by
  injection h with h
  exact h.symm

/-- REQ that answers a next state names one of the four sources (R106). -/
theorem execReq_cases {v : Nat} {s t : State} (h : execReq v s = .next t) :
    ∃ src, v = src.rank ∧ t = s.setWaiting src true := by
  unfold execReq at h
  split at h
  · rename_i src hs
    have : v = src.rank := by
      unfold Source.ofNat? at hs
      split at hs <;> simp at hs <;> subst hs <;> rfl
    exact ⟨src, this, next_inj h⟩
  · cases h

/-- AINT that answers a next state has a pending bit (R135). -/
theorem execAint_cases {b : Fin 16} {a : Bool} {s t : State} (h : execAint b a s = .next t) :
    ∃ hb : b.val < 15, t = if a then s.assertInt ⟨b, hb⟩ else s.deassertInt ⟨b, hb⟩ := by
  unfold execAint at h
  split at h
  · rename_i hb
    exact ⟨hb, next_inj h⟩
  · cases h

/-- GAYLE writes the level, and asserts the funnel bit if there is one and the level is not 0 (R136, R137). -/
theorem gayleState_cases (l : Level) (s : State) :
    (gayleState l s = { s with ints := { s.ints with gayleLevel := l } } ∧ (l = 0 ∨ s.cfg.gayleBit = none)) ∨
    ∃ b, l ≠ 0 ∧ s.cfg.gayleBit = some b ∧
      gayleState l s = ({ s with ints := { s.ints with gayleLevel := l } } : State).assertInt b := by
  unfold gayleState
  cases hb : s.cfg.gayleBit with
  | none => exact .inl ⟨rfl, .inr rfl⟩
  | some b =>
    by_cases hl : l = 0
    · exact .inl ⟨by simp [hl], .inl hl⟩
    · exact .inr ⟨b, hl, rfl, by simp [hl]⟩

theorem latAdvance_length (p : Params) (c : IntCtl) (h : c.latQ.length ≤ p.depth) :
    (latAdvance p c).latQ.length ≤ p.depth := by
  unfold latAdvance
  split
  · exact h
  · simp only
    split
    · rename_i h2
      cases hq : c.latQ with
      | nil => rw [hq] at h2; simp at h2; omega
      | cons a l => rw [hq] at h2; simp at h2 ⊢; omega
    · simp; omega

/-- An advance of the latency queue touches the queue and the lagged level alone (R138). -/
theorem latAdvance_rest (p : Params) (c : IntCtl) :
    (latAdvance p c).intena = c.intena ∧ (latAdvance p c).intreq = c.intreq ∧
    (latAdvance p c).gayleLevel = c.gayleLevel := by
  unfold latAdvance
  split
  · exact ⟨rfl, rfl, rfl⟩
  · simp only
    split <;> exact ⟨rfl, rfl, rfl⟩

theorem roleUpdate_chan (s : State) (n : ChannelId) : (roleUpdate s).chan n = rolesFor s.adkcon n (s.chan n) := by
  simp [roleUpdate, State.chan]

theorem blockReset_chan (s : State) (n : ChannelId) : (blockReset s).chan n = .reset := by fin_cases n <;> rfl

/-- Fetching a word takes the operand that follows it exactly where the class is 1 (R90). -/
theorem fetch_cons (m : RegMap) (c : Word) (rest : List Input) :
    fetch m (.word c :: rest) =
      match rest with
      | .word d :: rest' => if carriesOperand c then some (decode m c (some d), rest') else some (decode m c none, rest)
      | _ => some (decode m c none, rest) := by
  unfold fetch
  cases rest with
  | nil => unfold frontWords decodeWords; by_cases hc : carriesOperand c = true <;> simp [hc]
  | cons a l =>
    cases a <;> unfold frontWords decodeWords <;> by_cases hc : carriesOperand c = true <;> simp [hc]

/-- A step that answers a next state leaves the state as it is, or changes inputs, chip memory and the host's counters
alone, or runs one command on the state with some inputs taken. -/
theorem step_cases {s t : State} (h : step s = .next t) :
    t = s ∨
    (∃ (l : List Input) (m : Memory) (c : HostCounters),
      t = { s with inputs := l, mem := m, host := c } ∧ (m = s.mem ∨ ∃ a b, m = s.mem.write a b)) ∨
    ∃ i l, exec i { s with inputs := l } = .next t := by
  unfold step stepInput at h
  split at h
  · exact .inl (next_inj h)
  · split at h
    · exact .inl (next_inj h)
    · exact .inr (.inr ⟨_, _, h⟩)
    · cases h
  · obtain rfl := next_inj h
    exact .inr (.inl ⟨_, _, _, rfl, .inr ⟨_, _, rfl⟩⟩)
  · exact .inr (.inr ⟨.req _, _, h⟩)
  · cases h
  · obtain rfl := next_inj h
    exact .inr (.inl ⟨_, _, _, rfl, .inl rfl⟩)
  · obtain rfl := next_inj h
    exact .inr (.inl ⟨_, _, _, rfl, .inl rfl⟩)
  · unfold takeReport at h
    split at h
    · cases h
    · split at h
      · cases h
      · obtain rfl := next_inj h
        exact .inr (.inl ⟨_, _, _, rfl, .inl rfl⟩)
  · obtain rfl := next_inj h
    exact .inr (.inl ⟨_, _, _, rfl, .inl rfl⟩)
  · obtain rfl := next_inj h
    unfold bookkeep
    split <;> exact .inr (.inl ⟨_, _, _, rfl, .inl rfl⟩)

end Sys2Proof.Machine
end

