-- ==== Sys2Proof/Laws/Memory.lean ====
section
/-! SUPPORT. Chip memory: a read after a write, and the canonical form. -/

namespace Sys2Proof.Machine

theorem Memory.get?_set (m : Memory) (a k : Nat) (b : Byte) :
    (m.set a b).get? k = if k = a then some b else m.get? k := by
  induction m with
  | nil =>
    by_cases h : k = a
    · subst h; simp [Memory.set, Memory.get?]
    · simp [Memory.set, Memory.get?, h, Ne.symm h]
  | cons e rest ih =>
    obtain ⟨j, v⟩ := e
    unfold Memory.set
    by_cases h1 : a < j
    · rw [if_pos h1]
      by_cases h : k = a
      · subst h; simp [Memory.get?]
      · simp [Memory.get?, h, Ne.symm h]
    · rw [if_neg h1]
      by_cases h2 : a = j
      · rw [if_pos h2]
        subst h2
        by_cases h : k = a
        · subst h; simp [Memory.get?]
        · simp [Memory.get?, h, Ne.symm h]
      · rw [if_neg h2]
        unfold Memory.get?
        by_cases h3 : j = k
        · subst h3
          simp [Ne.symm h2]
        · rw [if_neg h3, if_neg h3, ih]

theorem Memory.rising_set (m : Memory) (a lo : Nat) (b : Byte) (hlo : lo ≤ a) (ha : a < 2 ^ 32)
    (h : m.rising lo = true) : (m.set a b).rising lo = true := by
  induction m generalizing lo with
  | nil => simp [Memory.set, Memory.rising, hlo]; omega
  | cons e rest ih =>
    obtain ⟨j, v⟩ := e
    simp only [Memory.rising, Bool.and_eq_true, decide_eq_true_eq] at h
    obtain ⟨⟨hj, hj2⟩, hr⟩ := h
    unfold Memory.set
    by_cases h1 : a < j
    · rw [if_pos h1]
      simp only [Memory.rising, Bool.and_eq_true, decide_eq_true_eq]
      exact ⟨⟨hlo, ha⟩, ⟨by omega, hj2⟩, hr⟩
    · rw [if_neg h1]
      by_cases h2 : a = j
      · rw [if_pos h2]
        subst h2
        simp only [Memory.rising, Bool.and_eq_true, decide_eq_true_eq]
        exact ⟨⟨hlo, ha⟩, hr⟩
      · rw [if_neg h2]
        simp only [Memory.rising, Bool.and_eq_true, decide_eq_true_eq]
        exact ⟨⟨hj, hj2⟩, ih (j + 1) (by omega) hr⟩

/-- A write of one byte inside the space keeps the canonical form. -/
theorem Memory.wf_set (m : Memory) (a : Nat) (b : Byte) (ha : a < 2 ^ 32) (h : m.wf = true) : (m.set a b).wf = true :=
  Memory.rising_set m a 0 b (Nat.zero_le _) ha h

/-- A write of bytes keeps the canonical form. -/
theorem Memory.wf_write (bytes : List Byte) (m : Memory) (a : Addr) (h : m.wf = true) :
    (m.write a bytes).wf = true := by
  induction bytes generalizing m a with
  | nil => exact h
  | cons b rest ih => exact ih _ _ (Memory.wf_set m a.toNat b a.isLt h)

end Sys2Proof.Machine
end

