-- ==== Sys2Proof/Laws/PerInstr.lean ====
section
/-! SUPPORT. Laws stated of every instruction, one lemma for each constructor.

WordCount: a command is one word, with an operand word if and only if its class is 1 (30_encoding.md R90). -/

namespace Sys2Proof.Laws.WordCount

/-- Under every register map, the words of a well-formed command are its command word and, exactly where that word's class
carries one, an operand (R90). -/
def Statement (i : Instr) : Prop :=
  ∀ m : RegMap, i.wf = true →
    ∃ c : Word, (encode m i).head? = some c ∧ (encode m i).length = if carriesOperand c = true then 2 else 1

/-- A command of one word whose class is not 1 meets the law. -/
theorem one_word {i : Instr} (h : ∀ m, ∃ c : Word, encode m i = [c] ∧ c.toNat / 4096 ≠ 1) : Statement i := by
  intro m _
  obtain ⟨c, he, hc⟩ := h m
  exact ⟨c, by rw [he]; rfl, by rw [he, if_neg (fun e => hc ((carriesOperand_iff c).1 e))]; rfl⟩

/-- A register read meets the law. -/
theorem read_word {i : Instr} {o : RegMap → Offset} (h : ∀ m, encode m i = [rdWord (o m)]) : Statement i :=
  one_word fun m => ⟨_, h m, by rw [rdWord_toNat]; have := (o m).isLt; omega⟩

/-- A register write meets the law. -/
theorem write_words {i : Instr} {o : RegMap → Offset} {d : Word} (h : ∀ m, encode m i = [wrWord (o m), d]) :
    Statement i := by
  intro m _
  have hc : carriesOperand (wrWord (o m)) = true := by
    rw [carriesOperand_iff, wrWord_toNat]
    have := (o m).isLt
    omega
  exact ⟨wrWord (o m), by rw [h]; rfl, by rw [h, if_pos hc]; rfl⟩

/-- A command of one constant word meets the law. -/
theorem constant_word {i : Instr} {c : Word} (h : ∀ m, encode m i = [c]) (hc : c.toNat / 4096 ≠ 1) : Statement i :=
  one_word fun m => ⟨c, h m, hc⟩

theorem rdDmaconr : Statement .rdDmaconr := read_word fun _ => rfl
theorem rdAdkconr : Statement .rdAdkconr := read_word fun _ => rfl
theorem rdIntenar : Statement .rdIntenar := read_word fun _ => rfl
theorem rdIntreqr : Statement .rdIntreqr := read_word fun _ => rfl
theorem wrDmacon (d : Word) : Statement (.wrDmacon d) := write_words fun _ => rfl
theorem wrIntena (d : Word) : Statement (.wrIntena d) := write_words fun _ => rfl
theorem wrIntreq (d : Word) : Statement (.wrIntreq d) := write_words fun _ => rfl
theorem wrAdkcon (d : Word) : Statement (.wrAdkcon d) := write_words fun _ => rfl
theorem wrAud0Lch (d : Word) : Statement (.wrAud0Lch d) := write_words fun _ => rfl
theorem wrAud0Lcl (d : Word) : Statement (.wrAud0Lcl d) := write_words fun _ => rfl
theorem wrAud0Len (d : Word) : Statement (.wrAud0Len d) := write_words fun _ => rfl
theorem wrAud0Per (d : Word) : Statement (.wrAud0Per d) := write_words fun _ => rfl
theorem wrAud0Vol (d : Word) : Statement (.wrAud0Vol d) := write_words fun _ => rfl
theorem wrAud0Dat (d : Word) : Statement (.wrAud0Dat d) := write_words fun _ => rfl
theorem wrAud1Lch (d : Word) : Statement (.wrAud1Lch d) := write_words fun _ => rfl
theorem wrAud1Lcl (d : Word) : Statement (.wrAud1Lcl d) := write_words fun _ => rfl
theorem wrAud1Len (d : Word) : Statement (.wrAud1Len d) := write_words fun _ => rfl
theorem wrAud1Per (d : Word) : Statement (.wrAud1Per d) := write_words fun _ => rfl
theorem wrAud1Vol (d : Word) : Statement (.wrAud1Vol d) := write_words fun _ => rfl
theorem wrAud1Dat (d : Word) : Statement (.wrAud1Dat d) := write_words fun _ => rfl
theorem wrAud2Lch (d : Word) : Statement (.wrAud2Lch d) := write_words fun _ => rfl
theorem wrAud2Lcl (d : Word) : Statement (.wrAud2Lcl d) := write_words fun _ => rfl
theorem wrAud2Len (d : Word) : Statement (.wrAud2Len d) := write_words fun _ => rfl
theorem wrAud2Per (d : Word) : Statement (.wrAud2Per d) := write_words fun _ => rfl
theorem wrAud2Vol (d : Word) : Statement (.wrAud2Vol d) := write_words fun _ => rfl
theorem wrAud2Dat (d : Word) : Statement (.wrAud2Dat d) := write_words fun _ => rfl
theorem wrAud3Lch (d : Word) : Statement (.wrAud3Lch d) := write_words fun _ => rfl
theorem wrAud3Lcl (d : Word) : Statement (.wrAud3Lcl d) := write_words fun _ => rfl
theorem wrAud3Len (d : Word) : Statement (.wrAud3Len d) := write_words fun _ => rfl
theorem wrAud3Per (d : Word) : Statement (.wrAud3Per d) := write_words fun _ => rfl
theorem wrAud3Vol (d : Word) : Statement (.wrAud3Vol d) := write_words fun _ => rfl
theorem wrAud3Dat (d : Word) : Statement (.wrAud3Dat d) := write_words fun _ => rfl
theorem req (source : Nat) : Statement (.req source) := by
  intro m h
  have hs : source < 4 := by simpa [Instr.wf] using h
  refine constant_word (c := BitVec.ofNat 16 (0x3000 + source)) (fun _ => rfl) ?_ m h
  rw [BitVec.toNat_ofNat]
  omega
theorem aint (bit : Fin 16) (asserted : Bool) : Statement (.aint bit asserted) :=
  constant_word (fun _ => rfl) (by revert bit asserted; decide)
theorem gayle (level : Level) : Statement (.gayle level) := constant_word (fun _ => rfl) (by revert level; decide)
theorem audpoll : Statement .audpoll := constant_word (fun _ => rfl) (by decide)
theorem latadv : Statement .latadv := constant_word (fun _ => rfl) (by decide)
theorem commit : Statement .commit := constant_word (fun _ => rfl) (by decide)
theorem reset : Statement .reset := constant_word (fun _ => rfl) (by decide)

end Sys2Proof.Laws.WordCount
end

