-- ==== Sys2Proof/Tests/Slice0.lean ====
section
/-! SUPPORT. Tests. Expected results are the spec's own: the vectors of 95_test_vectors.md (named A1, I3, M6 and so on) and
the encodings of 30_encoding.md. After them, for each obligation with hypotheses, a state and operands that meet them. -/

namespace Sys2Proof.Tests

open Sys2Proof Sys2Proof.Machine

/-! ### The parameters and states of the tests (95_test_vectors.md, its opening words) -/

/-- The parameter values of the spec's vectors; entries 14 and 15 of the priority table are open there, and 7 here. -/
def vectorParams : Params where
  rate := 50
  depth := 0
  prio := #v[1, 1, 1, 2, 3, 3, 3, 4, 4, 4, 4, 5, 5, 6, 7, 7]
  globalEnBit := 14
  audIntBit := #v[7, 8, 9, 10]
  audDmaBit := #v[0, 1, 2, 3]
  dmaenBit := 9
  dmaconWmask := 0x3FFF#16
  gayleBit := none
  armTrigger := .ownBit
  audioReq := false
  ptrMask := 0xFFFFFFFE#32
  regAddr := .default
  ticksPerLine := 3

/-- The reset state with those parameters. -/
def base : State := { State.reset with cfg := vectorParams }

/-- `base` with the arbiter's mask and waiting sources. -/
def arbiterState (dmacon : Word) (waiting : Waiting) : State := { base with dma := ⟨dmacon, waiting, none⟩ }

/-- `base` with INTENA and INTREQ. -/
def intState (intena intreq : Word) : State :=
  { base with ints := { base.ints with intena := intena, intreq := intreq } }

/-- `base` with a latency queue of a depth. -/
def latState (depth : Nat) (intena intreq : Word) (q : List Level) (lag : Level) : State :=
  { base with cfg := { vectorParams with depth := depth }, ints := ⟨intena, intreq, 0, q, lag⟩ }

/-- A channel that plays a block at 0x1000 of 4 words with period 100. -/
def playing (wp : Int) (wl : Word) (wptr : Addr) : Channel :=
  { Channel.reset with
    period := 100, length := 4, pointer := 0x1000#32, mode := .dma
    workingPeriod := wp, workingLength := wl, workingPointer := wptr }

/-- A channel in Interrupt mode with period 100. -/
def interrupting (wp : Int) : Channel := { Channel.reset with period := 100, mode := .interrupt, workingPeriod := wp }

/-- Channel 0 as given, its DMA enabled by `dmacon`, ADKCON as given, and the word `w` in memory at 0x1002. -/
def channel0 (c : Channel) (dmacon adkcon : Word) (hi lo : Byte) : State :=
  { base with
    dma := { base.dma with dmacon := dmacon }, adkcon := adkcon, chans := #v[c, .reset, .reset, .reset]
    mem := [(0x1002, hi), (0x1003, lo)] }

/-- One field of the state after a command. -/
def after {α : Type} (i : Instr) (s : State) (f : State → α) : Option α := (nextOf (exec i s)).map f

/-- The refusal a step ends with, if it does. -/
def refusalOf {σ φ ρ : Type} : Host.Outcome σ φ ρ → Option ρ
  | .refused r => some r
  | .next _ => none
  | .fault _ => none

/-- The fault a step ends with, if it does. -/
def faultOf {σ φ ρ : Type} : Host.Outcome σ φ ρ → Option φ
  | .fault r => some r
  | .next _ => none
  | .refused _ => none

/-- The refusal of a word issued first after reset. -/
def refused (c : Word) : Option Refusal := refusalOf (step { base with inputs := [.word c, .word 0] })

/-! ### Well-formedness -/

theorem test_wf_req_source : (Instr.req 4).wf = false ∧ (Instr.req 3).wf = true := by decide

theorem test_wf_tick_device_host_command :
    Tick.wf ⟨false, [.command .commit], ⟨[], 0, 0, ⟨0, 0, 0, 0, 0, 0⟩⟩⟩ = false := by decide

theorem test_wf_tick_device_ill_formed :
    Tick.wf ⟨false, [.command (.req 4)], ⟨[], 0, 0, ⟨0, 0, 0, 0, 0, 0⟩⟩⟩ = false := by decide

theorem test_wf_tick_cpu_device_command :
    Tick.wf ⟨false, [], ⟨[.command (.req 3)], 0, 0, ⟨0, 0, 0, 0, 0, 0⟩⟩⟩ = false := by decide

theorem test_wf_tick_cost :
    Tick.wf ⟨false, [], ⟨[], -1, 0, ⟨0, 0, 0, 0, 0, 0⟩⟩⟩ = false ∧
    Tick.wf ⟨false, [], ⟨[], 0, -1, ⟨0, 0, 0, 0, 0, 0⟩⟩⟩ = false := by decide

theorem test_wf_tick_accepts :
    Tick.wf ⟨true, [.command (.req 1), .chipWrite 0 [1]], ⟨[.command .rdDmaconr], 8, 7, ⟨1, 2, 0, 0, 0, 0⟩⟩⟩ = true := by
  decide

theorem test_wf_end_of_line_pace :
    let t : Bool → Tick := fun eol => ⟨eol, [], ⟨[], 0, 0, ⟨0, 0, 0, 0, 0, 0⟩⟩⟩
    eolPaced 3 none [t false, t true, t false, t false, t true] = true ∧
    eolPaced 3 none [t true, t false, t true] = false ∧
    eolPaced 3 none [t true, t false, t false, t false] = false := by decide

theorem test_wf_params : vectorParams.wf = true ∧ Params.wf { vectorParams with rate := 0 } = false ∧
    Params.wf { vectorParams with prio := vectorParams.prio.set 3 0 } = false ∧
    Params.wf { vectorParams with dmaconWmask := 0xFFFF#16 } = false := by decide

/-! ### Decoding, bit by bit from 30_encoding.md R80 to R86 and 95_test_vectors.md section 2.1 -/

-- class 0010, must-be-0 000, offset 000011100 (0x01C)
theorem test_decode_rd_intenar : decode .default 0b0010000000011100#16 none = .ok .rdIntenar := by decide

-- class 0001, must-be-0 000, offset 010011110 (0x09E), then the operand
theorem test_decode_wr_adkcon :
    decode .default 0b0001000010011110#16 (some 0x8011#16) = .ok (.wrAdkcon 0x8011#16) := by decide

-- class 0001, must-be-0 000, offset 011000110 (0x0C6): channel 2's period
theorem test_decode_wr_aud2per :
    decode .default 0b0001000011000110#16 (some 300#16) = .ok (.wrAud2Per 300#16) := by decide

-- class 0001, must-be-0 000, offset 010111010 (0x0BA): channel 1's data
theorem test_decode_wr_aud1dat :
    decode .default 0b0001000010111010#16 (some 7#16) = .ok (.wrAud1Dat 7#16) := by decide

-- class 0011, must-be-0 0000000000, source 10 (Blitter)
theorem test_decode_req : decode .default 0b0011000000000010#16 none = .ok (.req 2) := by decide

-- class 0100, must-be-0 0000000, asserted 1, bit 0111
theorem test_decode_aint : decode .default 0b0100000000010111#16 none = .ok (.aint 7 true) ∧
    decode .default 0b0100000000000111#16 none = .ok (.aint 7 false) := by decide

-- class 0101, must-be-0 000000000, level 110
theorem test_decode_gayle : decode .default 0b0101000000000110#16 none = .ok (.gayle 6) := by decide

theorem test_decode_tick_commands :
    decode .default 0x6000#16 none = .ok .audpoll ∧ decode .default 0x7000#16 none = .ok .latadv ∧
    decode .default 0x8000#16 none = .ok .commit ∧ decode .default 0x9000#16 none = .ok .reset := by decide

theorem test_decode_reserved : refused 0x0000#16 = some (.rejected .reservedCommand) ∧
    refused 0xA000#16 = some (.rejected .reservedCommand) ∧ refused 0x3004#16 = some (.rejected .reservedCommand) ∧
    refused 0x6001#16 = some (.rejected .reservedCommand) := by decide

theorem test_decode_misaligned : refused 0x1097#16 = some (.rejected .misalignedRegister) := by decide

theorem test_decode_foreign : refused 0x10AC#16 = some (.rejected .foreignRegister) ∧
    refused 0x1180#16 = some (.rejected .foreignRegister) := by decide

theorem test_decode_direction : refused 0x2096#16 = some (.rejected .wrongDirection) ∧
    refused 0x1002#16 = some (.rejected .wrongDirection) ∧ refused 0x20A6#16 = some (.rejected .wrongDirection) := by decide

/-- Under the default map the rows are those of spec/opcode_table.json, with its numbers. -/
theorem test_rows_are_the_table :
    (readRows .default).map (fun r => (r.mnemonic, r.pattern, r.mask)) =
      [("RD_DMACONR", 0x2002#16, 0xFFFF#16), ("RD_ADKCONR", 0x2010#16, 0xFFFF#16), ("RD_INTENAR", 0x201C#16, 0xFFFF#16),
        ("RD_INTREQR", 0x201E#16, 0xFFFF#16)] ∧
    (setClearRows .default).map (fun r => (r.mnemonic, r.pattern, r.mask)) =
      [("WR_DMACON", 0x1096#16, 0xFFFF#16), ("WR_INTENA", 0x109A#16, 0xFFFF#16), ("WR_INTREQ", 0x109C#16, 0xFFFF#16),
        ("WR_ADKCON", 0x109E#16, 0xFFFF#16)] ∧
    (audio0Rows (RegMap.default.audio[0])).map (fun r => (r.mnemonic, r.pattern, r.mask)) =
      [("WR_AUD0LCH", 0x10A0#16, 0xFFFF#16), ("WR_AUD0LCL", 0x10A2#16, 0xFFFF#16), ("WR_AUD0LEN", 0x10A4#16, 0xFFFF#16),
        ("WR_AUD0PER", 0x10A6#16, 0xFFFF#16), ("WR_AUD0VOL", 0x10A8#16, 0xFFFF#16), ("WR_AUD0DAT", 0x10AA#16, 0xFFFF#16)] ∧
    (audio1Rows (RegMap.default.audio[1])).map (fun r => (r.mnemonic, r.pattern, r.mask)) =
      [("WR_AUD1LCH", 0x10B0#16, 0xFFFF#16), ("WR_AUD1LCL", 0x10B2#16, 0xFFFF#16), ("WR_AUD1LEN", 0x10B4#16, 0xFFFF#16),
        ("WR_AUD1PER", 0x10B6#16, 0xFFFF#16), ("WR_AUD1VOL", 0x10B8#16, 0xFFFF#16), ("WR_AUD1DAT", 0x10BA#16, 0xFFFF#16)] ∧
    (audio2Rows (RegMap.default.audio[2])).map (fun r => (r.mnemonic, r.pattern, r.mask)) =
      [("WR_AUD2LCH", 0x10C0#16, 0xFFFF#16), ("WR_AUD2LCL", 0x10C2#16, 0xFFFF#16), ("WR_AUD2LEN", 0x10C4#16, 0xFFFF#16),
        ("WR_AUD2PER", 0x10C6#16, 0xFFFF#16), ("WR_AUD2VOL", 0x10C8#16, 0xFFFF#16), ("WR_AUD2DAT", 0x10CA#16, 0xFFFF#16)] ∧
    (audio3Rows (RegMap.default.audio[3])).map (fun r => (r.mnemonic, r.pattern, r.mask)) =
      [("WR_AUD3LCH", 0x10D0#16, 0xFFFF#16), ("WR_AUD3LCL", 0x10D2#16, 0xFFFF#16), ("WR_AUD3LEN", 0x10D4#16, 0xFFFF#16),
        ("WR_AUD3PER", 0x10D6#16, 0xFFFF#16), ("WR_AUD3VOL", 0x10D8#16, 0xFFFF#16), ("WR_AUD3DAT", 0x10DA#16, 0xFFFF#16)] ∧
    (controlRows).map (fun r => (r.mnemonic, r.pattern, r.mask)) =
      [("REQ", 0x3000#16, 0xFFFC#16), ("AINT", 0x4000#16, 0xFFE0#16), ("GAYLE", 0x5000#16, 0xFFF8#16),
        ("AUDPOLL", 0x6000#16, 0xFFFF#16), ("LATADV", 0x7000#16, 0xFFFF#16), ("COMMIT", 0x8000#16, 0xFFFF#16),
        ("RESET", 0x9000#16, 0xFFFF#16)] := by
  refine ⟨rfl, rfl, rfl, rfl, rfl, rfl, rfl⟩

/-- `P_REG_ADDR` with DMACON and INTENA at each other's default offset. -/
def swappedMap : RegMap := { RegMap.default with dmacon := 0x09A#9, intena := 0x096#9 }

theorem test_wf_register_map : swappedMap.wf = true ∧ RegMap.wf { RegMap.default with dmacon := 0x097#9 } = false ∧
    RegMap.wf { RegMap.default with dmacon := 0x09A#9 } = false ∧
    RegMap.wf { RegMap.default with dmaconr := 0x096#9 } = false := by decide

/-- The step decodes by the map of its state (R82). -/
theorem test_step_reads_the_map :
    nextOf (step { base with cfg := { vectorParams with regAddr := swappedMap }
                             inputs := [.word 0x1096#16, .word 0xC000#16] }) =
      some { intState 0x4000#16 0 with cfg := { vectorParams with regAddr := swappedMap } } := by decide

/-- Every row of the table decodes from its table word to a command of one or two words, and runs first after reset. -/
theorem test_rows_run_after_reset :
    ((opcodeRows .default).all fun r => (decodeTableWord 16 r.pattern.toNat).isSome &&
      (nextOf (step (State.reset.withFetchWord 16 r.pattern.toNat))).isSome) = true := by decide

/-- A table word of 32 bits holds the operand in its bits 31 to 16. -/
theorem test_table_word_operand : decodeTableWord 32 0x82011096 = some (.wrDmacon 0x8201#16) := by decide

/-! ### DMA arbiter -/

theorem test_A1_wr_dmacon : after (.wrDmacon 0x8201#16) (channel0 (playing 0 0 0) 0 0 0 0)
    (fun s => (s.dma.dmacon, s.ints.intreq, s.chan 0)) =
    some (0x0201#16, 0x0080#16, playing 100 4 0x1000#32) := by decide

theorem test_A2_wr_dmacon_all : after (.wrDmacon 0xFFFF#16) base (fun s => (s.dma.dmacon, s.ints.intreq, s.log)) =
    some (0x3FFF#16, 0x0780#16, [.intAssert 7, .intAssert 8, .intAssert 9, .intAssert 10,
      .notify 4, .notify 5, .notify 6, .notify 7, .notify 8]) := by decide

theorem test_A13_A14_arm_trigger :
    after (.wrDmacon 0x8200#16) (arbiterState 0x0001#16 ⟨false, false, false, false⟩)
      (fun s => (s.dma.dmacon, (s.chan 0).mode)) = some (0x0201#16, .idle) ∧
    after (.wrDmacon 0x8200#16)
      { arbiterState 0x0001#16 ⟨false, false, false, false⟩ with cfg := { vectorParams with armTrigger := .effective } }
      (fun s => (s.dma.dmacon, (s.chan 0).mode)) = some (0x0201#16, .dma) := by decide

theorem test_A16_rd_dmaconr : after .rdDmaconr (arbiterState 0x0400#16 ⟨false, false, false, false⟩)
    (fun s => s.lastRead) = some (some 0x0400#16) := by decide

theorem test_A12_enabled : let s := arbiterState 0x0201#16 ⟨false, false, false, false⟩
    s.isEnabled 0 = true ∧ s.isEnabled 1 = false ∧ s.isEnabled 9 = true := by decide

theorem test_A10_req : after (.req 3) (arbiterState 0 ⟨true, false, false, true⟩)
    (fun s => s.dma.waiting) = some ⟨true, false, false, true⟩ := by decide

theorem test_A7_commit : after .commit (arbiterState 0x0200#16 ⟨false, false, true, true⟩)
    (fun s => (s.dma.lastGrant, s.dma.waiting, s.cpuWait)) =
    some (some .blitter, ⟨false, false, false, true⟩, true) := by decide

theorem test_A8_commit_without_master : after .commit (arbiterState 0 ⟨false, false, true, true⟩)
    (fun s => (s.dma.lastGrant, s.dma.waiting, s.cpuWait)) =
    some (some .cpu, ⟨false, false, true, false⟩, false) := by decide

/-! ### Interrupt controller -/

theorem test_I1_to_I8_levels : (intState 0x7FFF#16 0).paula = 0 ∧ (intState 0x0080#16 0x0080#16).paula = 0 ∧
    (intState 0x4080#16 0x0080#16).paula = 4 ∧ (intState 0x4001#16 0x0081#16).paula = 1 ∧
    (intState 0x6081#16 0x2081#16).paula = 6 ∧ (intState 0x4C00#16 0x0C00#16).paula = 5 ∧
    (intState 0x4008#16 0x0008#16).paula = 2 ∧ (intState 0x4070#16 0x0070#16).paula = 3 := by decide

theorem test_I11_I12_wr_intena :
    after (.wrIntena 0xC080#16) base (fun s => s.ints.intena) = some 0x4080#16 ∧
    after (.wrIntena 0x0080#16) (intState 0x4080#16 0) (fun s => s.ints.intena) = some 0x4000#16 := by decide

theorem test_I15_wr_intreq :
    after (.wrIntreq 0x0080#16) (intState 0 0x0280#16) (fun s => s.ints.intreq) = some 0x0200#16 := by decide

theorem test_I16_I18_aint : after (.aint 9 true) base (fun s => s.ints.intreq) = some 0x0200#16 ∧
    after (.aint 9 false) (intState 0 0x0200#16) (fun s => s.ints.intreq) = some 0 := by decide

theorem test_I19_aint_15 :
    faultOf (step (base.withFetchWord 16 0x401F)) = some (.badInterruptBit 0x401F#16) := by decide

theorem test_I20_reads : let s := intState 0x4080#16 0x0080#16
    after .rdIntreqr s (fun t => (t.lastRead, t.ints)) = some (some 0x0080#16, s.ints) ∧
    after .rdIntenar s (fun t => (t.lastRead, t.ints)) = some (some 0x4080#16, s.ints) := by decide

theorem test_G3_gayle : after (.gayle 6) (intState 0x4080#16 0x0080#16) (fun s => s.ipl) = some 6 := by decide

theorem test_G6_gayle_funnel :
    after (.gayle 2) { base with cfg := { vectorParams with gayleBit := some 3 } }
      (fun s => (s.ints.intreq, s.paula, s.ipl)) = some (0x0008#16, 0, 2) := by decide

theorem test_P5_latadv :
    after .latadv (latState 2 0x4080#16 0 [4, 4] 0) (fun s => (s.ints.latQ, s.ints.lagLevel)) =
      some ([4, 0], 4) := by decide

theorem test_latadv_filling :
    after .latadv (latState 2 0x4080#16 0x0080#16 [4] 0) (fun s => (s.ints.latQ, s.ints.lagLevel)) =
      some ([4, 4], 0) := by decide

/-! ### Audio registers -/

theorem test_R1_wr_lch : after (.wrAud1Lch 0xFFFF#16) base (fun s => (s.chan 1).pointer) = some 0xFFFF0000#32 := by decide

theorem test_R2_wr_lcl :
    after (.wrAud0Lcl 0x2001#16) { base with chans := #v[{ Channel.reset with pointer := 0x00021000#32 }, .reset, .reset,
      .reset] } (fun s => (s.chan 0).pointer) = some 0x00022000#32 := by decide

theorem test_pointers_of_channels_2_3 :
    after (.wrAud2Lch 0x0002#16) base (fun s => (s.chan 2).pointer) = some 0x00020000#32 ∧
    after (.wrAud3Lcl 0x1001#16) base (fun s => (s.chan 3).pointer) = some 0x00001000#32 ∧
    after (.wrAud0Lch 0x0002#16) base (fun s => (s.chan 0).pointer) = some 0x00020000#32 ∧
    after (.wrAud1Lcl 0x1001#16) base (fun s => (s.chan 1).pointer) = some 0x00001000#32 := by decide

theorem test_pointers_of_channels_2_3_other_half :
    after (.wrAud2Lcl 0x1001#16) base (fun s => (s.chan 2).pointer) = some 0x00001000#32 ∧
    after (.wrAud3Lch 0x0002#16) base (fun s => (s.chan 3).pointer) = some 0x00020000#32 := by decide

theorem test_R3_wr_len : after (.wrAud0Len 9#16) (channel0 (playing 50 3 0x1002#32) 0x0201#16 0 0 0)
    (fun s => ((s.chan 0).length, (s.chan 0).workingLength)) = some (9, 3) := by decide

theorem test_lengths_of_channels : after (.wrAud1Len 9#16) base (fun s => (s.chan 1).length) = some 9 ∧
    after (.wrAud2Len 9#16) base (fun s => (s.chan 2).length) = some 9 ∧
    after (.wrAud3Len 9#16) base (fun s => (s.chan 3).length) = some 9 := by decide

theorem test_periods_of_channels : after (.wrAud0Per 100#16) base (fun s => (s.chan 0).period) = some 100 ∧
    after (.wrAud1Per 100#16) base (fun s => (s.chan 1).period) = some 100 ∧
    after (.wrAud2Per 100#16) base (fun s => (s.chan 2).period) = some 100 ∧
    after (.wrAud3Per 100#16) base (fun s => (s.chan 3).period) = some 100 := by decide

theorem test_V1_to_V8_volume_mask : mapVolume 0x0000#16 = 0 ∧ mapVolume 0x003F#16 = 63 ∧ mapVolume 0x0040#16 = 64 ∧
    mapVolume 0x0041#16 = 64 ∧ mapVolume 0x007F#16 = 64 ∧ mapVolume 0x0080#16 = 0 ∧ mapVolume 0x00BF#16 = 63 ∧
    mapVolume 0x1234#16 = 52 ∧ mapVolume 0xFFC5#16 = 64 := by decide

theorem test_volumes_of_channels : after (.wrAud0Vol 0x1234#16) base (fun s => (s.chan 0).volume) = some 52 ∧
    after (.wrAud1Vol 0x0050#16) base (fun s => (s.chan 1).volume) = some 64 ∧
    after (.wrAud2Vol 0x003F#16) base (fun s => (s.chan 2).volume) = some 63 ∧
    after (.wrAud3Vol 0x0080#16) base (fun s => (s.chan 3).volume) = some 0 := by decide

theorem test_R4_wr_dat :
    after (.wrAud2Dat 0x7F80#16) { base with chans := #v[.reset, .reset, { playing 20 3 0x1002#32 with period := 300 },
      .reset] } (fun s => ((s.chan 2).data, (s.chan 2).mode, (s.chan 2).workingPeriod, s.ints.intreq)) =
      some (0x7F80#16, .interrupt, 300, 0) := by decide

theorem test_data_of_channels : after (.wrAud0Dat 7#16) base (fun s => ((s.chan 0).data, (s.chan 0).mode)) =
      some (7, .interrupt) ∧
    after (.wrAud1Dat 7#16) base (fun s => ((s.chan 1).data, (s.chan 1).mode)) = some (7, .interrupt) ∧
    after (.wrAud3Dat 7#16) base (fun s => ((s.chan 3).data, (s.chan 3).mode)) = some (7, .interrupt) := by decide

theorem test_R7_R8_wr_adkcon :
    after (.wrAdkcon 0x8011#16) base (fun s => (s.adkcon, (s.chan 0).modulatingVp, (s.chan 0).modulateToggle)) =
      some (0x0011#16, false, true) ∧
    after (.wrAdkcon 0x8088#16) base (fun s => (s.adkcon, s.modActive 3, (s.chan 3).modulateToggle)) =
      some (0x0088#16, false, false) := by decide

theorem test_R9_wr_adkcon_resets_phase :
    after (.wrAdkcon 0x8000#16) (channel0 { Channel.reset with modulatingVp := true } 0 0x0011#16 0 0)
      (fun s => (s.adkcon, (s.chan 0).modulatingVp)) = some (0x0011#16, false) := by decide

theorem test_R10_rd_adkconr :
    after .rdAdkconr (channel0 .reset 0 0x0011#16 0 0) (fun s => s.lastRead) = some (some 0x0011#16) := by decide

/-! ### Audio state machine: the subroutines of AUDPOLL -/

theorem test_M3_fetch : (fun t : State => (t.log, t.chan 0))
    (channelPoll 0 (channel0 (playing 50 3 0x1002#32) 0x0201#16 0 0x03 0x04)) =
    ([.memRead 0x1002#32 0x0304#16], { playing 100 2 0x1004#32 with data := 0x0304#16 }) := by decide

theorem test_M6_volume_modulation : (fun t : State => ((t.chan 1).volume, (t.chan 0).data, (t.chan 0).modulatingVp))
    (channelPoll 0 (channel0 (playing 50 3 0x1002#32) 0x0201#16 0x0001#16 0x00 0xC5)) = (64, 0, false) := by decide

theorem test_M7_period_modulation : (fun t : State => ((t.chan 1).workingPeriod, (t.chan 0).data))
    (channelPoll 0 (channel0 { playing 50 3 0x1002#32 with modulatingVp := true } 0x0201#16 0x0010#16 0x01 0x90)) =
    (400, 0) := by decide

theorem test_M11_restart : (fun t : State => (t.ints.intreq, (t.chan 0).workingPointer, (t.chan 0).workingLength))
    (channelPoll 0 (channel0 (playing 50 1 0x1002#32) 0x0201#16 0 0x03 0x04)) = (0x0080#16, 0x1000#32, 4) := by decide

theorem test_M14_fetch_then_idle : (fun t : State => (t.ints.intreq, (t.chan 0).mode, (t.chan 0).data))
    (channelPoll 0 (channel0 (playing 50 3 0x1002#32) 0x0200#16 0 0x03 0x04)) = (0x0080#16, .idle, 0x0304#16) := by decide

theorem test_M15_M16_interrupt_poll :
    let s := { base with chans := #v[.reset, .reset, interrupting 40, .reset] }
    ((intPoll 2 s).ints.intreq, ((intPoll 2 s).chan 2).workingPeriod) = (0x0200#16, 90) ∧
    (fun t : State => ((t.chan 2).mode, (t.chan 2).workingPeriod, t.log))
      (intPoll 2 { s with ints := { s.ints with intreq := 0x0200#16 } }) = (.idle, -10, []) := by decide

theorem test_M2_audpoll : after .audpoll (channel0 (playing 100 4 0x1000#32) 0x0201#16 0 0 0)
    (fun s => ((s.chan 0).workingPeriod, s.log)) = some (50, []) := by decide

theorem test_M18_audpoll_idle : after .audpoll base id = some base := by decide

theorem test_M19_pointer_wraps : pointerNext vectorParams.ptrMask 0xFFFFFFFE#32 = 0 := by decide

/-! ### Reset and host -/

theorem test_reset : after .reset { channel0 (playing 50 3 0x1002#32) 0x0201#16 0x0011#16 3 4 with
      ints := ⟨0x4080#16, 0x0080#16, 5, [4, 4], 4⟩ } (fun s => (s.ints, s.dma, s.chans, s.adkcon, s.ipl)) =
    some (IntCtl.reset, base.dma, base.chans, 0, 0) := by decide

theorem test_H1_report : (nextOf (step { base with inputs := [.cpuReport 8 7 ⟨1, 1, 0, 0, 1, 0⟩] })).map (fun s => s.host) =
    some ⟨7, 3⟩ := by decide

theorem test_H1_pay : (nextOf (step { base with host := ⟨7, 3⟩, inputs := [.payCycle] })).map (fun s => s.host) =
      some ⟨6, 3⟩ ∧
    (nextOf (step { base with host := ⟨6, 3⟩, inputs := [.bookkeep] })).map (fun s => s.host) = some ⟨6, 2⟩ := by decide

theorem test_debug_refused :
    refusalOf (step { base with inputs := [.debugDma none] }) = some .debugOperation := by decide

theorem test_missing_operand :
    refusalOf (step { base with inputs := [.word 0x1096#16] }) = some (.rejected .missingOperand) := by decide

theorem test_request_of_no_source :
    faultOf (step { base with inputs := [.requestSlot 4 0] }) = some (.unknownSource 4) := by decide

/-- R91's text of a command of each shape. -/
theorem test_asm_text : asmText (.wrAud2Per 300) = "WR AUD2PER, #300" ∧ asmText .rdIntenar = "RD INTENAR" ∧
    asmText (.req 3) = "REQ CPU" ∧ asmText (.aint 7 true) = "AINT 7, 1" ∧ asmText (.gayle 2) = "GAYLE #2" ∧
    asmText .audpoll = "AUDPOLL" := by decide

/-! ### Witnesses: for each obligation with hypotheses, a state and operands that meet them -/

/-- A state with the arbiter enabled and some inputs waiting. -/
def issued (inputs : List Input) : State := { arbiterState 0x0201#16 ⟨false, false, true, true⟩ with inputs := inputs }

theorem base_inv : base.Inv := by decide

theorem witness_CommandsDecodeFromTheirOwnWords :
    swappedMap.wf = true ∧ (Instr.req 3).wf = true ∧ (Instr.aint 15 false).wf = true ∧
    (Instr.wrAud3Dat 0xFFFF#16).wf = true := by decide

theorem witness_AcceptedWordsAreTheirCommandsEncoding :
    decode swappedMap 0x1096#16 (some 0xFFFF#16) = .ok (.wrIntena 0xFFFF#16) ∧
    decode .default 0x5007#16 (some 1#16) = .ok (.gayle 7) := by decide

theorem witness_OpcodeRowsAreDisjointAndDecodeTheirWords :
    RegMap.default.wf = true ∧ (∃ r ∈ opcodeRows .default, 0x401F#16 &&& r.mask = r.pattern ∧ r.mnemonic = "AINT") ∧
    ∃ r ∈ opcodeRows .default, 0x1096#16 &&& r.mask = r.pattern ∧ r.mnemonic = "WR_DMACON" := by decide

/-- One word for each clause, at a boundary of its range, alone and before an input of each kind. -/
theorem witness_WordsThatAreNoCommandAreRefused :
    let m := base.cfg.regAddr
    let off : Word → Offset := fun c => c.extractLsb' 0 9
    base.cfg.regAddr.wf = true ∧ (issued [.word 0x0FFF#16]).inputs = .word 0x0FFF#16 :: [] ∧
    (issued [.word 0x1297#16, .bookkeep]).inputs = .word 0x1297#16 :: [.bookkeep] ∧
    (issued [.word 0x1297#16, .word 0]).inputs = .word 0x1297#16 :: [.word 0] ∧
    (0x0FFF#16).toNat / 4096 = 0 ∧ 10 ≤ (0xA000#16).toNat / 4096 ∧
    ((0x1296#16).toNat / 4096 = 1 ∧ (0x1296#16).toNat / 512 % 8 ≠ 0) ∧
    ((0x2003#16).toNat / 4096 = 2 ∧ (0x2003#16).toNat / 512 % 8 = 0 ∧ (off 0x2003#16).getLsbD 0 = true) ∧
    ((0x1002#16).toNat / 4096 = 1 ∧ (0x1002#16).toNat / 512 % 8 = 0 ∧ off 0x1002#16 ∈ m.readOffsets) ∧
    ((0x20DA#16).toNat / 4096 = 2 ∧ (0x20DA#16).toNat / 512 % 8 = 0 ∧ off 0x20DA#16 ∈ m.writeOffsets) ∧
    ((0x11FE#16).toNat / 4096 = 1 ∧ (0x11FE#16).toNat / 512 % 8 = 0 ∧ (off 0x11FE#16).getLsbD 0 = false ∧
      off 0x11FE#16 ∉ m.readOffsets ∧ off 0x11FE#16 ∉ m.writeOffsets) ∧
    ((0x10DA#16).toNat / 4096 = 1 ∧ off 0x10DA#16 ∈ m.writeOffsets) ∧
    ((0x3004#16).toNat / 4096 = 3 ∧ (0x3004#16).toNat / 4 % 1024 ≠ 0) ∧
    ((0x4020#16).toNat / 4096 = 4 ∧ (0x4020#16).toNat / 32 % 128 ≠ 0) ∧
    ((0x5008#16).toNat / 4096 = 5 ∧ (0x5008#16).toNat / 8 % 512 ≠ 0) ∧
    ((0x9FFF#16).toNat / 4096 = 9 ∧ (0x9FFF#16).toNat % 4096 ≠ 0) := by decide

theorem witness_StepRunsTheDecodedCommand : base.cfg.regAddr.wf = true ∧ (Instr.wrDmacon 0x8001#16).wf = true ∧
    (issued [.word 0x1096#16, .word 0x8001#16, .bookkeep]).inputs =
      (encode base.cfg.regAddr (.wrDmacon 0x8001#16)).map Input.word ++ [.bookkeep] := by decide

theorem witness_EveryCommandCompletes : (Instr.aint 14 true).wf = true ∧ (∀ a, Instr.aint 14 true ≠ .aint 15 a) ∧
    (Instr.aint 15 true).wf = true := by decide

theorem witness_EveryStepKeepsTheInvariants :
    (issued [.word 0x8000#16]).Inv ∧ ∃ t, step (issued [.word 0x8000#16]) = .next t ∧ t.dma.lastGrant = some .blitter :=
  ⟨by decide, _, rfl, by decide⟩

theorem witness_NoStepChangesAParameter : ∃ t, step (issued [.chipWrite 0x1000#32 [1, 2]]) = .next t ∧ t.mem ≠ [] :=
  ⟨_, rfl, by decide⟩

theorem witness_NoCommandWritesChipMemory :
    ∃ t, exec .audpoll (channel0 (playing 50 1 0x1002#32) 0x0201#16 0 3 4) = .next t ∧ t.log ≠ [] :=
  ⟨_, rfl, by decide⟩

/-- Each clause's change happens in some state. -/
theorem witness_RegistersOutsideTheChannelsChangeOnlyByTheirOwnCommands :
    after (.wrIntreq 0x8080#16) base (fun t => decide (t.ints.intreq ≠ base.ints.intreq)) = some true ∧
    after .latadv (latState 1 0 0 [4] 0) (fun t => (t.ints.latQ, t.ints.lagLevel)) = some ([0], 4) ∧
    after (.wrDmacon 0x8200#16) base (fun t => decide (t.dma.dmacon ≠ base.dma.dmacon)) = some true ∧
    after (.wrIntena 0xC000#16) base (fun t => decide (t.ints.intena ≠ base.ints.intena)) = some true ∧
    after (.wrAdkcon 0x8001#16) base (fun t => decide (t.adkcon ≠ base.adkcon)) = some true ∧
    after (.gayle 7) base (fun t => decide (t.ints.gayleLevel ≠ base.ints.gayleLevel)) = some true ∧
    after .commit (issued []) (fun t => (t.dma.lastGrant, t.dma.waiting.get .blitter)) = some (some .blitter, false) ∧
    (issued []).dma.waiting.get .blitter = true ∧
    after (.req 0) base (fun t => t.dma.waiting.get .agnus) = some true ∧ base.dma.waiting.get .agnus = false ∧
    after .rdAdkconr base (fun t => decide (t.lastRead ≠ base.lastRead)) = some true := by decide

theorem witness_PendingBitsChangeOnlyAsTheSpecSays :
    (intState 0 0x0080#16).ints.intreq.getLsbD 7 = true ∧
    after (.wrIntreq 0x0080#16) (intState 0 0x0080#16) (fun t => t.ints.intreq.getLsbD 7) = some false ∧
    base.ints.intreq.getLsbD 14 = false ∧
    after (.aint 14 true) base (fun t => t.ints.intreq.getLsbD 14) = some true := by decide

theorem witness_ReadsReturnTheStoredRegister :
    base.Inv ∧ base.cfg.wf = true ∧ base.cfg.dmaconWmask.getLsbD 14 = false := by decide

theorem witness_SetClearWritesAreIdempotent (d : Word) :
    Instr.wrAdkcon d ∈ [Instr.wrDmacon d, .wrIntena d, .wrIntreq d, .wrAdkcon d] ∧
    Instr.wrDmacon d ∈ [Instr.wrDmacon d, .wrIntena d, .wrIntreq d, .wrAdkcon d] ∧
    (∃ t, exec (.wrAdkcon d) base = .next t) ∧ ∃ t, exec (.wrDmacon d) base = .next t :=
  ⟨by simp, by simp, ⟨_, rfl⟩, ⟨_, rfl⟩⟩

theorem witness_IntenaWriteSetsOrClears : (0x4000#16).getLsbD 15 = false ∧
    (0x4000#16).getLsbD base.cfg.globalEnBit = true ∧ (intState 0x4080#16 0x0080#16).paula ≠ 0 := by decide

theorem witness_ClearingDmaconDisturbsNothingElse : (0x0001#16).getLsbD 15 = false ∧ base.cfg.wf = true := by decide

theorem witness_EnableQueryNeedsTheMasterBit : base.Inv ∧ base.cfg.dmaconWmask.getLsbD 15 = false := by decide

theorem witness_RequestDeclaresTheSourceWaiting :
    ((3 : Nat), Source.cpu) ∈ [(0, Source.agnus), (1, .copper), (2, .blitter), (3, .cpu)] ∧
    (issued []).dma.waiting.get .cpu = true ∧ 4 ≤ 4 ∧
    (issued [.requestSlot 3 9]).inputs = .requestSlot 3 9 :: [] ∧
    (issued [.requestSlot 4 0]).inputs = .requestSlot 4 0 :: [] := by decide

theorem witness_BlitterPriorityBitDoesNotAffectCommit : base.cfg.dmaenBit ≠ 10 := by decide

theorem witness_PaulaLevelIsThePriorityOfTheHighestBit :
    (0x0080#16).getLsbD vectorParams.globalEnBit = false ∧ 0x0080#16 &&& 0x4001#16 = 0 ∧
    (0x6081#16).getLsbD vectorParams.globalEnBit = true ∧ (0x2081#16 &&& 0x6081#16).getLsbD (13 : Fin 16) = true ∧
    ∀ j : Nat, 13 < j → j < 16 → (0x2081#16 &&& 0x6081#16).getLsbD j = false := by
  refine ⟨by decide, by decide, by decide, by decide, fun j h1 h2 => ?_⟩
  have : j = 14 ∨ j = 15 := by omega
  rcases this with rfl | rfl <;> decide

theorem witness_LatencyAdvancePopsThenPushes :
    (latState 0 0 0 [] 0).cfg.depth = 0 ∧
    (0 < (latState 1 0 0 [] 0).cfg.depth ∧ (latState 1 0 0 [] 0).ints.latQ.length ≠ (latState 1 0 0 [] 0).cfg.depth) ∧
    (0 < (latState 1 0 0 [4] 0).cfg.depth ∧ (latState 1 0 0 [4] 0).ints.latQ.length = (latState 1 0 0 [4] 0).cfg.depth ∧
      (latState 1 0 0 [4] 0).ints.latQ = 4 :: []) := by decide

/-- A run of ticks in which nothing but LATADV is issued. -/
def quietTicks : Nat → State
  | 0 => latState 1 0x4080#16 0x0080#16 [] 0
  | t + 1 => { quietTicks t with ints := latAdvance (quietTicks t).cfg (quietTicks t).ints }

theorem witness_VisibleLevelLagsByExactlyTheDepth :
    (∀ t, (quietTicks (t - 1)).cfg.depth = 1 ∧ (quietTicks t).cfg.depth = 1) ∧
    (quietTicks 0).ints.latQ = [] ∧ (quietTicks 0).ints.lagLevel = 0 ∧
    (∀ t, (quietTicks (t + 1 - 1)).ints.latQ = (quietTicks t).ints.latQ ∧
      (quietTicks (t + 1 - 1)).ints.lagLevel = (quietTicks t).ints.lagLevel) ∧
    (∀ t, exec .latadv (quietTicks (t + 1 - 1)) = .next (quietTicks (t + 1))) ∧ (quietTicks 0).paula = 4 := by
  have h : ∀ t, (quietTicks t).cfg.depth = 1 := by
    intro t
    induction t with
    | zero => rfl
    | succ t ih => exact ih
  exact ⟨fun t => ⟨h _, h t⟩, rfl, rfl, fun _ => ⟨rfl, rfl⟩, fun _ => rfl, by decide⟩

theorem witness_OnlyLatadvAndResetChangeTheLatencyQueue :
    Instr.wrIntena 0xC000#16 ≠ .latadv ∧ Instr.wrIntena 0xC000#16 ≠ .reset ∧
    (∃ t, exec (.wrIntena 0xC000#16) (latState 1 0 0 [4] 0) = .next t) ∧
    (latState 1 0 0 [4] 0).ints.latQ.length ≤ (latState 1 0 0 [4] 0).cfg.depth :=
  ⟨by decide, by decide, ⟨_, rfl⟩, by decide⟩

theorem witness_IplIsTheMaximumOfPaulaAndGayle : base.cfg.depth = 0 ∧ 0 < (latState 1 0 0 [] 0).cfg.depth := by decide

theorem witness_PointerLengthPeriodAndVolumeWritesChangeNoWorkingCopy (d : Word) :
    Instr.wrAudVol 3 d ∈
      [Instr.wrAudLch 3 d, Instr.wrAudLcl 3 d, Instr.wrAudLen 3 d, Instr.wrAudPer 3 d, Instr.wrAudVol 3 d] ∧
    ∃ t, exec (Instr.wrAudVol 3 d) base = .next t := ⟨by simp, _, rfl⟩

theorem witness_AudpollPollsTheChannelsInOrder :
    (∀ n : ChannelId, (base.chan n).mode = .idle) ∧
    ((channel0 (playing 50 3 0x1002#32) 0x0201#16 0 3 4).chan 0).mode = .dma ∧
    ((channel0 (interrupting 40) 0 0 3 4).chan 0).mode = .interrupt := by decide

/-- Channel 1 fetches the last word of its block, modulates channel 2 and is found disabled: every case at once. -/
theorem witness_DmaPollFollowsTheAlgorithm :
    let s : State := { base with adkcon := 0x0002#16, chans := #v[.reset, playing 50 1 0x1002#32, .reset, .reset]
                                 mem := [(0x1002, 3), (0x1003, 4)] }
    (s.chan 1).workingPeriod - (s.cfg.rate : Int) ≤ 0 ∧ (s.chan 1).workingLength = 1 ∧ s.modActive 1 = true ∧
    s.isEnabled (s.cfg.dmaBit 1) = false := by decide

theorem witness_InterruptPollFollowsTheAlgorithm :
    0 < ((channel0 (interrupting 51) 0 0 3 4).chan 0).workingPeriod - (base.cfg.rate : Int) ∧
    ((channel0 (interrupting 50) 0 0 3 4).chan 0).workingPeriod - (base.cfg.rate : Int) ≤ 0 ∧
    (intState 0 0x0080#16).ints.intreq.getLsbD (base.cfg.intBit 0) = true ∧
    (channel0 (interrupting 50) 0 0 3 4).ints.intreq.getLsbD (base.cfg.intBit 0) = false := by decide

/-- Each row of the table changes a mode in some state. -/
theorem witness_ModeChangesAreTheTransitionTable :
    after (.wrDmacon 0x8201#16) base (fun t => decide ((t.chan 0).mode ≠ (base.chan 0).mode)) = some true ∧
    after (.wrAud0Dat 1#16) base (fun t => decide ((t.chan 0).mode ≠ (base.chan 0).mode)) = some true ∧
    after .audpoll (channel0 (playing 100 3 0x1002#32) 0 0 3 4) (fun t => (t.chan 0).mode) = some .idle ∧
    after .audpoll { channel0 (interrupting 40) 0 0 3 4 with ints := { base.ints with intreq := 0x0080#16 } }
      (fun t => (t.chan 0).mode) = some .idle ∧
    after .reset (channel0 (playing 100 3 0x1002#32) 0 0 3 4) (fun t => (t.chan 0).mode) = some .idle ∧
    ∀ m : ChannelId, m ≠ 0 → base.cfg.intBit m ≠ base.cfg.intBit 0 := by decide

theorem witness_FetchAddressesAreEven :
    (channel0 (playing 50 3 0x1002#32) 0x0201#16 0 3 4).Inv ∧
    after .audpoll (channel0 (playing 50 3 0x1002#32) 0x0201#16 0 3 4) (fun t => fetchAddresses t.log) =
      some [0x1002#32] ∧
    Instr.wrDmacon 0x8201#16 ≠ .audpoll ∧ (∃ t, exec (.wrDmacon 0x8201#16) base = .next t) :=
  ⟨by decide, by decide, by decide, _, rfl⟩

theorem witness_OneFetchPerChannelPerPoll :
    (∃ t, exec .audpoll (channel0 (playing 50 3 0x1002#32) 0x0201#16 0 3 4) = .next t ∧ t.memReads = 1) ∧
    ((channel0 (interrupting 40) 0 0 3 4).chan 0).mode ≠ .dma := ⟨⟨_, rfl, by decide⟩, by decide⟩

/-- Channel `n` expires in DMA mode with the word 0x0190 under its pointer, its modulation as given; channel `n + 1` is as
given. -/
def chained (n : ChannelId) (vp : Bool) (next : Channel) : State :=
  let c : Channel := { playing 50 3 0x1002#32 with modulatingVp := vp }
  { base with
    adkcon := 0x0077#16, mem := [(0x1002, 1), (0x1003, 0x90)]
    chans := match n with
      | 0 => #v[c, next, .reset, .reset]
      | 1 => #v[.reset, c, next, .reset]
      | _ => #v[.reset, .reset, c, next] }

/-- Channel 2 modulates channel 3 in each of its modes, by period and by volume; the word 0x0190 is above `P_RATE`. -/
theorem witness_ModulationLandsBeforeTheNeighboursPoll :
    ∀ next ∈ [Channel.reset, playing 50 3 0x1000#32, interrupting 40], ∀ vp : Bool,
      let s := chained 2 vp next
      let u := s.beforePoll 2
      (3 : ChannelId).val = (2 : ChannelId).val + 1 ∧ (u.chan 2).mode = .dma ∧ (u.chan 2).workingPeriod ≤ s.cfg.rate ∧
      (s.adkcon.getLsbD 2 = true ∨ s.adkcon.getLsbD 6 = true) ∧ (u.chan 2).modulatingVp = vp ∧ s.chan 3 = next := by
  decide

/-- R202: the new working period is counted down in the same AUDPOLL: 0x0190 - 50. -/
theorem test_R202_same_poll : after .audpoll (chained 2 true (interrupting 40)) (fun t => (t.chan 3).workingPeriod) =
    some 350 := by decide

theorem witness_FetchReadsWhatMastersWrote : (0xFFFFFFFE#32).getLsbD 0 = false ∧
    (issued [.chipWrite 0xFFFFFFFE#32 [3, 4]]).inputs = .chipWrite 0xFFFFFFFE#32 [3, 4] :: [] := by decide

/-- Two CPU steps that make no access. -/
def quietRun : CpuRun := ⟨[], 8, 7, ⟨0, 0, 0, 0, 0, 0⟩⟩

theorem witness_TickIssuesItsCommandsInOrder :
    (issued [.tick ⟨true, [.command (.req 1)], quietRun⟩]).inputs =
      .tick ⟨true, [.command (.req 1)], quietRun⟩ :: [] := by decide

theorem witness_CpuRunsOnlyWhenBothBudgetsAreZero :
    (issued [.cpuPhase quietRun]).inputs = .cpuPhase quietRun :: [] ∧
    ((issued []).host.cpuCycles = 0 ∧ (issued []).host.totalWaits = 0) ∧
    0 < ({ issued [] with host := ⟨0, 1⟩ } : State).host.totalWaits ∧
    (0 < ({ issued [] with host := ⟨1, 0⟩ } : State).host.cpuCycles ∧
      ({ issued [] with host := ⟨1, 0⟩ } : State).host.totalWaits = 0) := by decide

theorem witness_CpuReportSetsTheBudgets :
    (issued [.cpuReport 8 7 ⟨1, 1, 0, 0, 1, 0⟩]).inputs = .cpuReport 8 7 ⟨1, 1, 0, 0, 1, 0⟩ :: [] ∧
    (8 : Int) = (8 : Nat) ∧ (-1 : Int) < 0 ∧ (0 : Int) ≤ 0 := by decide

theorem witness_BudgetsArePaidAsTheSpecSays :
    (issued [.payCycle]).inputs = .payCycle :: [] ∧ (issued [.bookkeep]).inputs = .bookkeep :: [] := by decide

/-- H2 and H3: with a ready Blitter, and with no other ready source. -/
theorem witness_QuietTickPaysTheSlotTheCpuWins :
    let s : State := { issued [.tick ⟨false, [], quietRun⟩] with host := ⟨6, 2⟩ }
    let s' : State := { base with host := ⟨0, 1⟩, inputs := [.tick ⟨false, [], quietRun⟩] }
    (0 < s.host.totalWaits ∧ s.inputs = [.tick ⟨false, [], quietRun⟩] ∧ s.ready .blitter) ∧
    0 < s'.host.totalWaits ∧ s'.inputs = [.tick ⟨false, [], quietRun⟩] ∧ ∀ o, o ≠ .cpu → ¬ s'.ready o :=
  ⟨by decide, by decide, rfl, fun o _ h => by cases o <;> exact absurd h.1 (by decide)⟩

theorem witness_AllowedTicksRunSafely :
    let t : Tick := ⟨true, [.command (.aint 14 true), .command (.req 1), .chipWrite 0 [1]], quietRun⟩
    base.cfg.regAddr.wf = true ∧ (∀ u ∈ [t, t], u.wf = true ∧ ∀ a, MasterOp.command (.aint 15 a) ∉ u.devices) ∧
    (issued [.tick t, .tick t]).inputs = [t, t].map Input.tick := by decide

theorem witness_FaultedRunsStayFaulted :
    (∃ f, (⟨base, some (.unknownSource 4), none⟩ : Run).fault = some f) ∧
    step (issued [.word 0x401F#16]) = .fault (.badInterruptBit 0x401F#16) := ⟨⟨_, rfl⟩, rfl⟩

/-- The first refusal of a run and a later one. -/
theorem witness_RefusalsLeaveTheStateAndAMark :
    step (issued [.word 0x3004#16]) = .refused (.rejected .reservedCommand) ∧
    (⟨issued [.word 0x10AC#16, .word 0], none, none⟩ : Run).fault = none ∧
    step (issued [.word 0x10AC#16, .word 0]) = .refused (.rejected .foreignRegister) ∧
    (∃ q, (⟨issued [.word 0x3004#16], none, some .debugOperation⟩ : Run).refusal = some q) ∧
    (issued [.debugDma (some .copper)]).inputs = .debugDma (some .copper) :: [] := ⟨rfl, rfl, rfl, ⟨_, rfl⟩, rfl⟩

/-- A read and a write of the last register of each list. -/
theorem witness_TheWholeOffsetSelectsTheRegister :
    let m := base.cfg.regAddr
    base.cfg.regAddr.wf = true ∧ (0x201E#16).toNat / 512 % 8 = 0 ∧ (0x10DA#16).toNat / 512 % 8 = 0 ∧
    (0x201E#16).toNat / 4096 = 2 ∧ (0x10DA#16).toNat / 4096 = 1 ∧
    (issued [.word 0x201E#16]).inputs = .word 0x201E#16 :: [] ∧
    (issued [.word 0x10DA#16, .word 5]).inputs = .word 0x10DA#16 :: .word 5 :: [] ∧
    ((0x201E#16).extractLsb' 0 9, Instr.rdIntreqr) ∈ [(m.dmaconr, Instr.rdDmaconr), (m.adkconr, .rdAdkconr),
      (m.intenar, .rdIntenar), (m.intreqr, .rdIntreqr)] ∧
    ((0x10DA#16).extractLsb' 0 9, Instr.wrAudDat 3 5#16) = (m.audio[3].dat, Instr.wrAudDat 3 5#16) := by decide

/-- Each clause's change happens in some state; channel 2 modulates channel 3 by volume, then by period. -/
theorem witness_ChannelRegistersChangeOnlyByTheirOwnCommands :
    let differs {α : Type} [DecidableEq α] (i : Instr) (s : State) (n : ChannelId) (f : Channel → α) : Option Bool :=
      after i s (fun t => decide (f (t.chan n) ≠ f (s.chan n)))
    differs (.wrAud3Per 9) base 3 (·.period) = some true ∧ differs (.wrAud3Len 9) base 3 (·.length) = some true ∧
    differs (.wrAud3Lcl 8) base 3 (·.pointer) = some true ∧ differs (.wrAud3Vol 9) base 3 (·.volume) = some true ∧
    differs .audpoll (chained 2 false .reset) 3 (·.volume) = some true ∧
    differs .audpoll (channel0 (playing 50 1 0x1002#32) 0x0201#16 0 3 4) 0 (·.data) = some true ∧
    differs .audpoll (chained 2 true .reset) 3 (·.workingPeriod) = some true ∧
    differs .audpoll (channel0 (playing 50 1 0x1002#32) 0x0201#16 0 3 4) 0 (·.workingLength) = some true ∧
    differs .audpoll (channel0 (playing 50 1 0x1002#32) 0x0201#16 0 3 4) 0 (·.workingPointer) = some true ∧
    differs (.wrAud3Dat 9) base 3 (·.mode) = some true ∧
    differs (.wrAdkcon 0x8040#16) base 2 (·.modulatingVp) = some true ∧
    differs (.wrAdkcon 0x8044#16) base 2 (·.modulateToggle) = some true := by decide

/-- R92's ACK and TICK. -/
theorem test_pseudo_instructions : (Pseudo.ack 9).expand = [.wrIntreq 0x0200#16] ∧
    (Pseudo.tick true).expand = [.audpoll, .latadv, .commit] := by decide

end Sys2Proof.Tests
end

section
/-! PROOFS. The scope family (00_scope.md): the set/clear operation SetClr (R11). -/

namespace Sys2Proof.Machine

/-- A bit that the mask and the operand both hold takes the operand's bit 15 (R11). -/
theorem setClr_bit_selected {v mask : Word} {b : Nat} (old : Word) (hmask : mask.getLsbD b = true)
    (hv : v.getLsbD b = true) : (setClr old v mask).getLsbD b = v.getLsbD 15 := by
  rw [setClr_bit, hmask, hv]
  cases v.getLsbD 15 <;> simp

/-- A bit that the mask or the operand lacks keeps its old value (R11). -/
theorem setClr_bit_unselected {v mask : Word} {b : Nat} (old : Word)
    (h : ¬ (mask.getLsbD b = true ∧ v.getLsbD b = true)) : (setClr old v mask).getLsbD b = old.getLsbD b := by
  rw [setClr_bit]
  by_cases hmask : mask.getLsbD b = true
  · have hv : v.getLsbD b = false := Bool.eq_false_iff.mpr fun hv => h ⟨hmask, hv⟩
    simp [hv]
  · rw [if_neg hmask]

/-- Settles O15: a bit is either selected by mask and operand together or keeps its old value. -/
theorem setClearWritesTheSelectedBits : Obligations.SetClearWritesTheSelectedBits := by
  intro old v mask b
  split
  next h => exact setClr_bit_selected old h.1 h.2
  next h => exact setClr_bit_unselected old h

end Sys2Proof.Machine
end

section
/-! PROOFS. The state family (10_state.md): what a command that answers a next state can do, form by form; the parameters,
the invariants of R41, and who writes which register outside the channels. -/

namespace Sys2Proof.Machine

/-! ### The six writes of an audio channel -/

/-- The registers of an audio channel that a command can write (R32, R82). -/
inductive AudioReg where
  | lch | lcl | len | per | vol | dat

/-- The write of a register of channel `n` (R82). -/
def AudioReg.write : AudioReg → ChannelId → Word → Instr
  | .lch => Instr.wrAudLch | .lcl => Instr.wrAudLcl | .len => Instr.wrAudLen
  | .per => Instr.wrAudPer | .vol => Instr.wrAudVol | .dat => Instr.wrAudDat

/-- What the write does to the channel (R160 to R165). -/
def AudioReg.effect (mask : Addr) (d : Word) (c : Channel) : AudioReg → Channel
  | .lch => { c with pointer := pointerHigh mask c.pointer d }
  | .lcl => { c with pointer := pointerLow mask c.pointer d }
  | .len => { c with length := d }
  | .per => { c with period := d }
  | .vol => { c with volume := mapVolume d }
  | .dat => { c with data := d, mode := .interrupt, workingPeriod := zextInt c.period }

theorem pointerHigh_bit0 {mask p : Addr} (d : Word) (h : p.getLsbD 0 = false) :
    (pointerHigh mask p d).getLsbD 0 = false := by
  rw [pointerHigh_bit _ _ _ _ (by decide), if_pos (by decide), h, Bool.false_and]

theorem pointerLow_bit0 (mask p : Addr) (d : Word) : (pointerLow mask p d).getLsbD 0 = false := by
  rw [pointerLow_bit _ _ _ _ (by decide)]
  simp

/-- The writes keep a channel's invariants (R41). -/
theorem AudioReg.effect_inv (r : AudioReg) (mask : Addr) (d : Word) {c : Channel} (h : c.Inv) :
    (r.effect mask d c).Inv := by
  obtain ⟨hvol, hptr, hwork⟩ := h
  cases r with
  | lch => exact ⟨hvol, pointerHigh_bit0 d hptr, hwork⟩
  | lcl => exact ⟨hvol, pointerLow_bit0 mask c.pointer d, hwork⟩
  | vol => exact ⟨mapVolume_le d, hptr, hwork⟩
  | len | per | dat => exact ⟨hvol, hptr, hwork⟩

/-! ### What a command can do -/

/-- `Executes s i t`: command `i` takes `s` to `t`. One case for each form of command, with the whole next state. -/
inductive Executes (s : State) : Instr → State → Prop
  | read {i : Instr} {w : Word} (h : (i, w) ∈ [(Instr.rdDmaconr, s.dma.dmacon), (.rdAdkconr, s.adkcon),
      (.rdIntenar, s.ints.intena), (.rdIntreqr, s.ints.intreq)]) : Executes s i (s.answer w)
  | wrDmacon (d : Word) : Executes s (.wrDmacon d)
      (armAll s.dma.dmacon (setClr s.dma.dmacon d s.cfg.dmaconWmask)
        (s.setDmacon (setClr s.dma.dmacon d s.cfg.dmaconWmask)))
  | wrIntena (d : Word) : Executes s (.wrIntena d) (s.setIntena (setClr s.ints.intena d regMask))
  | wrIntreq (d : Word) : Executes s (.wrIntreq d) (s.setIntreq (setClr s.ints.intreq d regMask))
  | wrAdkcon (d : Word) : Executes s (.wrAdkcon d) (roleUpdate (s.setAdkcon (setClr s.adkcon d regMask)))
  | audio (r : AudioReg) (n : ChannelId) (d : Word) :
      Executes s (r.write n d) (s.modifyChan n fun c => r.effect s.cfg.ptrMask d c)
  | req (src : Source) : Executes s (.req src.rank) (s.setWaiting src true)
  | aint (b : Fin 16) (a : Bool) (hb : b.val < 15) :
      Executes s (.aint b a) (if a then s.assertInt ⟨b, hb⟩ else s.deassertInt ⟨b, hb⟩)
  | gayle (l : Level) : Executes s (.gayle l) (gayleState l s)
  | audpoll : Executes s .audpoll (pollAll s)
  | latadv : Executes s .latadv { s with ints := latAdvance s.cfg s.ints }
  | commit : Executes s .commit (grant s.winner s)
  | reset : Executes s .reset (blockReset s)

/-- A command that answers a next state does so by the case of its form. -/
theorem executes_of_exec : ∀ {i : Instr} {s t : State}, exec i s = .next t → Executes s i t
  | .rdDmaconr, s, _, h => next_inj h ▸ .read (w := s.dma.dmacon) (by simp)
  | .rdAdkconr, s, _, h => next_inj h ▸ .read (w := s.adkcon) (by simp)
  | .rdIntenar, s, _, h => next_inj h ▸ .read (w := s.ints.intena) (by simp)
  | .rdIntreqr, s, _, h => next_inj h ▸ .read (w := s.ints.intreq) (by simp)
  | .wrDmacon d, _, _, h => next_inj h ▸ .wrDmacon d
  | .wrIntena d, _, _, h => next_inj h ▸ .wrIntena d
  | .wrIntreq d, _, _, h => next_inj h ▸ .wrIntreq d
  | .wrAdkcon d, _, _, h => next_inj h ▸ .wrAdkcon d
  | .wrAud0Lch d, _, _, h => next_inj h ▸ .audio .lch 0 d
  | .wrAud0Lcl d, _, _, h => next_inj h ▸ .audio .lcl 0 d
  | .wrAud0Len d, _, _, h => next_inj h ▸ .audio .len 0 d
  | .wrAud0Per d, _, _, h => next_inj h ▸ .audio .per 0 d
  | .wrAud0Vol d, _, _, h => next_inj h ▸ .audio .vol 0 d
  | .wrAud0Dat d, _, _, h => next_inj h ▸ .audio .dat 0 d
  | .wrAud1Lch d, _, _, h => next_inj h ▸ .audio .lch 1 d
  | .wrAud1Lcl d, _, _, h => next_inj h ▸ .audio .lcl 1 d
  | .wrAud1Len d, _, _, h => next_inj h ▸ .audio .len 1 d
  | .wrAud1Per d, _, _, h => next_inj h ▸ .audio .per 1 d
  | .wrAud1Vol d, _, _, h => next_inj h ▸ .audio .vol 1 d
  | .wrAud1Dat d, _, _, h => next_inj h ▸ .audio .dat 1 d
  | .wrAud2Lch d, _, _, h => next_inj h ▸ .audio .lch 2 d
  | .wrAud2Lcl d, _, _, h => next_inj h ▸ .audio .lcl 2 d
  | .wrAud2Len d, _, _, h => next_inj h ▸ .audio .len 2 d
  | .wrAud2Per d, _, _, h => next_inj h ▸ .audio .per 2 d
  | .wrAud2Vol d, _, _, h => next_inj h ▸ .audio .vol 2 d
  | .wrAud2Dat d, _, _, h => next_inj h ▸ .audio .dat 2 d
  | .wrAud3Lch d, _, _, h => next_inj h ▸ .audio .lch 3 d
  | .wrAud3Lcl d, _, _, h => next_inj h ▸ .audio .lcl 3 d
  | .wrAud3Len d, _, _, h => next_inj h ▸ .audio .len 3 d
  | .wrAud3Per d, _, _, h => next_inj h ▸ .audio .per 3 d
  | .wrAud3Vol d, _, _, h => next_inj h ▸ .audio .vol 3 d
  | .wrAud3Dat d, _, _, h => next_inj h ▸ .audio .dat 3 d
  | .req _, _, _, h => by
    obtain ⟨src, rfl, rfl⟩ := execReq_cases h
    exact .req src
  | .aint b a, _, _, h => by
    obtain ⟨hb, rfl⟩ := execAint_cases h
    exact .aint b a hb
  | .gayle l, _, _, h => next_inj h ▸ .gayle l
  | .audpoll, _, _, h => next_inj h ▸ .audpoll
  | .latadv, _, _, h => next_inj h ▸ .latadv
  | .commit, _, _, h => next_inj h ▸ .commit
  | .reset, _, _, h => next_inj h ▸ .reset

/-- An assertion or a deassertion writes one pending bit (R135), and may add to the log (R45). -/
theorem aint_eq (s : State) (b : Fin 15) (a : Bool) :
    (if a then s.assertInt b else s.deassertInt b) =
      { s.setIntreq (writeBit s.ints.intreq b a) with log := if a then s.log ++ [.intAssert b] else s.log } := by
  cases a <;> rfl

/-- GAYLE writes the level, and may write one pending bit and add to the log (R136, R137). -/
theorem gayleState_eq (l : Level) (s : State) :
    ∃ log, gayleState l s = { s with ints := { s.ints with gayleLevel := l }, log := log } ∨
      ∃ b : Fin 15, s.cfg.gayleBit = some b ∧ gayleState l s =
        { s with ints := { s.ints with gayleLevel := l, intreq := writeBit s.ints.intreq b true }, log := log } := by
  rcases gayleState_cases l s with ⟨h, -⟩ | ⟨b, -, hb, h⟩
  · exact ⟨_, .inl h⟩
  · exact ⟨_, .inr ⟨b, hb, h⟩⟩

/-! ### Parameters -/

/-- No command changes a parameter (R39). -/
theorem exec_cfg {i : Instr} {s t : State} (h : exec i s = .next t) : t.cfg = s.cfg := by
  cases executes_of_exec h with
  | wrDmacon d => exact (armAll_frame _ _ _).cfg
  | aint b a hb => rw [aint_eq]; rfl
  | gayle l => obtain ⟨_, e | ⟨_, -, e⟩⟩ := gayleState_eq l s <;> rw [e]
  | audpoll => exact (pollAll_frame s).cfg
  | commit => rw [grant_eq]
  | read | wrIntena | wrIntreq | wrAdkcon | audio | req | latadv | reset => rfl

/-- Settles O10: a step changes inputs, memory and host counters alone, or runs one command. -/
theorem noStepChangesAParameter : Obligations.NoStepChangesAParameter := by
  intro s t h
  rcases step_cases h with rfl | ⟨_, _, _, rfl, -⟩ | ⟨i, l, h⟩
  · rfl
  · rfl
  · exact exec_cfg (s := { s with inputs := l }) h

/-! ### The invariants of R41 -/

theorem config_params_wf : Config.params.wf = true := by
  have hprio : Config.prioDefault.toList.all (fun l => decide (l ≠ 0)) = true := by
    simp [Config.prioDefault]
  have hregs : RegMap.default.wf = true := by decide
  simp only [Params.wf, Config.params, hprio, hregs]
  simp

theorem reset_inv : State.reset.Inv :=
  ⟨by decide, by decide, by decide, by decide, by decide, Nat.zero_le _, rfl⟩

/-- Settles O8: every register is 0, the queue and memory are empty, and the open parameters are within their bounds by
their form. -/
theorem invariantsHoldAtReset : Obligations.InvariantsHoldAtReset := ⟨reset_inv, config_params_wf⟩

/-- What the audio engine does keeps the invariants, if it keeps those of the channels. -/
theorem AudioFrame.inv {s t : State} (f : AudioFrame s t) (hs : s.Inv) (hc : t.ChansInv) : t.Inv := by
  obtain ⟨hdma, hena, hreq, hadk, -, hq, hmem⟩ := hs
  refine ⟨by rw [f.dmacon, f.cfg]; exact hdma, by rw [f.intena]; exact hena, ?_, by rw [f.adkcon]; exact hadk, hc,
    by rw [f.latQ, f.cfg]; exact hq, by rw [f.mem]; exact hmem⟩
  refine Bool.eq_false_iff.2 fun h => ?_
  rcases f.pendingNew 15 h with e | ⟨n, hn⟩
  · rw [hreq] at e
    cases e
  · exact absurd hn (s.cfg.intBit n).isLt.ne

/-- A set/clear write under `regMask` leaves bit 15 as it was (R23 to R25). -/
theorem setClr_regMask_bit15 (old v : Word) : (setClr old v regMask).getLsbD 15 = old.getLsbD 15 :=
  setClr_bit_unselected old fun h => absurd h.1 (by decide)

/-- A write of one of the bits 0 to 14 leaves bit 15 as it was. -/
theorem writeBit_bit15 (v : Word) (b : Fin 15) (a : Bool) : (writeBit v b a).getLsbD 15 = v.getLsbD 15 := by
  rw [writeBit_bit _ _ _ _ (by omega), if_neg (by omega)]

theorem armAll_inv {s : State} (hs : s.Inv) (old new : Word) : (armAll old new s).Inv :=
  have ⟨_, _, _, _, hch, _⟩ := hs
  (armAll_frame old new s).inv hs (chansInv_armAll hch old new)

/-- Every command keeps the invariants (R41). -/
theorem exec_inv {i : Instr} {s t : State} (hs : s.Inv) (h : exec i s = .next t) : t.Inv := by
  have ⟨hdma, hena, hreq, hadk, hch, hq, hmem⟩ := hs
  cases executes_of_exec h with
  | read => exact hs
  | wrDmacon d =>
    have hnew : setClr s.dma.dmacon d s.cfg.dmaconWmask &&& ~~~s.cfg.dmaconWmask = 0 := setClr_outside hdma
    have hset : (s.setDmacon (setClr s.dma.dmacon d s.cfg.dmaconWmask)).Inv :=
      ⟨hnew, hena, hreq, hadk, hch, hq, hmem⟩
    exact armAll_inv hset _ _
  | wrIntena d => exact ⟨hdma, (setClr_regMask_bit15 _ _).trans hena, hreq, hadk, hch, hq, hmem⟩
  | wrIntreq d => exact ⟨hdma, hena, (setClr_regMask_bit15 _ _).trans hreq, hadk, hch, hq, hmem⟩
  | wrAdkcon d =>
    refine ⟨hdma, hena, hreq, (setClr_regMask_bit15 _ _).trans hadk, fun n => ?_, hq, hmem⟩
    rw [roleUpdate_chan]
    exact hch n
  | audio r n d =>
    exact (AudioFrame.ofChans s _).inv hs (chansInv_modifyChan hch n _ fun _ hc => r.effect_inv _ d hc)
  | req src => exact hs
  | aint b a hb =>
    rw [aint_eq]
    exact ⟨hdma, hena, (writeBit_bit15 _ _ _).trans hreq, hadk, hch, hq, hmem⟩
  | gayle l =>
    obtain ⟨_, e | ⟨b, -, e⟩⟩ := gayleState_eq l s <;> rw [e]
    · exact hs
    · exact ⟨hdma, hena, (writeBit_bit15 _ b _).trans hreq, hadk, hch, hq, hmem⟩
  | audpoll => exact (pollAll_frame s).inv hs (chansInv_pollAll hch)
  | latadv =>
    obtain ⟨ena, req, -⟩ := latAdvance_rest s.cfg s.ints
    exact ⟨hdma, ena ▸ hena, req ▸ hreq, hadk, hch, latAdvance_length _ _ hq, hmem⟩
  | commit =>
    rw [grant_eq]
    exact hs
  | reset =>
    obtain ⟨-, hena0, hreq0, hadk0, hch0, -⟩ := reset_inv
    exact ⟨BitVec.zero_and, hena0, hreq0, hadk0, hch0, Nat.zero_le _, hmem⟩

/-- Settles O9: a step leaves the state, takes inputs, writes memory, or runs one command. -/
theorem everyStepKeepsTheInvariants : Obligations.EveryStepKeepsTheInvariants := by
  intro s t hs h
  rcases step_cases h with rfl | ⟨_, m, _, rfl, hm⟩ | ⟨i, l, h⟩
  · exact hs
  · obtain ⟨hdma, hena, hreq, hadk, hch, hq, hmem⟩ := hs
    refine ⟨hdma, hena, hreq, hadk, hch, hq, ?_⟩
    rcases hm with rfl | ⟨a, bytes, rfl⟩
    · exact hmem
    · exact Memory.wf_write bytes s.mem a hmem
  · exact exec_inv (s := { s with inputs := l }) hs h

/-- Settles O35. -/
theorem settingOneChannelLeavesTheRest : Obligations.SettingOneChannelLeavesTheRest := by
  intro n c s
  exact ⟨s.chan_setChan_same n c, fun m hm => by rw [State.chan_setChan, if_neg hm], rfl⟩

/-! ### Who writes the registers outside the channels -/

theorem reset_waiting (src : Source) : Arbiter.reset.waiting.get src = false := by cases src <;> rfl

/-- AUDPOLL clears no waiting flag, and sets at most Agnus' (R111). -/
theorem pollAll_waiting_set {s : State} {src : Source} (hs : s.dma.waiting.get src = false)
    (ht : (pollAll s).dma.waiting.get src = true) : src = .agnus ∧ s.cfg.audioReq = true := by
  rcases (pollAll_frame s).waiting src with e | ⟨hsrc, hreq, -⟩
  · rw [e, hs] at ht
    cases ht
  · exact ⟨hsrc, hreq⟩

theorem pollAll_waiting_kept {s : State} {src : Source} (hs : s.dma.waiting.get src = true) :
    (pollAll s).dma.waiting.get src = true := by
  rcases (pollAll_frame s).waiting src with e | ⟨-, -, ht⟩
  · rw [e, hs]
  · exact ht

/-- Settles O12: in each form of command, a clause holds because its register is kept or the command is one it names. -/
theorem registersOutsideTheChannelsChangeOnlyByTheirOwnCommands :
    Obligations.RegistersOutsideTheChannelsChangeOnlyByTheirOwnCommands := by
  intro i s t h
  cases executes_of_exec h with
  | read hi =>
    have hread : i = .rdDmaconr ∨ i = .rdAdkconr ∨ i = .rdIntenar ∨ i = .rdIntreqr := by
      simp only [List.mem_cons, Prod.mk.injEq, List.not_mem_nil, or_false] at hi
      exact hi.imp And.left (.imp And.left (.imp And.left And.left))
    simp +contextual [hread]
  | wrDmacon d =>
    rw [armAll_eq]
    simp +contextual
  | wrIntena | wrIntreq | audio => simp +contextual
  | wrAdkcon d => simp +contextual [roleUpdate]
  | req src => simp +contextual [Waiting.get_set]
  | aint b a hb => simp +contextual [aint_eq]
  | gayle l =>
    obtain ⟨_, e | ⟨b, hb, e⟩⟩ := gayleState_eq l s <;> rw [e]
    · simp +contextual
    · simp +contextual [hb]
  | audpoll =>
    have f := pollAll_frame s
    simp +contextual [f.dmacon, f.lastGrant, f.intena, f.gayleLevel, f.latQ, f.lagLevel, f.adkcon, f.lastRead,
      pollAll_waiting_kept]
    exact fun src => pollAll_waiting_set
  | latadv =>
    obtain ⟨hena, hreq, hgayle⟩ := latAdvance_rest s.cfg s.ints
    simp +contextual [hena, hreq, hgayle]
  | commit =>
    rw [grant_eq]
    simp +contextual [grant_waiting]
  | reset => simp [blockReset, reset_waiting]

/-- Settles O30: the frame is O12's, and the bound is kept by the advance of the queue. -/
theorem onlyLatadvAndResetChangeTheLatencyQueue : Obligations.OnlyLatadvAndResetChangeTheLatencyQueue := by
  intro i s t h
  obtain ⟨-, hq, hlag, -⟩ := registersOutsideTheChannelsChangeOnlyByTheirOwnCommands i s t h
  refine ⟨fun hadv hrst => ⟨?_, ?_⟩, fun hlen => ?_⟩
  · exact not_not.1 fun hne => (hq hne).elim hrst hadv
  · exact not_not.1 fun hne => (hlag hne).elim hrst hadv
  · rw [exec_cfg h]
    by_cases hne : t.ints.latQ = s.ints.latQ
    · rw [hne]
      exact hlen
    · rcases hq hne with rfl | rfl
      · rw [next_inj h]
        exact Nat.zero_le _
      · rw [next_inj h]
        exact latAdvance_length s.cfg s.ints hlen

end Sys2Proof.Machine
end

section
/-! PROOFS. The state family (10_state.md): who writes which register of a channel (R32 to R35). An AUDPOLL reaches a
channel twice: by the modulation of the channel before it, then by the channel's own poll. -/

namespace Sys2Proof.Machine

/-! ### One poll -/

/-- What polling can change in a channel (R194, R200). `active` says whether the channel modulates; `byVolume` and
`byPeriod` say when another channel may have modulated it. -/
structure Polled (active : Bool) (byVolume byPeriod : Prop) (c c' : Channel) : Prop where
  period : c'.period = c.period
  length : c'.length = c.length
  pointer : c'.pointer = c.pointer
  modulateToggle : c'.modulateToggle = c.modulateToggle
  volume : c'.volume ≠ c.volume → byVolume
  data : c'.data ≠ c.data → c.mode = .dma
  workingPeriod : c'.workingPeriod ≠ c.workingPeriod → c.mode ≠ .idle ∨ byPeriod
  workingLength : c'.workingLength ≠ c.workingLength → c.mode = .dma
  workingPointer : c'.workingPointer ≠ c.workingPointer → c.mode = .dma
  mode : c'.mode ≠ c.mode → c.mode ≠ .idle
  modulatingVp : c'.modulatingVp ≠ c.modulatingVp → c.mode = .dma ∧ c.modulateToggle = true ∧ active = true

/-- What a channel's own poll can change in it: nothing that modulation alone reaches. -/
abbrev OwnPoll (active : Bool) (c c' : Channel) : Prop := Polled active False False c c'

theorem Polled.mono {active : Bool} {p q p' q' : Prop} {c c' : Channel} (h : Polled active p q c c') (hp : p → p')
    (hq : q → q') : Polled active p' q' c c' :=
  { h with
    volume := fun hne => hp (h.volume hne)
    workingPeriod := fun hne => (h.workingPeriod hne).imp_right hq }

/-- Modulation before a channel's own poll adds the volume or the working period to what changes (R197). -/
theorem Polled.of_modulated {active vp : Bool} {w : Word} {c c' : Channel}
    (h : OwnPoll active (c.modulated vp w) c') : Polled active (vp = false) (vp = true) c c' := by
  cases vp with
  | false =>
    exact { h with
      volume := fun _ => rfl
      workingPeriod := fun hne => (h.workingPeriod hne).imp_right False.elim }
  | true =>
    exact { h with
      volume := fun hne => (h.volume hne).elim
      workingPeriod := fun _ => .inr rfl }

theorem Polled.refl (active : Bool) (p q : Prop) (c : Channel) : Polled active p q c c :=
  ⟨rfl, rfl, rfl, rfl, absurd rfl, absurd rfl, absurd rfl, absurd rfl, absurd rfl, absurd rfl, absurd rfl⟩

/-- Modulating changes the modulator's sample, and its role only if it alternates (R197). -/
theorem modulateIfActive_chan_self (n : ChannelId) (w : Word) (s : State) : ∃ (d : Word) (vp : Bool),
    (modulateIfActive n w s).chan n = { s.chan n with data := d, modulatingVp := vp } ∧
    (vp ≠ (s.chan n).modulatingVp → (s.chan n).modulateToggle = true ∧ s.modActive n = true) := by
  rw [modulateIfActive_chan, if_pos rfl]
  split
  next hactive =>
    refine ⟨_, _, rfl, fun hne => ⟨?_, hactive⟩⟩
    by_contra htoggle
    exact hne (if_neg htoggle)
  next => exact ⟨_, _, rfl, absurd rfl⟩

/-- A fetch keeps the live registers but the sample, the mode and the alternation, and it turns the role only where an
alternating channel modulates (R194, R195, R197). -/
theorem dmaFetch_chan_self (n : ChannelId) (s : State) : ∃ (d wl : Word) (ptr : Addr) (vp : Bool),
    (dmaFetch n s).chan n =
      { s.chan n with data := d, workingLength := wl, workingPointer := ptr, modulatingVp := vp } ∧
    (vp ≠ (s.chan n).modulatingVp → (s.chan n).modulateToggle = true ∧ s.modActive n = true) := by
  obtain ⟨d, vp, hchan, hvp⟩ :=
    modulateIfActive_chan_self n (s.chipWord (s.chan n).workingPointer) (fetchedState n s)
  rw [modActive_fetchedState] at hvp
  rw [fetchedState_chan, if_pos rfl] at hchan hvp
  rw [dmaFetch_chan, hchan]
  split <;> exact ⟨d, _, _, vp, rfl, hvp⟩

/-- The enable check changes at most the mode of its channel (R198). -/
theorem enableCheck_chan_self (n : ChannelId) (s : State) : (enableCheck n s).chan n =
    { s.chan n with mode := if s.isEnabled (s.cfg.dmaBit n) then (s.chan n).mode else .idle } := by
  unfold enableCheck
  split
  · rfl
  · rw [State.chan_raiseAudioInt, toIdle, State.chan_modifyChan_same]

/-- A DMA poll is a countdown, a fetch if it ends, and the enable check (R194). -/
theorem dmaPoll_chan_self (n : ChannelId) (s : State) :
    ∃ (d wl : Word) (ptr : Addr) (vp : Bool) (wp : Int) (m : Mode), (dmaPoll n s).chan n =
      { s.chan n with data := d, workingLength := wl, workingPointer := ptr, modulatingVp := vp, workingPeriod := wp,
                      mode := m } ∧
    (vp ≠ (s.chan n).modulatingVp → (s.chan n).modulateToggle = true ∧ s.modActive n = true) := by
  unfold dmaPoll setWorkingPeriod
  simp only [enableCheck_chan_self]
  split
  · obtain ⟨d, wl, ptr, vp, hfetch, hvp⟩ := dmaFetch_chan_self n s
    rw [State.chan_modifyChan_same, hfetch]
    exact ⟨d, wl, ptr, vp, _, _, rfl, hvp⟩
  · rw [State.chan_modifyChan_same]
    exact ⟨_, _, _, _, _, _, rfl, absurd rfl⟩

theorem dmaPoll_ownPoll {n : ChannelId} {s : State} (hmode : (s.chan n).mode = .dma) :
    OwnPoll (s.modActive n) (s.chan n) ((dmaPoll n s).chan n) := by
  obtain ⟨d, wl, ptr, vp, wp, m, e, hvp⟩ := dmaPoll_chan_self n s
  have hbusy : (s.chan n).mode ≠ .idle := by simp [hmode]
  rw [e]
  exact ⟨rfl, rfl, rfl, rfl, absurd rfl, fun _ => hmode, fun _ => .inl hbusy, fun _ => hmode, fun _ => hmode,
    fun _ => hbusy, fun hne => ⟨hmode, hvp hne⟩⟩

/-- The poll in Interrupt mode changes the working period and the mode of its channel (R200). -/
theorem intPoll_chan_self (n : ChannelId) (s : State) :
    ∃ wp m, (intPoll n s).chan n = { s.chan n with workingPeriod := wp, mode := m } := by
  unfold intPoll setWorkingPeriod toIdle
  simp only
  split
  · split
    · exact ⟨_, .idle, by rw [State.chan_modifyChan_same, State.chan_modifyChan_same]⟩
    · exact ⟨_, _, by rw [State.chan_modifyChan_same, State.chan_raiseAudioInt]⟩
  · exact ⟨_, _, by rw [State.chan_modifyChan_same]⟩

theorem intPoll_ownPoll {n : ChannelId} {s : State} (active : Bool) (hmode : (s.chan n).mode = .interrupt) :
    OwnPoll active (s.chan n) ((intPoll n s).chan n) := by
  obtain ⟨wp, m, e⟩ := intPoll_chan_self n s
  rw [e]
  have hbusy : (s.chan n).mode ≠ .idle := by simp [hmode]
  exact ⟨rfl, rfl, rfl, rfl, absurd rfl, absurd rfl, fun _ => .inl hbusy, absurd rfl, absurd rfl, fun _ => hbusy,
    absurd rfl⟩

/-- Each mode's poll is in the relation; an Idle channel stays as it is (R193, R199). -/
theorem channelPoll_ownPoll (n : ChannelId) (s : State) :
    OwnPoll (s.modActive n) (s.chan n) ((channelPoll n s).chan n) := by
  unfold channelPoll
  split
  · exact .refl _ _ _ _
  case h_2 hmode => exact dmaPoll_ownPoll hmode
  case h_3 hmode => exact intPoll_ownPoll _ hmode

theorem Channel.modulated_mode (c : Channel) (vp : Bool) (w : Word) : (c.modulated vp w).mode = c.mode := by
  cases vp <;> rfl

theorem Channel.modulated_modulatingVp (c : Channel) (vp : Bool) (w : Word) :
    (c.modulated vp w).modulatingVp = c.modulatingVp := by
  cases vp <;> rfl

/-- `ModulatedBy s m c c'`: channel `m` of `s`, in DMA mode, modulates `c` to `c'` with some word (R194, R197). -/
structure ModulatedBy (s : State) (m : ChannelId) (c c' : Channel) : Prop where
  mode : (s.chan m).mode = .dma
  active : s.modActive m = true
  word : ∃ w, c' = c.modulated (s.chan m).modulatingVp w

theorem enableCheck_chan_ne {k n : ChannelId} (hn : n ≠ k) (s : State) : (enableCheck k s).chan n = s.chan n := by
  unfold enableCheck toIdle
  split
  · rfl
  · rw [State.chan_raiseAudioInt, State.chan_modifyChan_ne _ _ _ _ hn]

/-- A fetch leaves every other channel as it is, but for the modulation of the next one (R197). -/
theorem dmaFetch_chan_ne {k n : ChannelId} (hn : n ≠ k) (s : State) : (dmaFetch k s).chan n =
    if s.modActive k = true ∧ n.val = k.val + 1 then
      (s.chan n).modulated (s.chan k).modulatingVp (s.chipWord (s.chan k).workingPointer)
    else s.chan n := by
  rw [dmaFetch_chan, if_neg (fun h => hn h.1), modulateIfActive_chan, modActive_fetchedState, if_neg hn,
    fetchedState_chan, fetchedState_chan, if_neg hn, if_pos rfl, ite_and]
  rfl

theorem intPoll_chan_ne {k n : ChannelId} (hn : n ≠ k) (s : State) : (intPoll k s).chan n = s.chan n := by
  unfold intPoll setWorkingPeriod toIdle
  simp only
  split
  · split
    · rw [State.chan_modifyChan_ne _ _ _ _ hn, State.chan_modifyChan_ne _ _ _ _ hn]
    · rw [State.chan_modifyChan_ne _ _ _ _ hn, State.chan_raiseAudioInt]
  · exact State.chan_modifyChan_ne _ _ _ _ hn

/-- A poll leaves every other channel as it is, but for the modulation of the next one. -/
theorem channelPoll_chan_ne {k n : ChannelId} (hn : n ≠ k) (s : State) :
    (channelPoll k s).chan n = s.chan n ∨
      (n.val = k.val + 1 ∧ ModulatedBy s k (s.chan n) ((channelPoll k s).chan n)) := by
  unfold channelPoll
  split
  · exact .inl rfl
  case h_2 hmode =>
    unfold dmaPoll setWorkingPeriod
    simp only [enableCheck_chan_ne hn]
    split
    · rw [State.chan_modifyChan_ne _ _ _ _ hn, dmaFetch_chan_ne hn]
      split
      next h => exact .inr ⟨h.2, hmode, h.1, _, rfl⟩
      next => exact .inl rfl
    · exact .inl (State.chan_modifyChan_ne _ _ _ _ hn)
  case h_3 => exact .inl (intPoll_chan_ne hn s)

/-- A poll reaches its own channel and the next one alone. -/
theorem channelPoll_chan_far {k n : ChannelId} (hn : n ≠ k) (hnext : n.val ≠ k.val + 1) (s : State) :
    (channelPoll k s).chan n = s.chan n :=
  (channelPoll_chan_ne hn s).resolve_right fun h => hnext h.1

/-! ### The four polls in order (R192) -/

theorem beforePoll_succ (j : Fin 3) (s : State) :
    s.beforePoll j.succ = channelPoll j.castSucc (s.beforePoll j.castSucc) := by
  fin_cases j <;> rfl

theorem beforePoll_frame (n : ChannelId) (s : State) : AudioFrame s (s.beforePoll n) := by
  induction n using Fin.induction with
  | zero => exact .refl s
  | succ j ih =>
    rw [beforePoll_succ]
    exact ih.trans (channelPoll_frame _ _)

theorem beforePoll_modActive (n : ChannelId) (s : State) (m : ChannelId) :
    (s.beforePoll n).modActive m = s.modActive m := by
  unfold State.modActive
  rw [(beforePoll_frame n s).adkcon]

/-- The polls before channel `n`'s reach no channel after `n`. -/
theorem beforePoll_chan_later {n k : ChannelId} (h : n < k) (s : State) : (s.beforePoll n).chan k = s.chan k := by
  induction n using Fin.induction with
  | zero => rfl
  | succ j ih =>
    have hval : j.val + 1 < k.val := h
    rw [beforePoll_succ, channelPoll_chan_far, ih]
    · exact Fin.lt_def.2 (Nat.lt_of_succ_lt hval)
    · intro e
      rw [e, Fin.val_castSucc] at hval
      omega
    · rw [Fin.val_castSucc]
      omega

/-- When its turn comes, a channel is as at the start of the AUDPOLL, or modulated by the channel before it. -/
theorem beforePoll_chan (n : ChannelId) (s : State) :
    (s.beforePoll n).chan n = s.chan n ∨
      ∃ m : ChannelId, n.val = m.val + 1 ∧ ModulatedBy s m (s.chan n) ((s.beforePoll n).chan n) := by
  induction n using Fin.induction with
  | zero => exact .inl rfl
  | succ j ih =>
    have hlater : (s.beforePoll j.castSucc).chan j.succ = s.chan j.succ := beforePoll_chan_later Fin.castSucc_lt_succ s
    have hkept : ((s.beforePoll j.castSucc).chan j.castSucc).mode = (s.chan j.castSucc).mode ∧
        ((s.beforePoll j.castSucc).chan j.castSucc).modulatingVp = (s.chan j.castSucc).modulatingVp := by
      rcases ih with e | ⟨_, -, -, -, _, e⟩ <;> rw [e]
      · exact ⟨rfl, rfl⟩
      · exact ⟨Channel.modulated_mode _ _ _, Channel.modulated_modulatingVp _ _ _⟩
    rw [beforePoll_succ]
    rcases channelPoll_chan_ne Fin.castSucc_lt_succ.ne' (s.beforePoll j.castSucc) with e | ⟨_, hmode, hactive, w, e⟩
    · exact .inl (e.trans hlater)
    · rw [hkept.1] at hmode
      rw [beforePoll_modActive] at hactive
      rw [hlater, hkept.2] at e
      exact .inr ⟨j.castSucc, rfl, hmode, hactive, w, e⟩

/-- The polls after a channel's own do not reach it. -/
theorem pollAll_chan (n : ChannelId) (s : State) : (pollAll s).chan n = (channelPoll n (s.beforePoll n)).chan n := by
  have hearlier : ∀ {k : ChannelId}, n < k → ∀ u, (channelPoll k u).chan n = u.chan n :=
    fun {k} h u => channelPoll_chan_far h.ne (by have := Fin.lt_def.1 h; omega) u
  unfold pollAll
  match n with
  | 3 => rfl
  | 2 => rw [hearlier (by decide)]; rfl
  | 1 => rw [hearlier (by decide), hearlier (by decide)]; rfl
  | 0 => rw [hearlier (by decide), hearlier (by decide), hearlier (by decide)]; rfl

/-- In an AUDPOLL of `s`, the channel before `n` modulates it, by period if `vp` and else by volume (R194, R197). -/
def State.Modulates (s : State) (n : ChannelId) (vp : Bool) : Prop :=
  ∃ m : ChannelId, n.val = m.val + 1 ∧ (s.chan m).mode = .dma ∧ s.modActive m = true ∧ (s.chan m).modulatingVp = vp

/-- What an AUDPOLL can change in a channel. -/
theorem pollAll_polled (n : ChannelId) (s : State) :
    Polled (s.modActive n) (s.Modulates n false) (s.Modulates n true) (s.chan n) ((pollAll s).chan n) := by
  have own := channelPoll_ownPoll n (s.beforePoll n)
  rw [← pollAll_chan, beforePoll_modActive] at own
  rcases beforePoll_chan n s with hb | ⟨m, hm, hmode, hactive, w, hb⟩
  · rw [hb] at own
    exact own.mono False.elim False.elim
  · rw [hb] at own
    exact own.of_modulated.mono (fun hvp => ⟨m, hm, hmode, hactive, hvp⟩) fun hvp => ⟨m, hm, hmode, hactive, hvp⟩

/-! ### What a command can do to a channel -/

/-- A command leaves a channel as it is, arms it, writes one of its registers or its roles, polls it or resets it. -/
theorem exec_chan_cases {i : Instr} {s t : State} (h : exec i s = .next t) (n : ChannelId) :
    t.chan n = s.chan n ∨ i = .reset ∨
    (∃ d, i = .wrDmacon d ∧ armRise s.cfg s.dma.dmacon t.dma.dmacon (s.cfg.dmaBit n) = true ∧
      t.chan n = (s.chan n).arm) ∨
    (∃ d, i = .wrAdkcon d ∧ t.chan n = rolesFor t.adkcon n (s.chan n)) ∨
    (∃ (r : AudioReg) (d : Word), i = r.write n d ∧ t.chan n = r.effect s.cfg.ptrMask d (s.chan n)) ∨
    (i = .audpoll ∧
      Polled (s.modActive n) (s.Modulates n false) (s.Modulates n true) (s.chan n) (t.chan n)) := by
  cases executes_of_exec h with
  | wrDmacon d =>
    rw [armAll_chan, (armAll_frame _ _ _).dmacon, rises_eq_armRise]
    split
    next hrise => exact .inr (.inr (.inl ⟨d, rfl, hrise, rfl⟩))
    next => exact .inl rfl
  | wrAdkcon d => exact .inr (.inr (.inr (.inl ⟨d, rfl, roleUpdate_chan _ n⟩)))
  | audio r m d =>
    by_cases hn : n = m
    · subst hn
      exact .inr (.inr (.inr (.inr (.inl ⟨r, d, rfl, s.chan_modifyChan_same n _⟩))))
    · exact .inl (State.chan_modifyChan_ne _ _ _ _ hn)
  | aint b a hb => rw [aint_eq]; exact .inl rfl
  | gayle l => obtain ⟨_, e | ⟨_, -, e⟩⟩ := gayleState_eq l s <;> rw [e] <;> exact .inl rfl
  | audpoll => exact .inr (.inr (.inr (.inr (.inr ⟨rfl, pollAll_polled n s⟩))))
  | commit => rw [grant_eq]; exact .inl rfl
  | reset => exact .inr (.inl rfl)
  | read | wrIntena | wrIntreq | req | latadv => exact .inl rfl

/-- Settles O58: each way a command can reach a channel changes only registers whose clause names it. -/
theorem channelRegistersChangeOnlyByTheirOwnCommands : Obligations.ChannelRegistersChangeOnlyByTheirOwnCommands := by
  intro i s t n h
  rcases exec_chan_cases h n with e | rfl | ⟨d, rfl, hrise, e⟩ | ⟨d, rfl, e⟩ | ⟨r, d, rfl, e⟩ | ⟨rfl, poll⟩
  · simp [e]
  · simp
  · simp [e, Channel.arm, hrise]
  · simp [e, rolesFor]
  · have hwrite : ∃ d', r.write n d = r.write n d' := ⟨d, rfl⟩
    rw [e]
    cases r <;> simp_all [AudioReg.effect, AudioReg.write]
  · exact ⟨absurd poll.period, absurd poll.length, absurd poll.pointer,
      fun hne => .inr (.inr ⟨rfl, poll.volume hne⟩), fun hne => .inr (.inr ⟨rfl, poll.data hne⟩),
      fun hne => .inr (.inr (.inr ⟨rfl, poll.workingPeriod hne⟩)),
      fun hne => .inr (.inr ⟨rfl, poll.workingLength hne⟩), fun hne => .inr (.inr ⟨rfl, poll.workingPointer hne⟩),
      fun hne => .inr (.inr (.inr ⟨rfl, poll.mode hne⟩)), fun hne => .inr (.inr ⟨rfl, poll.modulatingVp hne⟩),
      absurd poll.modulateToggle⟩

end Sys2Proof.Machine
end

section
/-! PROOFS. The memory family (20_memory.md): how a command is taken from the inputs (R64, R68, R88). -/

namespace Sys2Proof

/-! ### A command's own words decode to it -/

/-- Under the map `m`, the words of `i` decode to `i` and leave unread whatever words follow them. -/
def ReadsBack (m : RegMap) (i : Instr) : Prop :=
  ∀ rest : List Word, decodeWords m (encode m i ++ rest) = some (.ok i, rest)

section Register

variable {m : RegMap} {i : Instr} {r : Row} {o : Offset}

/-- A register read is found by its row, the `k`-th of the register rows (R82). -/
theorem readsBack_of_readRow (hm : m.wf = true) (k : Nat) (hr : (registerRows m)[k]? = some r)
    (hw : encode m i = [rdWord o]) (hp : r.pattern = rdWord o) (hb : r.build (rdWord o) 0 = i) : ReadsBack m i := by
  intro rest
  rw [hw, ← hb]
  exact decodeWords_read hm (List.mem_of_getElem? hr) hp rest

/-- A register write is found by its row, the `k`-th of the register rows (R82). -/
theorem readsBack_of_writeRow (hm : m.wf = true) (k : Nat) {d : Word} (hr : (registerRows m)[k]? = some r)
    (hw : encode m i = [wrWord o, d]) (hp : r.pattern = wrWord o) (hb : r.build (wrWord o) d = i) : ReadsBack m i := by
  intro rest
  rw [hw, ← hb]
  exact decodeWords_write hm (List.mem_of_getElem? hr) hp d rest

end Register

/-- A command of the classes 3 to 9 is found among the control rows by its one word `c`, whatever the map (R83 to R86). -/
theorem readsBack_of_controlRow (m : RegMap) {i : Instr} {c : Word} (hw : encode m i = [c])
    (h : (c.toNat / 4096 ≠ 1 ∧ c.toNat / 4096 ≠ 2) ∧
      (controlRows.find? fun r => r.matches c).map (fun r => r.build c 0) = some i) : ReadsBack m i := by
  intro rest
  obtain ⟨⟨h1, h2⟩, hfind⟩ := h
  obtain ⟨r, hr, rfl⟩ := Option.map_eq_some_iff.1 hfind
  rw [hw]
  exact decodeWords_control m h1 h2 hr rest

/-- Every command the encoding can name decodes from its own words (R80 to R90). -/
theorem readsBack {m : RegMap} (hm : m.wf = true) : ∀ {i : Instr}, i.wf = true → ReadsBack m i
  | .rdDmaconr, _ => readsBack_of_readRow hm 0 rfl rfl rfl rfl
  | .rdAdkconr, _ => readsBack_of_readRow hm 1 rfl rfl rfl rfl
  | .rdIntenar, _ => readsBack_of_readRow hm 2 rfl rfl rfl rfl
  | .rdIntreqr, _ => readsBack_of_readRow hm 3 rfl rfl rfl rfl
  | .wrDmacon _, _ => readsBack_of_writeRow hm 4 rfl rfl rfl rfl
  | .wrIntena _, _ => readsBack_of_writeRow hm 5 rfl rfl rfl rfl
  | .wrIntreq _, _ => readsBack_of_writeRow hm 6 rfl rfl rfl rfl
  | .wrAdkcon _, _ => readsBack_of_writeRow hm 7 rfl rfl rfl rfl
  | .wrAud0Lch _, _ => readsBack_of_writeRow hm 8 rfl rfl rfl rfl
  | .wrAud0Lcl _, _ => readsBack_of_writeRow hm 9 rfl rfl rfl rfl
  | .wrAud0Len _, _ => readsBack_of_writeRow hm 10 rfl rfl rfl rfl
  | .wrAud0Per _, _ => readsBack_of_writeRow hm 11 rfl rfl rfl rfl
  | .wrAud0Vol _, _ => readsBack_of_writeRow hm 12 rfl rfl rfl rfl
  | .wrAud0Dat _, _ => readsBack_of_writeRow hm 13 rfl rfl rfl rfl
  | .wrAud1Lch _, _ => readsBack_of_writeRow hm 14 rfl rfl rfl rfl
  | .wrAud1Lcl _, _ => readsBack_of_writeRow hm 15 rfl rfl rfl rfl
  | .wrAud1Len _, _ => readsBack_of_writeRow hm 16 rfl rfl rfl rfl
  | .wrAud1Per _, _ => readsBack_of_writeRow hm 17 rfl rfl rfl rfl
  | .wrAud1Vol _, _ => readsBack_of_writeRow hm 18 rfl rfl rfl rfl
  | .wrAud1Dat _, _ => readsBack_of_writeRow hm 19 rfl rfl rfl rfl
  | .wrAud2Lch _, _ => readsBack_of_writeRow hm 20 rfl rfl rfl rfl
  | .wrAud2Lcl _, _ => readsBack_of_writeRow hm 21 rfl rfl rfl rfl
  | .wrAud2Len _, _ => readsBack_of_writeRow hm 22 rfl rfl rfl rfl
  | .wrAud2Per _, _ => readsBack_of_writeRow hm 23 rfl rfl rfl rfl
  | .wrAud2Vol _, _ => readsBack_of_writeRow hm 24 rfl rfl rfl rfl
  | .wrAud2Dat _, _ => readsBack_of_writeRow hm 25 rfl rfl rfl rfl
  | .wrAud3Lch _, _ => readsBack_of_writeRow hm 26 rfl rfl rfl rfl
  | .wrAud3Lcl _, _ => readsBack_of_writeRow hm 27 rfl rfl rfl rfl
  | .wrAud3Len _, _ => readsBack_of_writeRow hm 28 rfl rfl rfl rfl
  | .wrAud3Per _, _ => readsBack_of_writeRow hm 29 rfl rfl rfl rfl
  | .wrAud3Vol _, _ => readsBack_of_writeRow hm 30 rfl rfl rfl rfl
  | .wrAud3Dat _, _ => readsBack_of_writeRow hm 31 rfl rfl rfl rfl
  | .req v, hi => by
    have hv : v < 4 := of_decide_eq_true hi
    refine readsBack_of_controlRow m rfl ?_
    clear hi
    revert v
    decide
  | .aint b a, _ => readsBack_of_controlRow m rfl (by revert b a; decide)
  | .gayle l, _ => readsBack_of_controlRow m rfl (by revert l; decide)
  | .audpoll, _ => readsBack_of_controlRow m rfl (by decide)
  | .latadv, _ => readsBack_of_controlRow m rfl (by decide)
  | .commit, _ => readsBack_of_controlRow m rfl (by decide)
  | .reset, _ => readsBack_of_controlRow m rfl (by decide)

end Sys2Proof

namespace Sys2Proof.Machine

/-! ### The words at the front of the inputs -/

/-- A command is one word or two. -/
theorem encode_cases (m : RegMap) (i : Instr) : (∃ c, encode m i = [c]) ∨ ∃ c d, encode m i = [c, d] := by
  cases i <;> simp [encode]

/-- The words that one command can reach begin with that command's own. -/
theorem frontWords_encode (m : RegMap) (i : Instr) (rest : List Input) :
    ∃ more, frontWords ((encode m i).map Input.word ++ rest) = encode m i ++ more := by
  rcases encode_cases m i with ⟨c, e⟩ | ⟨c, d, e⟩ <;> rw [e]
  · rcases rest with - | ⟨x, l⟩
    · exact ⟨[], rfl⟩
    · cases x <;> exact ⟨_, rfl⟩
  · exact ⟨[], rfl⟩

/-- A command whose words stand at the front is fetched, and exactly those words are taken (R88, R90). -/
theorem fetch_encode {m : RegMap} {i : Instr} (h : ReadsBack m i) (rest : List Input) :
    fetch m ((encode m i).map Input.word ++ rest) = some (.ok i, rest) := by
  obtain ⟨more, hfront⟩ := frontWords_encode m i rest
  have htaken : (encode m i ++ more).length - more.length = ((encode m i).map Input.word).length := by simp
  unfold fetch
  rw [hfront, h more]
  simp only [htaken, List.drop_left]

/-- Where a word stands first and a command is fetched, the step runs that command (R64). -/
theorem step_of_fetch {s : State} {w : Word} {l rest : List Input} {i : Instr} (hs : s.inputs = .word w :: l)
    (h : fetch s.cfg.regAddr s.inputs = some (.ok i, rest)) : step s = exec i { s with inputs := rest } := by
  unfold step stepInput
  rw [h, hs]

/-- Settles O6: the command's words decode to it, so the fetch takes them and the step runs it. -/
theorem stepRunsTheDecodedCommand : Obligations.StepRunsTheDecodedCommand := by
  intro s i rest hm hi hs
  have hfetch : fetch s.cfg.regAddr s.inputs = some (.ok i, rest) := hs ▸ fetch_encode (readsBack hm hi) rest
  obtain ⟨w, l, hword⟩ : ∃ w l, s.inputs = .word w :: l := by
    rcases encode_cases s.cfg.regAddr i with ⟨c, e⟩ | ⟨c, d, e⟩ <;> rw [hs, e]
    · exact ⟨c, rest, rfl⟩
    · exact ⟨c, .word d :: rest, rfl⟩
  exact step_of_fetch hword hfetch

end Sys2Proof.Machine
end

section
/-! PROOFS. The memory family (20_memory.md): chip memory (R60 to R62, R71) and repeated writes (R65). -/

namespace Sys2Proof.Machine

/-! ### No command stores -/

/-- Settles O11: no form of command reaches memory, the host's counters or the inputs. -/
theorem noCommandWritesChipMemory : Obligations.NoCommandWritesChipMemory := by
  intro i s t h
  suffices hkept : t.mem = s.mem ∧ t.host = s.host ∧ t.inputs = s.inputs from ⟨fun _ => by rw [hkept.1], hkept⟩
  cases executes_of_exec h with
  | wrDmacon d =>
    have f := armAll_frame s.dma.dmacon (setClr s.dma.dmacon d s.cfg.dmaconWmask)
      (s.setDmacon (setClr s.dma.dmacon d s.cfg.dmaconWmask))
    exact ⟨f.mem, f.host, f.inputs⟩
  | aint b a hb => rw [aint_eq]; exact ⟨rfl, rfl, rfl⟩
  | gayle l => obtain ⟨_, e | ⟨_, -, e⟩⟩ := gayleState_eq l s <;> rw [e] <;> exact ⟨rfl, rfl, rfl⟩
  | audpoll => exact ⟨(pollAll_frame s).mem, (pollAll_frame s).host, (pollAll_frame s).inputs⟩
  | commit => rw [grant_eq]; exact ⟨rfl, rfl, rfl⟩
  | read | wrIntena | wrIntreq | wrAdkcon | audio | req | latadv | reset => exact ⟨rfl, rfl, rfl⟩

/-! ### A set/clear write that changes nothing -/

/-- Roles follow from ADKCON alone, so computing them again changes nothing (R168). -/
theorem roleUpdate_roleUpdate (s : State) : roleUpdate (roleUpdate s) = roleUpdate s := by
  refine State.eq_with_chans rfl fun n => ?_
  rw [roleUpdate_chan, roleUpdate_chan]
  rfl

/-- Where a write of DMACON leaves the mask as it is, it arms nothing and logs nothing (R100, R101). -/
theorem wrDmacon_noop {d : Word} {s : State} (h : setClr s.dma.dmacon d s.cfg.dmaconWmask = s.dma.dmacon) :
    exec (.wrDmacon d) s = .next s := by
  simp only [exec, execWrDmacon, h, armAll_self]
  rfl

theorem wrIntena_noop {d : Word} {s : State} (h : setClr s.ints.intena d regMask = s.ints.intena) :
    exec (.wrIntena d) s = .next s := by
  simp only [exec, execWrIntena, h]
  rfl

theorem wrIntreq_noop {d : Word} {s : State} (h : setClr s.ints.intreq d regMask = s.ints.intreq) :
    exec (.wrIntreq d) s = .next s := by
  simp only [exec, execWrIntreq, h]
  rfl

/-- Where a write of ADKCON leaves the register as it is and the roles stand, it changes nothing (R167). -/
theorem wrAdkcon_noop {d : Word} {s : State} (h : setClr s.adkcon d regMask = s.adkcon) (hroles : roleUpdate s = s) :
    exec (.wrAdkcon d) s = .next s := by
  simp only [exec, execWrAdkcon, h]
  exact congrArg _ hroles

/-- Settles O16: the second write finds the register as it would leave it, for SetClr is idempotent (R65). -/
theorem setClearWritesAreIdempotent : Obligations.SetClearWritesAreIdempotent := by
  intro d i s t hi h
  simp only [List.mem_cons, List.not_mem_nil, or_false] at hi
  rcases hi with rfl | rfl | rfl | rfl <;> obtain rfl := next_inj h
  · refine wrDmacon_noop ?_
    rw [(armAll_frame _ _ _).dmacon, (armAll_frame _ _ _).cfg]
    exact setClr_idem _ _ _
  · exact wrIntena_noop (setClr_idem _ _ _)
  · exact wrIntreq_noop (setClr_idem _ _ _)
  · exact wrAdkcon_noop (setClr_idem _ _ _) (roleUpdate_roleUpdate _)

/-! ### A read after another master's write -/

/-- Two bytes written at an even address do not wrap: the second lies one above the first. -/
theorem toNat_add_one_of_even {a : Addr} (h : a.getLsbD 0 = false) : (a + 1#32).toNat = a.toNat + 1 := by
  have heven : a.toNat % 2 = 0 := by simpa [BitVec.getLsbD, Nat.testBit_zero] using h
  have := a.isLt
  rw [BitVec.toNat_add, BitVec.toNat_ofNat]
  omega

theorem Memory.get?_write_pair (m : Memory) {a : Addr} (h : a.getLsbD 0 = false) (hi lo : Byte) (k : Nat) :
    (m.write a [hi, lo]).get? k =
      if k = a.toNat + 1 then some lo else if k = a.toNat then some hi else m.get? k := by
  simp only [Memory.write, Memory.get?_set, toNat_add_one_of_even h]

/-- Settles O45: a read after the write of a pair finds the pair, and every other byte as before. -/
theorem fetchReadsWhatMastersWrote : Obligations.FetchReadsWhatMastersWrote := by
  intro s a hi lo rest heven hs
  have hstep : step s = .next { s with inputs := rest, mem := s.mem.write a [hi, lo] } := by
    unfold step stepInput
    rw [hs]
  refine ⟨_, hstep, ?_, fun k hk hk1 => ?_⟩
  · simp [State.chipWord, State.chipByte, Memory.get?_write_pair _ heven, toNat_add_one_of_even heven]
  · rw [Memory.get?_write_pair _ heven, if_neg hk1, if_neg hk]

/-! ### What a command fetches -/

@[simp] theorem fetchAddresses_append (l l' : List Event) :
    fetchAddresses (l ++ l') = fetchAddresses l ++ fetchAddresses l' := List.filterMap_append

/-- Events of one kind that is no MemRead fetch nothing. -/
theorem fetchAddresses_map {α : Type} {f : α → Event} (hf : ∀ x, fetchAddresses [f x] = []) (l : List α) :
    fetchAddresses (l.map f) = [] := by
  induction l with
  | nil => rfl
  | cons x l ih => rw [List.map_cons, ← List.singleton_append, fetchAddresses_append, hf, ih, List.nil_append]

/-- From `s` to `t` the log only grew, by MemReads at the addresses `as` and by other events. -/
def Fetches (s t : State) (as : List Addr) : Prop := ∃ l, t.log = s.log ++ l ∧ fetchAddresses l = as

theorem Fetches.of_log_eq {s t : State} (h : t.log = s.log) : Fetches s t [] := ⟨[], by rw [h, List.append_nil], rfl⟩

theorem Fetches.trans {s t u : State} {as bs : List Addr} (h : Fetches s t as) (g : Fetches t u bs) :
    Fetches s u (as ++ bs) := by
  obtain ⟨l, hl, rfl⟩ := h
  obtain ⟨l', hl', rfl⟩ := g
  exact ⟨l ++ l', by rw [hl', hl, List.append_assoc], fetchAddresses_append l l'⟩

/-- The events since `s` are those fetches. -/
theorem Fetches.fetchAddresses_drop {s t : State} {as : List Addr} (h : Fetches s t as) :
    fetchAddresses (t.log.drop s.log.length) = as := by
  obtain ⟨l, hl, rfl⟩ := h
  rw [hl, List.drop_left]

theorem raiseAudioInt_fetches (n : ChannelId) (s : State) : Fetches s (s.raiseAudioInt n) [] := ⟨_, rfl, rfl⟩

theorem enableCheck_fetches (n : ChannelId) (s : State) : Fetches s (enableCheck n s) [] := by
  unfold enableCheck
  split
  · exact .of_log_eq rfl
  · exact raiseAudioInt_fetches n (toIdle n s)

/-- The fetching branch makes one MemRead, at the working pointer (R194). -/
theorem dmaFetch_fetches (n : ChannelId) (s : State) : Fetches s (dmaFetch n s) [(s.chan n).workingPointer] := by
  refine ⟨_, by rw [dmaFetch_log, List.append_assoc], ?_⟩
  split <;> rfl

theorem dmaPoll_fetches (n : ChannelId) (s : State) :
    Fetches s (dmaPoll n s) [] ∨ Fetches s (dmaPoll n s) [(s.chan n).workingPointer] := by
  unfold dmaPoll
  simp only
  split
  · exact .inr ((dmaFetch_fetches n s).trans (enableCheck_fetches n (setWorkingPeriod n _ (dmaFetch n s))))
  · exact .inl (enableCheck_fetches n (setWorkingPeriod n _ s))

theorem intPoll_fetches (n : ChannelId) (s : State) : Fetches s (intPoll n s) [] := by
  unfold intPoll
  simp only
  split
  · split
    · exact .of_log_eq rfl
    · exact raiseAudioInt_fetches n s
  · exact .of_log_eq rfl

/-- A poll fetches nothing, or once, at the channel's working pointer, and then in DMA mode (R194, R196). -/
theorem channelPoll_fetches (n : ChannelId) (s : State) : Fetches s (channelPoll n s) [] ∨
    ((s.chan n).mode = .dma ∧ Fetches s (channelPoll n s) [(s.chan n).workingPointer]) := by
  unfold channelPoll
  split
  · exact .inl (.of_log_eq rfl)
  next hmode => exact (dmaPoll_fetches n s).imp_right fun h => ⟨hmode, h⟩
  next => exact .inl (intPoll_fetches n s)

/-- From `s` to `t` every fetch was at an even address. -/
def FetchesEven (s t : State) : Prop := ∃ as, Fetches s t as ∧ ∀ a ∈ as, a.getLsbD 0 = false

theorem FetchesEven.trans {s t u : State} (h : FetchesEven s t) (g : FetchesEven t u) : FetchesEven s u := by
  obtain ⟨as, has, heven⟩ := h
  obtain ⟨bs, hbs, heven'⟩ := g
  exact ⟨as ++ bs, has.trans hbs, fun a ha => (List.mem_append.1 ha).elim (heven a) (heven' a)⟩

theorem Fetches.nil_even {s t : State} (h : Fetches s t []) : FetchesEven s t :=
  ⟨[], h, fun _ ha => absurd ha List.not_mem_nil⟩

/-- The working pointer is even (R41), and so is the address a poll fetches from (R62). -/
theorem channelPoll_fetchesEven {s : State} (h : s.ChansInv) (n : ChannelId) : FetchesEven s (channelPoll n s) := by
  obtain ⟨-, -, heven⟩ := h n
  rcases channelPoll_fetches n s with hnone | ⟨-, hone⟩
  · exact hnone.nil_even
  · exact ⟨_, hone, fun a ha => List.mem_singleton.1 ha ▸ heven⟩

/-- Each of the four polls keeps the channels' invariants for the next one (R192). -/
theorem pollAll_fetchesEven {s : State} (h : s.ChansInv) : FetchesEven s (pollAll s) :=
  have h1 := chansInv_channelPoll h 0
  have h2 := chansInv_channelPoll h1 1
  have h3 := chansInv_channelPoll h2 2
  (((channelPoll_fetchesEven h 0).trans (channelPoll_fetchesEven h1 1)).trans (channelPoll_fetchesEven h2 2)).trans
    (channelPoll_fetchesEven h3 3)

/-- Arming logs assertions and notifications alone (R101). -/
theorem armAll_fetches (old new : Word) (s : State) : Fetches s (armAll old new s) [] := by
  refine ⟨_, by rw [armAll_log, List.append_assoc], ?_⟩
  rw [fetchAddresses_append, fetchAddresses_map fun _ => rfl, fetchAddresses_map fun _ => rfl, List.append_nil]

theorem gayleState_fetches (l : Level) (s : State) : Fetches s (gayleState l s) [] := by
  rcases gayleState_cases l s with ⟨e, -⟩ | ⟨b, -, -, e⟩ <;> rw [e]
  · exact .of_log_eq rfl
  · exact ⟨_, rfl, rfl⟩

/-- A command fetches nothing, or it is AUDPOLL (R60). -/
theorem exec_fetches {i : Instr} {s t : State} (h : exec i s = .next t) :
    Fetches s t [] ∨ (i = .audpoll ∧ t = pollAll s) := by
  cases executes_of_exec h with
  | wrDmacon d => exact .inl (armAll_fetches _ _ (s.setDmacon (setClr s.dma.dmacon d s.cfg.dmaconWmask)))
  | aint b a hb =>
    cases a with
    | false => exact .inl (.of_log_eq rfl)
    | true => exact .inl ⟨_, rfl, rfl⟩
  | gayle l => exact .inl (gayleState_fetches l s)
  | audpoll => exact .inr ⟨rfl, rfl⟩
  | commit => rw [grant_eq]; exact .inl (.of_log_eq rfl)
  | read | wrIntena | wrIntreq | wrAdkcon | audio | req | latadv | reset => exact .inl (.of_log_eq rfl)

/-- Settles O42: AUDPOLL fetches from working pointers, which the invariants keep even. -/
theorem fetchAddressesAreEven : Obligations.FetchAddressesAreEven := by
  intro i s t hs h
  obtain ⟨-, -, -, -, hchans, -⟩ := hs
  rcases exec_fetches h with hnone | ⟨rfl, rfl⟩
  · rw [hnone.fetchAddresses_drop]
    exact ⟨fun _ ha => absurd ha List.not_mem_nil, fun _ => rfl⟩
  · obtain ⟨as, has, heven⟩ := pollAll_fetchesEven hchans
    rw [has.fetchAddresses_drop]
    exact ⟨heven, absurd rfl⟩

end Sys2Proof.Machine
end

section
/-! PROOFS. The encoding family (30_encoding.md): which words are commands, and what each decodes to (R80 to R90). -/

namespace Sys2Proof

/-! ### The words of the table -/

/-- The command words of the table under a map, by class, with the must-be-0 fields of R81 to R86 and the offsets of
R82. -/
inductive CommandWord (m : RegMap) (c : Word) : Prop
  | write (hclass : c.toNat / 4096 = 1) (hzero : c.toNat / 512 % 8 = 0) (hoff : offsetOf c ∈ m.writeOffsets)
  | read (hclass : c.toNat / 4096 = 2) (hzero : c.toNat / 512 % 8 = 0) (hoff : offsetOf c ∈ m.readOffsets)
  | req (hclass : c.toNat / 4096 = 3) (hzero : c.toNat / 4 % 1024 = 0)
  | aint (hclass : c.toNat / 4096 = 4) (hzero : c.toNat / 32 % 128 = 0)
  | gayle (hclass : c.toNat / 4096 = 5) (hzero : c.toNat / 8 % 512 = 0)
  | host (hlow : 6 ≤ c.toNat / 4096) (hhigh : c.toNat / 4096 ≤ 9) (hzero : c.toNat % 4096 = 0)

theorem commandWord_wrWord {m : RegMap} {o : Offset} (h : o ∈ m.writeOffsets) : CommandWord m (wrWord o) := by
  have hoff : offsetOf (wrWord o) = o := BitVec.eq_of_toNat_eq (by rw [offsetOf_toNat, wrWord_toNat]; omega)
  exact .write (by rw [wrWord_toNat]; omega) (by rw [wrWord_toNat]; omega) (hoff.symm ▸ h)

theorem commandWord_rdWord {m : RegMap} {o : Offset} (h : o ∈ m.readOffsets) : CommandWord m (rdWord o) := by
  have hoff : offsetOf (rdWord o) = o := BitVec.eq_of_toNat_eq (by rw [offsetOf_toNat, rdWord_toNat]; omega)
  exact .read (by rw [rdWord_toNat]; omega) (by rw [rdWord_toNat]; omega) (hoff.symm ▸ h)

/-- The register rows' words, each with the words of the command it stands for (R82, R90). -/
theorem registerRows_encode (m : RegMap) (c d : Word) :
    (registerRows m).map (fun r => (r.pattern, encode m (r.build c d))) =
      m.readOffsets.map (fun o => (rdWord o, [rdWord o])) ++ m.writeOffsets.map (fun o => (wrWord o, [wrWord o, d])) :=
  rfl

theorem registerRow_wf {m : RegMap} {r : Row} (hr : r ∈ registerRows m) (c d : Word) : (r.build c d).wf = true := by
  have hall : (registerRows m).all (fun r => (r.build c d).wf) = true := rfl
  exact List.all_eq_true.1 hall r hr

/-- A register row matches one word, a read word or a write word; its command's words are that word and, after a write
word, the operand. -/
theorem registerRow_encodes {m : RegMap} {r : Row} (hr : r ∈ registerRows m) {c : Word} (h : c &&& r.mask = r.pattern)
    (d : Word) : CommandWord m c ∧ encode m (r.build c d) = if c.toNat / 4096 = 1 then [c, d] else [c] := by
  have hmem := List.mem_map_of_mem (f := fun r : Row => (r.pattern, encode m (r.build c d))) hr
  rw [registerRows_encode, List.mem_append, List.mem_map, List.mem_map] at hmem
  rw [registerRows_mask hr, and_ones] at h
  rcases hmem with ⟨o, ho, e⟩ | ⟨o, ho, e⟩ <;> obtain ⟨hword, hwords⟩ := Prod.mk.inj e <;>
    rw [← hwords, h, ← hword]
  · exact ⟨commandWord_rdWord ho, (if_neg (by rw [rdWord_toNat]; omega)).symm⟩
  · exact ⟨commandWord_wrWord ho, (if_pos (by rw [wrWord_toNat]; omega)).symm⟩

/-- A word that agrees with a pattern in all but its low bits is the pattern and those bits. -/
theorem toNat_of_mask {c mask p : Word} (k : Nat) (hmask : mask = BitVec.allOnes 16 <<< k) (hp : p.toNat % 2 ^ k = 0)
    (h : c &&& mask = p) : c.toNat = p.toNat + c.toNat % 2 ^ k := by
  have hdiv := div_of_mask c k mask p hmask h
  have hc := Nat.div_add_mod c.toNat (2 ^ k)
  have hpat := Nat.div_add_mod p.toNat (2 ^ k)
  rw [hdiv] at hc
  omega

/-- A control row's command has the matched word as its one word: every bit is the pattern's or a field's (R83 to
R86). -/
theorem controlRow_encodes {r : Row} (hr : r ∈ controlRows) {c : Word} (h : c &&& r.mask = r.pattern) (m : RegMap)
    (d : Word) : CommandWord m c ∧ (r.build c d).wf = true ∧ encode m (r.build c d) = [c] := by
  simp only [controlRows, List.mem_cons, List.not_mem_nil, or_false] at hr
  rcases hr with rfl | rfl | rfl | rfl | rfl | rfl | rfl
  · have hc : c.toNat = 0x3000 + c.toNat % 4 := toNat_of_mask 2 (by decide) (by decide) h
    have hsource : field c 0 2 = c.toNat % 4 := rfl
    refine ⟨.req (by omega) (by omega), decide_eq_true (by omega), ?_⟩
    exact congrArg (· :: []) (BitVec.eq_of_toNat_eq (by rw [BitVec.toNat_ofNat, hsource]; omega))
  · have hc : c.toNat = 0x4000 + c.toNat % 32 := toNat_of_mask 5 (by decide) (by decide) h
    have hbit : (Fin.ofNat 16 (field c 0 4)).val = c.toNat % 16 := Nat.mod_mod _ _
    have hasserted : (c.getLsbD 4).toNat = c.toNat / 16 % 2 := Nat.toNat_testBit _ _
    refine ⟨.aint (by omega) (by omega), rfl, ?_⟩
    exact congrArg (· :: []) (BitVec.eq_of_toNat_eq (by rw [BitVec.toNat_ofNat, hbit, hasserted]; omega))
  · have hc : c.toNat = 0x5000 + c.toNat % 8 := toNat_of_mask 3 (by decide) (by decide) h
    have hlevel : (Fin.ofNat 8 (field c 0 3)).val = c.toNat % 8 := Nat.mod_mod _ _
    refine ⟨.gayle (by omega) (by omega), rfl, ?_⟩
    exact congrArg (· :: []) (BitVec.eq_of_toNat_eq (by rw [BitVec.toNat_ofNat, hlevel]; omega))
  all_goals
    obtain rfl := (and_ones c).symm.trans h
    exact ⟨.host (by decide) (by decide) (by decide), rfl, rfl⟩

/-- A word that a row matches is a command word (R88). -/
theorem commandWord_of_row {m : RegMap} {r : Row} (hr : r ∈ opcodeRows m) {c : Word} (h : c &&& r.mask = r.pattern) :
    CommandWord m c := by
  rcases List.mem_append.1 hr with hr | hr
  · exact (registerRow_encodes hr h 0).1
  · exact (controlRow_encodes hr h m 0).1

/-- A row's command is one the encoding can name, and its words are the matched word, with the operand where the class
is 1 (R88, R90). -/
theorem row_encodes {m : RegMap} {r : Row} (hr : r ∈ opcodeRows m) {c : Word} (h : c &&& r.mask = r.pattern)
    (d : Word) : (r.build c d).wf = true ∧ encode m (r.build c d) = if c.toNat / 4096 = 1 then [c, d] else [c] := by
  rcases List.mem_append.1 hr with hr | hr
  · exact ⟨registerRow_wf hr c d, (registerRow_encodes hr h d).2⟩
  · obtain ⟨-, hwf, hwords⟩ := controlRow_encodes hr h m d
    exact ⟨hwf, by rw [if_neg (controlRows_class hr h).1, hwords]⟩

/-! ### What the decoder answers -/

/-- Settles O1: each command's words are found by its own row. -/
theorem commandsDecodeFromTheirOwnWords : Obligations.CommandsDecodeFromTheirOwnWords :=
  fun _ _ rest hm hi => readsBack hm hi rest

/-- Where an operand follows, the decoder gives the command of the row it finds (R88, R90). -/
theorem decode_of_find {m : RegMap} {c : Word} {r : Row} (h : (opcodeRows m).find? (fun r => r.matches c) = some r)
    (d : Word) : decode m c (some d) = .ok (r.build c (if c.toNat / 4096 = 1 then d else 0)) := by
  unfold decode
  by_cases hc : c.toNat / 4096 = 1 <;> simp [h, carriesOperand_iff, hc]

/-- Settles O2: an accepted word was matched by a row, and a row's command has the matched word as its own. -/
theorem acceptedWordsAreTheirCommandsEncoding : Obligations.AcceptedWordsAreTheirCommandsEncoding := by
  intro m c d i h
  cases hfind : (opcodeRows m).find? (fun r => r.matches c) with
  | none =>
    unfold decode at h
    rw [hfind] at h
    cases h
  | some r =>
    have hfound : r.matches c = true := List.find?_some (p := fun r : Row => r.matches c) hfind
    have hmatch : c &&& r.mask = r.pattern := of_decide_eq_true hfound
    rw [decode_of_find hfind] at h
    obtain rfl := Except.ok.inj h
    obtain ⟨hwf, hwords⟩ := row_encodes (List.mem_of_find?_eq_some hfind) hmatch (if c.toNat / 4096 = 1 then d else 0)
    refine ⟨hwf, hwords.trans ?_⟩
    split <;> rfl

/-- Settles O3: the table's rows differ pairwise, so each row that matches is the one the decoder finds. -/
theorem opcodeRowsAreDisjointAndDecodeTheirWords : Obligations.OpcodeRowsAreDisjointAndDecodeTheirWords := by
  intro m c d r hm hr h
  have hfind := find_opcodeRow hm c r hr h
  refine ⟨fun r' hr' h' => ?_, decode_of_find hfind d⟩
  have hsame : some r' = some r := (find_opcodeRow hm c r' hr' h').symm.trans hfind
  rw [Option.some.inj hsame]

/-- Settles O4: each word is looked up in the default table. -/
theorem wordsOfTheSpecDecode : Obligations.WordsOfTheSpecDecode := by
  unfold Obligations.WordsOfTheSpecDecode
  decide

/-! ### Why a word is no command -/

section Reject

variable (m : RegMap) {c : Word}

theorem rejectReason_of_class (h : ¬ (c.toNat / 4096 = 1 ∨ c.toNat / 4096 = 2)) :
    rejectReason m c = .reservedCommand := by
  unfold rejectReason
  rw [classOf_eq, if_neg h]

theorem rejectReason_of_mustBeZero (h : c.toNat / 512 % 8 ≠ 0) : rejectReason m c = .reservedCommand := by
  unfold rejectReason
  rw [mustBeZero_eq, if_pos h]
  exact ite_self _

variable (hclass : c.toNat / 4096 = 1 ∨ c.toNat / 4096 = 2) (hzero : c.toNat / 512 % 8 = 0)
include hclass hzero

/-- A register access is rejected by its offset alone (R89 (c) to (e)). -/
theorem rejectReason_of_access : rejectReason m c =
    if (offsetOf c).getLsbD 0 then .misalignedRegister
    else if offsetOf c ∈ m.readOffsets ∨ offsetOf c ∈ m.writeOffsets then .wrongDirection
    else .foreignRegister := by
  unfold rejectReason
  rw [classOf_eq, if_pos hclass, mustBeZero_eq, if_neg (not_not.2 hzero)]

theorem rejectReason_of_odd (h : (offsetOf c).getLsbD 0 = true) : rejectReason m c = .misalignedRegister := by
  rw [rejectReason_of_access m hclass hzero, if_pos h]

theorem rejectReason_of_register (heven : (offsetOf c).getLsbD 0 = false)
    (h : offsetOf c ∈ m.readOffsets ∨ offsetOf c ∈ m.writeOffsets) : rejectReason m c = .wrongDirection := by
  rw [rejectReason_of_access m hclass hzero, if_neg (Bool.eq_false_iff.1 heven), if_pos h]

theorem rejectReason_of_foreign (heven : (offsetOf c).getLsbD 0 = false)
    (h : ¬ (offsetOf c ∈ m.readOffsets ∨ offsetOf c ∈ m.writeOffsets)) : rejectReason m c = .foreignRegister := by
  rw [rejectReason_of_access m hclass hzero, if_neg (Bool.eq_false_iff.1 heven), if_neg h]

end Reject

/-- The classes of the table, each with its must-be-0 field clear (R80 to R86). -/
theorem CommandWord.fields {m : RegMap} {c : Word} (h : CommandWord m c) :
    ((c.toNat / 4096 = 1 ∨ c.toNat / 4096 = 2) ∧ c.toNat / 512 % 8 = 0) ∨
    (c.toNat / 4096 = 3 ∧ c.toNat / 4 % 1024 = 0) ∨ (c.toNat / 4096 = 4 ∧ c.toNat / 32 % 128 = 0) ∨
    (c.toNat / 4096 = 5 ∧ c.toNat / 8 % 512 = 0) ∨
    (6 ≤ c.toNat / 4096 ∧ c.toNat / 4096 ≤ 9 ∧ c.toNat % 4096 = 0) := by
  cases h <;> omega

/-- A command word of class 1 is at the offset of a write-only register. -/
theorem CommandWord.writeOffset {m : RegMap} {c : Word} (h : CommandWord m c) (hclass : c.toNat / 4096 = 1) :
    offsetOf c ∈ m.writeOffsets := by
  cases h with
  | write _ _ hoff => exact hoff
  | read | req | aint | gayle | host => omega

/-- A command word of class 2 is at the offset of a read-only register. -/
theorem CommandWord.readOffset {m : RegMap} {c : Word} (h : CommandWord m c) (hclass : c.toNat / 4096 = 2) :
    offsetOf c ∈ m.readOffsets := by
  cases h with
  | read _ _ hoff => exact hoff
  | write | req | aint | gayle | host => omega

/-- The word of a write at a register's offset, without its operand, decodes to no command (log entry 3). -/
theorem decode_missingOperand {m : RegMap} (hm : m.wf = true) {c : Word} (hclass : c.toNat / 4096 = 1)
    (hzero : c.toNat / 512 % 8 = 0) (hoff : offsetOf c ∈ m.writeOffsets) :
    decode m c none = .error .missingOperand := by
  have hpat : c ∈ (registerRows m).map (·.pattern) := by
    rw [registerRows_patterns, eq_wrWord hclass hzero]
    exact List.mem_append_right _ (List.mem_map_of_mem hoff)
  obtain ⟨r, hr, hrc⟩ := List.mem_map.1 hpat
  have hmatch : c &&& r.mask = r.pattern := by rw [registerRows_mask hr, and_ones, hrc]
  unfold decode
  rw [find_opcodeRow hm c r (List.mem_append_left _ hr) hmatch]
  simp [(carriesOperand_iff c).2 hclass]

end Sys2Proof

namespace Sys2Proof.Machine

/-! ### A step at a word that is no command -/

theorem step_of_fetch_error {s : State} {w : Word} {l rest : List Input} {e : Reject} (hs : s.inputs = .word w :: l)
    (h : fetch s.cfg.regAddr s.inputs = some (.error e, rest)) : step s = .refused (.rejected e) := by
  unfold step stepInput
  rw [h, hs]

/-- A word that is no command word is refused for its own reason, whatever stands after it (R89, R251). -/
theorem step_of_not_commandWord {s : State} {c : Word} {rest : List Input} (hs : s.inputs = .word c :: rest)
    (h : ¬ CommandWord s.cfg.regAddr c) : step s = .refused (.rejected (rejectReason s.cfg.regAddr c)) := by
  have herr : ∀ d, decode s.cfg.regAddr c d = .error (rejectReason s.cfg.regAddr c) := fun d =>
    decode_eq_error _ c d fun r hr hmatch => h (commandWord_of_row hr hmatch)
  have hfetch : ∃ after, fetch s.cfg.regAddr s.inputs = some (.error (rejectReason s.cfg.regAddr c), after) := by
    rw [hs, fetch_cons]
    simp only [herr]
    split
    · split <;> exact ⟨_, rfl⟩
    · exact ⟨_, rfl⟩
  obtain ⟨after, hafter⟩ := hfetch
  exact step_of_fetch_error hs hafter

/-- A write word that no operand follows is refused (log entry 3). -/
theorem step_of_missingOperand {s : State} {c : Word} {rest : List Input} (hm : s.cfg.regAddr.wf = true)
    (hs : s.inputs = .word c :: rest) (hclass : c.toNat / 4096 = 1) (hzero : c.toNat / 512 % 8 = 0)
    (hoff : offsetOf c ∈ s.cfg.regAddr.writeOffsets) (hrest : ∀ d rest', rest ≠ .word d :: rest') :
    step s = .refused (.rejected .missingOperand) := by
  refine step_of_fetch_error hs (rest := rest) ?_
  rw [hs, fetch_cons]
  split
  · exact absurd rfl (hrest _ _)
  · rw [decode_missingOperand hm hclass hzero hoff]

/-- Settles O5: in each case the word is none of the table's, and its reason is the one R251 names; a write word without
its operand is the last case. -/
theorem wordsThatAreNoCommandAreRefused : Obligations.WordsThatAreNoCommandAreRefused := by
  intro s c rest hm hs
  dsimp only
  have refuse {e : Reject} (hno : ¬ CommandWord s.cfg.regAddr c) (he : rejectReason s.cfg.regAddr c = e) :
      step s = .refused (.rejected e) := he ▸ step_of_not_commandWord hs hno
  have hread {o : Offset} (ho : o ∈ s.cfg.regAddr.readOffsets) := RegMap.read_of_wf hm ho
  have hwrite {o : Offset} (ho : o ∈ s.cfg.regAddr.writeOffsets) := RegMap.write_of_wf hm ho
  refine ⟨fun hc => ?noClass, fun hc hz => ?mustBeZero, fun hc hz hodd => ?odd, fun hc hz hoff => ?writeOfRead,
    fun hc hz hoff => ?readOfWrite, fun hc hz heven hr hw => ?foreign, fun hc hz hoff hrest => ?operand,
    fun hc hz => ?req, fun hc hz => ?aint, fun hc hz => ?gayle, fun hc hz => ?host⟩
  case odd =>
    refine refuse (fun h => ?_) (rejectReason_of_odd _ hc hz hodd)
    have heven : (offsetOf c).getLsbD 0 = false := hc.elim (fun h1 => (hwrite (h.writeOffset h1)).1)
      fun h2 => (hread (h.readOffset h2)).1
    exact absurd (heven.symm.trans hodd) Bool.false_ne_true
  case writeOfRead =>
    exact refuse (fun h => (hread hoff).2 (h.writeOffset hc))
      (rejectReason_of_register _ (.inl hc) hz (hread hoff).1 (.inl hoff))
  case readOfWrite =>
    exact refuse (fun h => (hwrite hoff).2 (h.readOffset hc))
      (rejectReason_of_register _ (.inr hc) hz (hwrite hoff).1 (.inr hoff))
  case foreign =>
    exact refuse (fun h => hc.elim (fun h1 => hw (h.writeOffset h1)) fun h2 => hr (h.readOffset h2))
      (rejectReason_of_foreign _ hc hz heven fun h => h.elim hr hw)
  case operand => exact step_of_missingOperand hm hs hc hz hoff hrest
  case mustBeZero =>
    exact refuse (fun h => by have := h.fields; omega) (rejectReason_of_mustBeZero _ hz)
  case noClass | req | aint | gayle | host =>
    exact refuse (fun h => by have := h.fields; omega) (rejectReason_of_class _ (by omega))

/-! ### Which register a word reaches -/

/-- Where a register lies among its channel's offsets (R82). -/
def AudioReg.offset (a : AudioOffsets) : AudioReg → Offset
  | .lch => a.lch | .lcl => a.lcl | .len => a.len | .per => a.per | .vol => a.vol | .dat => a.dat

/-- The write of a channel's register is well formed, and its word is the write word of that register's offset (R82). -/
theorem encode_audioWrite (m : RegMap) (r : AudioReg) (n : ChannelId) (d : Word) :
    (r.write n d).wf = true ∧ encode m (r.write n d) = [wrWord (r.offset m.audio[n]), d] := by
  cases r <;> fin_cases n <;> exact ⟨rfl, rfl⟩

/-- Settles O57: the word is the read or write word of its offset, so it is that of the register's command, and the step
runs that command (O6). -/
theorem theWholeOffsetSelectsTheRegister : Obligations.TheWholeOffsetSelectsTheRegister := by
  intro s c rest hm hz
  refine ⟨fun i hc hs hi => ?_, fun d i hc hs hi => ?_⟩
  · obtain ⟨hwf, hwords⟩ : i.wf = true ∧ encode s.cfg.regAddr i = [rdWord (offsetOf c)] := by
      simp only [List.mem_cons, List.not_mem_nil, or_false, Prod.mk.injEq] at hi
      rcases hi with ⟨hoff, rfl⟩ | ⟨hoff, rfl⟩ | ⟨hoff, rfl⟩ | ⟨hoff, rfl⟩ <;>
        exact ⟨rfl, congrArg (fun o => [rdWord o]) hoff.symm⟩
    refine stepRunsTheDecodedCommand s i rest hm hwf ?_
    rw [hs, hwords, ← eq_rdWord hc hz]
    rfl
  · obtain ⟨hwf, hwords⟩ : i.wf = true ∧ encode s.cfg.regAddr i = [wrWord (offsetOf c), d] := by
      rcases hi with hi | ⟨n, hi⟩
      · simp only [List.mem_cons, List.not_mem_nil, or_false, Prod.mk.injEq] at hi
        rcases hi with ⟨hoff, rfl⟩ | ⟨hoff, rfl⟩ | ⟨hoff, rfl⟩ | ⟨hoff, rfl⟩ <;>
          exact ⟨rfl, congrArg (fun o => [wrWord o, d]) hoff.symm⟩
      · obtain ⟨r, hoff, rfl⟩ : ∃ r : AudioReg, offsetOf c = r.offset s.cfg.regAddr.audio[n] ∧ i = r.write n d := by
          simp only [List.mem_cons, List.not_mem_nil, or_false, Prod.mk.injEq] at hi
          rcases hi with h | h | h | h | h | h
          exacts [⟨.lch, h⟩, ⟨.lcl, h⟩, ⟨.len, h⟩, ⟨.per, h⟩, ⟨.vol, h⟩, ⟨.dat, h⟩]
        rw [hoff]
        exact encode_audioWrite _ r n d
    refine stepRunsTheDecodedCommand s i rest hm hwf ?_
    rw [hs, hwords, ← eq_wrWord hc hz]
    rfl

end Sys2Proof.Machine
end

section
/-! PROOFS. The encoding family (30_encoding.md): what the pseudo-instructions do (R92). -/

namespace Sys2Proof.Machine

/-! ### SET, CLR and ACK -/

/-- SET sets the operand's bits under the mask (R11, R92). -/
theorem setClr_set_bit (old m mask : Word) {b : Nat} (hb : b < 15) :
    (setClr old (0x8000#16 ||| m) mask).getLsbD b = (old.getLsbD b || (m.getLsbD b && mask.getLsbD b)) := by
  have hzero : ∀ b : Fin 15, (0x8000#16).getLsbD b.val = false := by decide
  have hflag : (0x8000#16 ||| m).getLsbD 15 = true := by simp
  have hbit : (0x8000#16 ||| m).getLsbD b = m.getLsbD b := by rw [BitVec.getLsbD_or, hzero ⟨b, hb⟩, Bool.false_or]
  rw [setClr_bit, hflag, hbit]
  cases mask.getLsbD b <;> simp

theorem and_regMask_bit15 (m : Word) : (m &&& regMask).getLsbD 15 = false := by
  rw [BitVec.getLsbD_and, regMask_bit]
  simp

/-- CLR clears the operand's bits under the mask (R11, R92). -/
theorem setClr_clr_bit (old m mask : Word) {b : Nat} (hb : b < 15) :
    (setClr old (m &&& regMask) mask).getLsbD b = (old.getLsbD b && !(m.getLsbD b && mask.getLsbD b)) := by
  have hflag := and_regMask_bit15 m
  have hbit : (m &&& regMask).getLsbD b = m.getLsbD b := by rw [BitVec.getLsbD_and, regMask_bit]; simp [hb]
  rw [setClr_bit, hflag, hbit]
  cases mask.getLsbD b <;> simp

/-- SET and CLR of a register that stores the bits 14 to 0 (R23 to R25). -/
theorem setClr_regMask_bits (old m : Word) : ∀ b < 15,
    (setClr old (0x8000#16 ||| m) regMask).getLsbD b = (old.getLsbD b || m.getLsbD b) ∧
      (setClr old (m &&& regMask) regMask).getLsbD b = (old.getLsbD b && !m.getLsbD b) := by
  intro b hb
  rw [setClr_set_bit _ _ _ hb, setClr_clr_bit _ _ _ hb, regMask_bit, decide_eq_true hb, Bool.and_true]
  exact ⟨rfl, rfl⟩

/-- ACK clears the one bit its operand has; with bit 15, the set/clear flag, which is not stored, it changes nothing
(R92, log entry 24). -/
theorem setClr_ack_bit (old : Word) (k : Fin 16) (b : Nat) : (setClr old (BitVec.twoPow 16 k) regMask).getLsbD b =
    (old.getLsbD b && (decide (b ≠ k.val) || decide (k = 15))) := by
  have hop : ∀ j, (BitVec.twoPow 16 k.val).getLsbD j = decide (k.val = j) := fun j => by
    rw [BitVec.getLsbD_twoPow, decide_eq_true k.isLt, Bool.true_and]
  by_cases hk : k = 15
  · rw [hk, setClr_noop _ _ _ (by decide)]
    simp
  · have hlt : k.val < 15 := by omega
    by_cases hb : k.val = b
    · have hmask : regMask.getLsbD b = true := by rw [regMask_bit]; exact decide_eq_true (hb ▸ hlt)
      rw [setClr_bit_selected old hmask (by rw [hop]; simp [hb]), hop]
      simp [hb, hk, show b ≠ 15 by omega]
    · rw [setClr_bit_unselected old (by rw [hop]; simp [hb])]
      simp [Ne.symm hb]

/-! ### A write that clears arms nothing -/

/-- A write with bit 15 clear sets no bit (R11). -/
theorem setClr_clears {v : Word} (hv : v.getLsbD 15 = false) (old mask : Word) {b : Nat}
    (h : (setClr old v mask).getLsbD b = true) : old.getLsbD b = true := by
  by_cases hsel : mask.getLsbD b = true ∧ v.getLsbD b = true
  · obtain ⟨hmask, hop⟩ := hsel
    rw [setClr_bit_selected old hmask hop, hv] at h
    cases h
  · rwa [setClr_bit_unselected old hsel] at h

/-- Where no bit is set, none becomes enabled (R101). -/
theorem rises_of_no_set {old new : Word} (h : ∀ b, new.getLsbD b = true → old.getLsbD b = true) (p : Params) (b : Nat) :
    rises p old new b = false := by
  have henabled : armEnabled p new b = true → armEnabled p old b = true := by
    simp only [armEnabled, Bool.and_eq_true, Bool.or_eq_true]
    exact And.imp (h b) (Or.imp_right (h _))
  rw [rises_eq_armRise, armRise]
  cases hnew : armEnabled p new b with
  | false => exact Bool.and_false _
  | true => rw [henabled hnew]; rfl

theorem armAll_of_no_set {old new : Word} (h : ∀ b, new.getLsbD b = true → old.getLsbD b = true) (s : State) :
    armAll old new s = s := by
  simp [armAll, armIfRises, notifyIfRises, deviceBits, rises_of_no_set h]

/-- CLR of DMACON writes the register and does nothing else (R92, R101). -/
theorem exec_clrDmacon (m : Word) (s : State) : exec (wrSetClr .dmacon (m &&& regMask)) s =
    .next (s.setDmacon (setClr s.dma.dmacon (m &&& regMask) s.cfg.dmaconWmask)) := by
  simp only [wrSetClr, exec, execWrDmacon]
  rw [armAll_of_no_set fun _ => setClr_clears (and_regMask_bit15 m) _ _]

/-! ### WRLC -/

/-- A write of a channel's register completes, and changes that channel alone (R160 to R165). -/
theorem exec_audioWrite (r : AudioReg) (n : ChannelId) (d : Word) (s : State) :
    exec (r.write n d) s = .next (s.modifyChan n fun c => r.effect s.cfg.ptrMask d c) := by
  cases r <;> fin_cases n <;> rfl

theorem State.modifyChan_modifyChan (s : State) (n : ChannelId) (f g : Channel → Channel) :
    (s.modifyChan n f).modifyChan n g = s.setChan n (g (f (s.chan n))) := by
  rw [State.modifyChan, State.chan_modifyChan_same]
  simp [State.setChan, State.modifyChan]

/-- The two halves of an address, written one after the other, make the whole pointer: even and under the mask (R160,
R161). -/
theorem pointerLow_pointerHigh (mask p a : Addr) :
    pointerLow mask (pointerHigh mask p (a.extractLsb' 16 16)) (a.extractLsb' 0 16) = a &&& 0xFFFFFFFE#32 &&& mask := by
  have heven : ∀ b : Fin 32, (0xFFFFFFFE#32).getLsbD b.val = decide (b.val ≠ 0) := by decide
  apply BitVec.eq_of_getLsbD_eq
  intro b hb
  rw [pointerLow_bit _ _ _ _ hb, pointerHigh_bit _ _ _ _ hb, BitVec.getLsbD_and, BitVec.getLsbD_and, heven ⟨b, hb⟩]
  by_cases hlow : b < 16
  · simp [hlow]
  · have hhigh : b - 16 < 16 := by omega
    have hne : b ≠ 0 := by omega
    have hadd : 16 + (b - 16) = b := by omega
    simp [hlow, hhigh, hne, hadd]

/-- WRLC writes the whole pointer of the channel and nothing else (R92). -/
theorem wrlc_writes_pointer (n : ChannelId) (a : Addr) (s : State) : ∃ t,
    exec (Instr.wrAudLch n (a.extractLsb' 16 16)) s = .next t ∧ exec (Instr.wrAudLcl n (a.extractLsb' 0 16)) t =
      .next (s.setChan n { s.chan n with pointer := a &&& 0xFFFFFFFE#32 &&& s.cfg.ptrMask }) := by
  refine ⟨_, exec_audioWrite .lch n _ s, (exec_audioWrite .lcl n _ _).trans ?_⟩
  simp only [State.modifyChan_modifyChan, State.modifyChan_cfg, AudioReg.effect, pointerLow_pointerHigh]

/-! ### TICK -/

/-- The commands of a tick, one by one: only AUDPOLL reaches the channels or a pending bit (R107, R138, R192). -/
theorem tick_completes (eol : Bool) (s : State) : ∃ t u v,
    (if eol = true then exec .audpoll s else .next s) = .next t ∧ exec .latadv t = .next u ∧
      exec .commit u = .next v ∧ (eol = false → v.chans = s.chans ∧ v.ints.intreq = s.ints.intreq) := by
  refine ⟨if eol = true then pollAll s else s, _, _, ?_, rfl, rfl, ?_⟩
  · cases eol <;> rfl
  · rintro rfl
    obtain ⟨-, hintreq, -⟩ := latAdvance_rest s.cfg s.ints
    rw [grant_eq]
    exact ⟨rfl, hintreq⟩

/-- TICK's commands are those of a host iteration in which no other master acts (R92, R230). -/
theorem tick_inputs (eol : Bool) (run : CpuRun) (m : RegMap) :
    (Pseudo.tick eol).expand.flatMap (commandInputs m) =
      (tickInputs m ⟨eol, [], run⟩).filter (fun x => decide (x ≠ .cpuPhase run ∧ x ≠ .bookkeep)) := by
  cases eol <;> simp [Pseudo.expand, tickInputs, commandInputs, encode]

/-- Settles O56: each pseudo-instruction is its expansion run; the lemmas above say what its writes do to each bit. -/
theorem pseudoInstructionsDoWhatTheyName : Obligations.PseudoInstructionsDoWhatTheyName := by
  refine ⟨fun k s => ⟨_, _, rfl, rfl, setClr_ack_bit s.ints.intreq k⟩,
    fun m s => ⟨_, _, _, _, rfl, rfl, rfl, rfl, setClr_regMask_bits s.ints.intena m⟩,
    fun m s => ⟨_, _, _, _, rfl, rfl, rfl, rfl, setClr_regMask_bits s.ints.intreq m⟩,
    fun m s => ⟨_, _, _, _, rfl, rfl, rfl, rfl, rfl, rfl, setClr_regMask_bits s.adkcon m⟩,
    fun m s => ⟨_, _, _, _, rfl, rfl, rfl, exec_clrDmacon m s, fun b hb => ⟨?setDmacon, setClr_clr_bit _ m _ hb⟩⟩,
    fun n a s => ?wrlc, fun eol run s => ⟨?words, tick_inputs eol run _, tick_completes eol s⟩⟩
  case setDmacon =>
    rw [(armAll_frame _ _ _).dmacon]
    exact setClr_set_bit _ m _ hb
  case wrlc =>
    obtain ⟨t, hhigh, hlow⟩ := wrlc_writes_pointer n a s
    exact ⟨_, _, t, _, rfl, hhigh, hlow, rfl⟩
  case words => cases eol <;> rfl

end Sys2Proof.Machine
end

section
/-! PROOFS. The arbiter family (41_dma_arbiter.md): WR DMACON and its arming (R100, R101), the reads that answer a register
(R102, R132, R169), the enable query (R104), REQ (R106) and COMMIT (R107 to R110). -/

namespace Sys2Proof.Machine

/-! ### WR DMACON -/

/-- Arming leaves the mask as the write of DMACON set it (R100). -/
theorem armAll_setDmacon_dmacon (old new v : Word) (s : State) : (armAll old new (s.setDmacon v)).dma.dmacon = v :=
  (armAll_frame old new (s.setDmacon v)).dmacon

/-- Settles O19: the mask is SetClr's, and what arming does to channels, pending bits and log is said of "rises", which is
R101's own `armRise`. -/
theorem dmaconWriteArmsTheRisingChannels : Obligations.DmaconWriteArmsTheRisingChannels := by
  intro d s
  refine ⟨rfl, _, rfl, ?_⟩
  simp only [armAll_setDmacon_dmacon, ← rises_eq_armRise]
  refine ⟨fun b => ?mask, ?channels, ?pending, ?log, ?frame⟩
  case mask => exact setClearWritesTheSelectedBits s.dma.dmacon d s.cfg.dmaconWmask b
  case channels => exact armAll_chan _ _ _
  case pending => exact armAll_intreq _ _ _
  case log => exact armAll_log _ _ _
  case frame => exact armAll_eq _ _ _

/-- A legal DMACON mask does not hold bit 15, the set/clear flag (R7, R11). -/
theorem wmask_bit15_of_wf {p : Params} (h : p.wf = true) : p.dmaconWmask.getLsbD 15 = false := by
  simp only [Params.wf, Bool.and_eq_true, Bool.not_eq_true'] at h
  obtain ⟨⟨_, hflag⟩, _⟩ := h
  exact hflag

/-- The operand 0x8000 names no bit but the set/clear flag, which a legal mask does not hold (R7, R100). -/
theorem setClearFlag_and_wmask {p : Params} (h : p.wf = true) : 0x8000#16 &&& p.dmaconWmask = 0 := by
  have hflag : p.dmaconWmask.getLsbD 15 = false := wmask_bit15_of_wf h
  change BitVec.twoPow 16 15 &&& p.dmaconWmask = 0
  rw [BitVec.twoPow_and, hflag]
  rfl

/-- Settles O20: a write that sets no bit arms nothing, and one that selects no bit changes nothing. -/
theorem clearingDmaconDisturbsNothingElse : Obligations.ClearingDmaconDisturbsNothingElse := by
  intro d s
  refine ⟨fun hclear => ⟨_, congrArg _ (armAll_of_no_set (fun _ => setClr_clears hclear _ _) _)⟩, fun hwf hd => ?_⟩
  refine wrDmacon_noop (setClr_noop _ _ _ ?_)
  rcases hd with rfl | rfl
  · exact setClearFlag_and_wmask hwf
  · exact BitVec.zero_and

/-! ### COMMIT -/

/-- Settles O23: the grant goes to the winner, which is the ready source of least rank, and clears its flag alone. -/
theorem commitGrantsTheHighestPriorityReadySource : Obligations.CommitGrantsTheHighestPriorityReadySource := by
  intro s
  exact ⟨rfl, s.winner, (grant s.winner s).dma.waiting, congrArg _ (grant_eq s.winner s), winner_eq_some_iff s,
    winner_eq_none_iff s, grant_waiting s.winner s⟩

/-- The arbiter's choice depends on DMACON by the master enable alone (R109, R110). -/
theorem winner_setDmacon {v : Word} {s : State} (h : v.getLsbD s.cfg.dmaenBit = s.dma.dmacon.getLsbD s.cfg.dmaenBit) :
    (s.setDmacon v).winner = s.winner := by
  have heligible : ∀ src, (s.setDmacon v).eligible src = s.eligible src := fun src => congrArg (_ || ·) h
  simp only [State.winner, heligible, State.setDmacon_dma]

/-- Settles O24: the flip leaves the master enable, so the winner is the same, and a grant reads no DMACON bit. -/
theorem blitterPriorityBitDoesNotAffectCommit : Obligations.BlitterPriorityBitDoesNotAffectCommit := by
  intro s hne
  have hother : ∀ k : Fin 16, k ≠ 10 → (0x0400#16).getLsbD k = false := by decide
  have hwinner : (s.setDmacon (s.dma.dmacon ^^^ 0x0400#16)).winner = s.winner :=
    winner_setDmacon (by rw [BitVec.getLsbD_xor, hother _ hne, Bool.xor_false])
  have hcommit : execCommit (s.setDmacon (s.dma.dmacon ^^^ 0x0400#16)) =
      .next (grant s.winner (s.setDmacon (s.dma.dmacon ^^^ 0x0400#16))) := by rw [execCommit, hwinner]
  refine ⟨_, _, rfl, hcommit, rfl, Waiting.ext_get fun o => ?_⟩
  rw [grant_waiting, grant_waiting, State.setDmacon_dma]

/-! ### Reads and the enable query -/

/-- A bit of DMACON that is not stored reads 0 (R41, R102). -/
theorem dmacon_bit_of_unstored {s : State} (hs : s.Inv) {b : Nat} (h : s.cfg.dmaconWmask.getLsbD b = false) :
    s.dma.dmacon.getLsbD b = false := by
  obtain ⟨hdma, -⟩ := hs
  by_cases hb : b < 16
  · have hbit := congrArg (fun v => v.getLsbD b) hdma
    simpa only [BitVec.getLsbD_and, BitVec.getLsbD_not, h, hb, decide_true, Bool.not_false, Bool.and_true,
      BitVec.ofNat_eq_ofNat, BitVec.getLsbD_zero] using hbit
  · exact BitVec.getLsbD_of_ge _ _ (by omega)

/-- Settles O14: a read is an answer by its arm, and the invariants say which bits of its register are 0. -/
theorem readsReturnTheStoredRegister : Obligations.ReadsReturnTheStoredRegister := by
  intro s
  refine ⟨rfl, rfl, rfl, rfl, rfl, rfl, rfl, rfl, fun hs hwf => ?_⟩
  have ⟨_, hena, hreq, hadk, _⟩ := hs
  exact ⟨fun _ => dmacon_bit_of_unstored hs, dmacon_bit_of_unstored hs (wmask_bit15_of_wf hwf), hena, hreq, hadk⟩

/-- Settles O21: the query is the bit and the master enable; a bit that is not stored is 0 by the invariants. -/
theorem enableQueryNeedsTheMasterBit : Obligations.EnableQueryNeedsTheMasterBit := by
  intro s b
  refine ⟨Bool.and_eq_true_iff, Bool.and_self _, fun hs hb => ?_⟩
  rw [State.isEnabled, dmacon_bit_of_unstored hs hb, Bool.false_and]

/-! ### REQ and requestSlot -/

/-- A request of a source sets its flag (R106). -/
theorem execReq_rank (src : Source) (s : State) : execReq src.rank s = .next (s.setWaiting src true) := by
  cases src <;> rfl

/-- A request of a number that is no source faults (R250, log entry 20). -/
theorem execReq_of_no_source {v : Nat} (h : 4 ≤ v) (s : State) : execReq v s = .fault (.unknownSource v) := by
  obtain ⟨k, rfl⟩ := Nat.exists_eq_add_of_le' h
  rfl

/-- The numbers of the sources are their ranks (R83, R105). -/
theorem eq_rank_of_mem {v : Nat} {src : Source}
    (h : (v, src) ∈ [(0, Source.agnus), (1, .copper), (2, .blitter), (3, .cpu)]) : v = src.rank := by
  simp only [List.mem_cons, Prod.mk.injEq, List.not_mem_nil, or_false] at h
  rcases h with ⟨rfl, rfl⟩ | ⟨rfl, rfl⟩ | ⟨rfl, rfl⟩ | ⟨rfl, rfl⟩ <;> rfl

/-- REQ's word holds the number of its source (R82, R83). -/
theorem encode_req (m : RegMap) (src : Source) : encode m (.req src.rank) = [BitVec.ofNat 16 (0x3000 + src.rank)] := by
  cases src <;> rfl

theorem Waiting.get_set_true (w : Waiting) (src o : Source) :
    (w.set src true).get o = (decide (o = src) || w.get o) := by
  rw [Waiting.get_set]
  by_cases h : o = src <;> simp [h]

/-- Setting a flag that is set changes nothing: requests do not count up (R106). -/
theorem Waiting.set_true_of_get {w : Waiting} {src : Source} (h : w.get src = true) : w.set src true = w := by
  refine Waiting.ext_get fun o => ?_
  rw [Waiting.get_set]
  by_cases ho : o = src <;> simp [ho, h]

/-- A step that takes the interface call requestSlot runs REQ's meaning; the priority is not read (R106, D13). -/
theorem step_requestSlot {s : State} {v priority : Nat} {rest : List Input}
    (hs : s.inputs = .requestSlot v priority :: rest) : step s = execReq v { s with inputs := rest } := by
  unfold step stepInput
  rw [hs]

/-- Settles O22: REQ and the interface call are one operation, which sets the flag of the source numbered so. -/
theorem requestDeclaresTheSourceWaiting : Obligations.RequestDeclaresTheSourceWaiting := by
  refine ⟨fun v src s hv => ?_, fun v s hv => execReq_of_no_source hv s, fun v priority rest s hs => ?_⟩
  · obtain rfl := eq_rank_of_mem hv
    exact ⟨encode_req _ src, _, execReq_rank src s, s.dma.waiting.get_set_true src, Waiting.set_true_of_get⟩
  · rw [step_requestSlot hs]
    refine ⟨fun src hv => ?_, fun hv => execReq_of_no_source hv _⟩
    obtain rfl := eq_rank_of_mem hv
    exact ⟨_, execReq_rank src _, s.dma.waiting.get_set_true src⟩

end Sys2Proof.Machine
end

section
/-! PROOFS. The interrupt controller family (42_interrupt_controller.md): the Paula level (R133), WR INTENA and WR INTREQ
(R130, R131), AINT (R135), GAYLE (R136, R137), the latency queue (R138, R139), the IPL (R140, R142),
and that every command runs to a next state but AINT of bit 15 (R135, R250). -/

namespace Sys2Proof.Machine

/-! ### The Paula level -/

theorem paulaLevel_of_disabled {p : Params} {ena : Word} (h : ena.getLsbD p.globalEnBit = false) (pend : Word) :
    paulaLevel p pend ena = 0 := by
  simp [paulaLevel, h]

theorem paulaLevel_of_none_pending {pend ena : Word} (h : pend &&& ena = 0) (p : Params) :
    paulaLevel p pend ena = 0 := by
  simp [paulaLevel, h]

/-- Under the global enable the level is what the scan from bit 15 down finds (R133). -/
theorem paulaLevel_of_enabled {p : Params} {ena : Word} (h : ena.getLsbD p.globalEnBit = true) {pend : Word}
    (hne : pend &&& ena ≠ 0) : paulaLevel p pend ena = scanLevel p.prio (pend &&& ena) 16 := by
  rw [paulaLevel, if_pos h, if_neg hne]

/-- Settles O25: without the enable or a pending bit there is no scan, and the scan stops at the highest bit. -/
theorem paulaLevelIsThePriorityOfTheHighestBit : Obligations.PaulaLevelIsThePriorityOfTheHighestBit := by
  intro p pend ena
  refine ⟨fun h => paulaLevel_of_disabled h pend, fun h => paulaLevel_of_none_pending h p,
    fun i hena hset hclear => ?_⟩
  have hne : pend &&& ena ≠ 0 := fun h => by simp [h] at hset
  rw [paulaLevel_of_enabled hena hne]
  exact scanLevel_highest p.prio _ i i.isLt hset 16 i.isLt hclear

/-! ### WR INTENA and WR INTREQ -/

/-- A register that stores the bits 14 to 0 takes the operand's flag in the bits the operand names (R11, R23, R24). -/
theorem setClr_regMask_bit (old d : Word) {b : Nat} (hb : b < 15) :
    (setClr old d regMask).getLsbD b = if d.getLsbD b = true then d.getLsbD 15 else old.getLsbD b := by
  have hmask : regMask.getLsbD b = true := by rw [regMask_bit, decide_eq_true hb]
  rw [setClearWritesTheSelectedBits old d regMask b]
  simp only [hmask, true_and]

/-- Settles O17: the corner cases select no stored bit, and a write that clears the global enable leaves it 0. -/
theorem intenaWriteSetsOrClears : Obligations.IntenaWriteSetsOrClears := by
  intro d s
  refine ⟨rfl, _, rfl, fun b hb => setClr_regMask_bit _ d hb, setClr_regMask_bit15 _ d, fun hd => ?_,
    fun hflag hen => paulaLevel_of_disabled ?_ _⟩
  · rcases hd with rfl | rfl <;> exact setClr_noop _ _ _ (by decide)
  · rw [setClr_regMask_bit _ d s.cfg.globalEnBit.isLt, if_pos hen, hflag]

/-- Settles O18, bit by bit as for every register that stores the bits 14 to 0. -/
theorem intreqWriteAcknowledgesOrRequests : Obligations.IntreqWriteAcknowledgesOrRequests := by
  intro d s
  exact ⟨rfl, _, rfl, fun b hb => setClr_regMask_bit _ d hb, setClr_regMask_bit15 _ d⟩

/-! ### AINT -/

theorem exec_aint (b : Fin 15) (a : Bool) (s : State) :
    exec (.aint b.castSucc a) s =
      .next { s.setIntreq (writeBit s.ints.intreq b a) with log := if a then s.log ++ [.intAssert b] else s.log } := by
  rw [← aint_eq]
  exact dif_pos b.isLt

/-- Bit 15 has no pending bit: AINT faults with its own command word (R135, R250). -/
theorem exec_aint_bit15 (m : RegMap) (a : Bool) (s : State) :
    exec (.aint 15 a) s = .fault (.badInterruptBit (encode m (.aint 15 a)).head!) := rfl

/-- The operand of the WR INTREQ that does what AINT does (R135). -/
def aintOperand (b : Fin 15) (a : Bool) : Word := BitVec.ofNat 16 ((if a then 0x8000 else 0) + 2 ^ b.val)

theorem aintOperand_bit15 (b : Fin 15) (a : Bool) : (aintOperand b a).getLsbD 15 = a := by
  revert b a
  decide

theorem aintOperand_bit (b : Fin 15) (a : Bool) (j : Fin 15) : (aintOperand b a).getLsbD j = decide (j = b) := by
  revert b a j
  decide

/-- AINT's write of one pending bit is the set/clear write that names that bit alone (R135). -/
theorem setClr_aintOperand (old : Word) (b : Fin 15) (a : Bool) :
    setClr old (aintOperand b a) regMask = writeBit old b a := by
  refine BitVec.eq_of_getLsbD_eq fun j hj => ?_
  rw [writeBit_bit _ _ _ _ (by omega)]
  by_cases hlt : j < 15
  · rw [setClr_regMask_bit _ _ hlt, aintOperand_bit b a ⟨j, hlt⟩, aintOperand_bit15]
    simp only [decide_eq_true_eq, Fin.ext_iff]
  · obtain rfl : j = 15 := by omega
    rw [setClr_regMask_bit15, if_neg (by omega)]

theorem encode_aint (m : RegMap) (b : Fin 15) (a : Bool) :
    encode m (.aint b.castSucc a) = [BitVec.ofNat 16 (0x4000 + (if a then 16 else 0) + b.val)] := by
  cases a <;> rfl

/-- Settles O26: AINT writes one bit, which is what its WR INTREQ writes; bit 15 has none. -/
theorem aintSetsOrClearsOnePendingBit : Obligations.AintSetsOrClearsOnePendingBit := by
  refine ⟨fun b a s => ⟨encode_aint _ b a, writeBit s.ints.intreq b a, exec_aint b a s,
    fun j => writeBit_bit _ _ _ j (by omega), ?_⟩, fun a s => ?_⟩
  · exact congrArg (fun v => Host.Outcome.next (s.setIntreq v)) (setClr_aintOperand s.ints.intreq b a)
  · rw [exec_aint_bit15 .default]
    cases a <;> rfl

/-! ### GAYLE -/

/-- Settles O27: GAYLE writes its level alone, or it also asserts the funnel bit of the configuration. -/
theorem gayleWritesItsLevelAndFunnels : Obligations.GayleWritesItsLevelAndFunnels := by
  intro l s
  refine ⟨rfl, ?_⟩
  rcases gayleState_cases l s with ⟨e, hnone⟩ | ⟨b, hl, hb, e⟩
  · refine ⟨s.ints.intreq, ?_, fun j => ?_⟩
    · have hlog : (if l = 0 then [] else s.cfg.gayleBit.toList.map Event.intAssert) = [] := by
        rcases hnone with rfl | hnone
        · rfl
        · simp [hnone]
      rw [hlog, List.append_nil]
      exact congrArg _ e
    · have hno : ¬ (l ≠ 0 ∧ ∃ b : Fin 15, s.cfg.gayleBit = some b ∧ b.val = j) := by
        rintro ⟨hl, b, hb, -⟩
        exact hnone.elim hl fun h => by simp [h] at hb
      exact (or_iff_left hno).symm
  · refine ⟨writeBit s.ints.intreq b true, ?_, fun j => ?_⟩
    · rw [if_neg hl, hb]
      exact congrArg _ e
    · rw [writeBit_bit _ _ _ j (by omega), hb]
      rcases eq_or_ne j b.val with rfl | hj
      · simp [hl]
      · simp [hj, hj.symm]

/-! ### The latency queue -/

theorem latAdvance_of_depth_zero {p : Params} (h : p.depth = 0) (c : IntCtl) : latAdvance p c = c := if_pos h

theorem latAdvance_of_filling {p : Params} (h : 0 < p.depth) {c : IntCtl} (hq : c.latQ.length ≠ p.depth) :
    latAdvance p c = { c with latQ := c.latQ ++ [paulaLevel p c.intreq c.intena] } := by
  rw [latAdvance, if_neg h.ne']
  exact if_neg hq

theorem latAdvance_of_full {p : Params} (h : 0 < p.depth) {c : IntCtl} {oldest : Level} {younger : List Level}
    (hlen : c.latQ.length = p.depth) (hq : c.latQ = oldest :: younger) :
    latAdvance p c = { c with lagLevel := oldest, latQ := younger ++ [paulaLevel p c.intreq c.intena] } := by
  rw [latAdvance, if_neg h.ne']
  refine (if_pos hlen).trans ?_
  simp only [hq, List.headD_cons, List.tail_cons]

/-- Settles O28, by the three cases of the advance. -/
theorem latencyAdvancePopsThenPushes : Obligations.LatencyAdvancePopsThenPushes := by
  intro s
  have hexec : exec .latadv s = .next { s with ints := latAdvance s.cfg s.ints } := rfl
  refine ⟨rfl, fun h => ?_, fun h hq => ?_, fun oldest younger h hlen hq => ?_⟩
  · rw [hexec, latAdvance_of_depth_zero h]
  · rw [hexec, latAdvance_of_filling h hq]
    rfl
  · rw [hexec, latAdvance_of_full h hlen hq]
    rfl

/-- The levels at the latest `N` of the ticks 1 to `T`, oldest first; at all of them where there are fewer. -/
def recentLevels (level : Nat → Level) (N T : Nat) : List Level := (List.range' (T - N + 1) (min T N)).map level

theorem recentLevels_length (level : Nat → Level) (N T : Nat) : (recentLevels level N T).length = min T N := by
  simp [recentLevels]

/-- Until there have been `N` ticks, a tick adds its level. -/
theorem recentLevels_succ_of_lt (level : Nat → Level) {N T : Nat} (h : T < N) :
    recentLevels level N (T + 1) = recentLevels level N T ++ [level (T + 1)] := by
  rw [recentLevels, recentLevels, Nat.min_eq_left h, Nat.min_eq_left h.le, Nat.sub_eq_zero_of_le h,
    Nat.sub_eq_zero_of_le h.le, List.range'_1_concat]
  simp [Nat.add_comm]

/-- From then on, a tick adds its level and drops the oldest. -/
theorem recentLevels_succ_of_le (level : Nat → Level) {N T : Nat} (hN : 0 < N) (h : N ≤ T) : ∃ younger,
    recentLevels level N T = level (T + 1 - N) :: younger ∧
    recentLevels level N (T + 1) = younger ++ [level (T + 1)] := by
  obtain ⟨n, rfl⟩ := Nat.exists_eq_add_of_le' hN
  obtain ⟨k, rfl⟩ := Nat.exists_eq_add_of_le' h
  refine ⟨(List.range' (k + 2) n).map level, ?_, ?_⟩
  · rw [recentLevels, Nat.min_eq_right h, Nat.add_sub_cancel, List.range'_succ, List.map_cons]
    congr 2
    omega
  · rw [recentLevels, Nat.min_eq_right (by omega), show k + (n + 1) + 1 - (n + 1) + 1 = k + 2 by omega,
      List.range'_1_concat, List.map_append, show k + 2 + n = k + (n + 1) + 1 by omega]
    rfl

/-- A run with one LATADV in each tick: `before t` and `after t` are the states around the LATADV of tick `t`, and what
happens between two ticks leaves the queue and the lagged level alone (R139). -/
structure LatencyRun (before after : Nat → State) (N : Nat) : Prop where
  depth_before : ∀ t, (before t).cfg.depth = N
  empty : (after 0).ints.latQ = []
  lag_zero : (after 0).ints.lagLevel = 0
  latQ_kept : ∀ t, (before (t + 1)).ints.latQ = (after t).ints.latQ
  lag_kept : ∀ t, (before (t + 1)).ints.lagLevel = (after t).ints.lagLevel
  latadv : ∀ t, exec .latadv (before (t + 1)) = .next (after (t + 1))

/-- The queue holds the levels of the latest ticks, at most the depth of them, and the lagged level is the level of the
tick before those (R139). -/
theorem LatencyRun.queue_and_lag {before after : Nat → State} {N : Nat} (hN : 0 < N) (h : LatencyRun before after N)
    (T : Nat) : (after T).ints.latQ = recentLevels (fun t => (before t).paula) N T ∧
      (after T).ints.lagLevel = if N < T then (before (T - N)).paula else 0 := by
  induction T with
  | zero => exact ⟨by rw [h.empty, recentLevels, Nat.zero_min]; rfl, h.lag_zero⟩
  | succ T ih =>
    obtain ⟨hq, hlag⟩ := ih
    rw [← h.latQ_kept T] at hq
    rw [← h.lag_kept T] at hlag
    have hdepth := h.depth_before (T + 1)
    have hlen : (before (T + 1)).ints.latQ.length = min T N := by rw [hq, recentLevels_length]
    obtain ⟨-, -, hpush, hpop⟩ := latencyAdvancePopsThenPushes (before (T + 1))
    rw [hdepth, h.latadv T] at hpush hpop
    rcases Nat.lt_or_ge T N with hlt | hge
    · rw [next_inj (hpush hN (by omega)).symm, recentLevels_succ_of_lt _ hlt]
      rw [if_neg (by omega)] at hlag ⊢
      exact ⟨congrArg (· ++ _) hq, hlag⟩
    · obtain ⟨younger, hold, hnew⟩ := recentLevels_succ_of_le (fun t => (before t).paula) hN hge
      rw [next_inj (hpop _ younger hN (by omega) (hq.trans hold)).symm, hnew, if_pos (by omega)]
      exact ⟨rfl, rfl⟩

theorem visiblePaula_of_depth_zero {s : State} (h : s.cfg.depth = 0) : s.visiblePaula = s.paula := if_pos h

theorem visiblePaula_of_depth_pos {s : State} (h : 0 < s.cfg.depth) : s.visiblePaula = s.ints.lagLevel := if_neg h.ne'

/-- Settles O29, by induction on the ticks: the queue holds the levels not yet visible. -/
theorem visibleLevelLagsByExactlyTheDepth : Obligations.VisibleLevelLagsByExactlyTheDepth := by
  intro before after N hN hdepth hempty hzero hkept hadv T
  have hrun : LatencyRun before after N :=
    ⟨fun t => (hdepth t).1, hempty, hzero, fun t => (hkept t).1, fun t => (hkept t).2, hadv⟩
  rw [visiblePaula_of_depth_pos (by rw [(hdepth T).2]; exact hN)]
  exact (hrun.queue_and_lag hN T).2

/-! ### The IPL -/

/-- Settles O31: the visible level is the immediate one with depth 0 and the lagged one otherwise. -/
theorem iplIsTheMaximumOfPaulaAndGayle : Obligations.IplIsTheMaximumOfPaulaAndGayle := by
  intro s
  refine ⟨fun h => ?_, fun h => ?_, s.ipl.is_le⟩
  · rw [State.ipl, visiblePaula_of_depth_zero h]
    exact Fin.coe_max _ _
  · rw [State.ipl, visiblePaula_of_depth_pos h]
    exact Fin.coe_max _ _

/-! ### Every command completes -/

/-- The four numbers REQ can hold are the sources' ranks (R83, R105). -/
theorem exists_rank_of_lt {v : Nat} (h : v < 4) : ∃ src : Source, v = src.rank := by
  interval_cases v
  exacts [⟨.agnus, rfl⟩, ⟨.copper, rfl⟩, ⟨.blitter, rfl⟩, ⟨.cpu, rfl⟩]

/-- Of the commands only REQ and AINT can fault: REQ for no number the encoding has, AINT for bit 15 alone (R135,
R250). -/
theorem exec_completes {i : Instr} (hw : i.wf = true) (h15 : ∀ a, i ≠ .aint 15 a) (s : State) :
    ∃ t, exec i s = .next t := by
  cases i with
  | req v =>
    obtain ⟨src, rfl⟩ := exists_rank_of_lt (of_decide_eq_true hw)
    exact ⟨_, execReq_rank src s⟩
  | aint b a =>
    rcases b.eq_castSucc_or_eq_last with ⟨b, rfl⟩ | rfl
    · exact ⟨_, exec_aint b a s⟩
    · exact absurd rfl (h15 a)
  | _ => exact ⟨_, rfl⟩

/-- Settles O7. -/
theorem everyCommandCompletes : Obligations.EveryCommandCompletes := by
  intro i s hw
  refine ⟨fun h15 => exec_completes hw h15 s, ?_⟩
  rintro a rfl
  exact exec_aint_bit15 s.cfg.regAddr a s

end Sys2Proof.Machine
end

section
/-! PROOFS. The audio register family (43_audio_registers.md): the writes of a channel's registers (R160 to R166, R170) and
WR ADKCON with its roles (R167, R168). -/

namespace Sys2Proof.Machine

/-! ### The words of the channels' registers -/

/-- The command word that writes the register of channel 0 under the default map (R81, R82). -/
def AudioReg.firstWord : AudioReg → Nat
  | .lch => 0x10A0 | .lcl => 0x10A2 | .len => 0x10A4 | .per => 0x10A6 | .vol => 0x10A8 | .dat => 0x10AA

/-- By default the registers of one channel lie 0x10 bytes after those of the channel before it (R82). -/
theorem encode_audioWrite_default (r : AudioReg) (n : ChannelId) (d : Word) :
    encode .default (r.write n d) = [BitVec.ofNat 16 (r.firstWord + 0x10 * n.val), d] := by
  have hword : wrWord (r.offset RegMap.default.audio[n]) = BitVec.ofNat 16 (r.firstWord + 0x10 * n.val) := by
    cases r <;> revert n <;> decide
  obtain ⟨-, hwords⟩ := encode_audioWrite .default r n d
  rw [hwords, hword]

/-! ### Pointer, length, period, volume and sample -/

/-- The low half takes every bit of the operand but bit 0 (R161). -/
theorem pointerLow_bit_of_ne_zero (mask p : Addr) (d : Word) {b : Nat} (hb : b < 32) (hne : b ≠ 0) :
    (pointerLow mask p d).getLsbD b = ((if b < 16 then d.getLsbD b else p.getLsbD b) && mask.getLsbD b) := by
  rw [pointerLow_bit _ _ _ _ hb, decide_eq_true hne, Bool.and_true]

/-- Settles O32: each write changes its channel's pointer alone, to what `pointerHigh` or `pointerLow` makes of it. -/
theorem pointerWritesReplaceOneHalf : Obligations.PointerWritesReplaceOneHalf := by
  intro n d s
  exact ⟨encode_audioWrite_default .lch n d, encode_audioWrite_default .lcl n d,
    ⟨_, exec_audioWrite .lch n d s, pointerHigh_bit _ _ d⟩,
    ⟨_, exec_audioWrite .lcl n d s, pointerLow_bit0 _ _ d, fun _ => pointerLow_bit_of_ne_zero _ _ d⟩⟩

/-- Settles O33: the volume is the operand's low 7 bits with 64 as its ceiling (R166). -/
theorem lengthPeriodAndVolumeWrites : Obligations.LengthPeriodAndVolumeWrites := by
  intro n d s
  refine ⟨encode_audioWrite_default .len n d, encode_audioWrite_default .per n d, encode_audioWrite_default .vol n d,
    exec_audioWrite .len n d s, exec_audioWrite .per n d s, mapVolume d, exec_audioWrite .vol n d s, ?_⟩
  rw [mapVolume_toNat, min_def_lt]

/-- Settles O34: the write reads no mode. -/
theorem dataWriteArmsInterruptMode : Obligations.DataWriteArmsInterruptMode := by
  intro n d s
  exact ⟨encode_audioWrite_default .dat n d, exec_audioWrite .dat n d s⟩

/-- Of the six writes only that of the sample reaches a working copy or the mode (R164, R165, R170). -/
theorem AudioReg.effect_keeps_working {r : AudioReg} (hr : r ≠ .dat) (mask : Addr) (d : Word) (c : Channel) :
    (r.effect mask d c).workingPeriod = c.workingPeriod ∧ (r.effect mask d c).workingLength = c.workingLength ∧
    (r.effect mask d c).workingPointer = c.workingPointer ∧ (r.effect mask d c).mode = c.mode := by
  cases r with
  | dat => exact absurd rfl hr
  | lch | lcl | len | per | vol => exact ⟨rfl, rfl, rfl, rfl⟩

/-- Settles O36: the channel written keeps its working copies and mode, and every other channel is as it was. -/
theorem pointerLengthPeriodAndVolumeWritesChangeNoWorkingCopy :
    Obligations.PointerLengthPeriodAndVolumeWritesChangeNoWorkingCopy := by
  intro n m d s t i hi h
  obtain ⟨r, hr, rfl⟩ : ∃ r : AudioReg, r ≠ .dat ∧ i = r.write n d := by
    simp only [List.mem_cons, List.not_mem_nil, or_false] at hi
    rcases hi with h | h | h | h | h
    exacts [⟨.lch, nofun, h⟩, ⟨.lcl, nofun, h⟩, ⟨.len, nofun, h⟩, ⟨.per, nofun, h⟩, ⟨.vol, nofun, h⟩]
  rw [exec_audioWrite] at h
  rw [next_inj h, State.chan_modifyChan]
  split
  next hm => exact hm ▸ AudioReg.effect_keeps_working hr _ d _
  next => exact ⟨rfl, rfl, rfl, rfl⟩

/-! ### ADKCON and the modulation roles -/

/-- The roles in ADKCON's bits: alternating where the channel modulates both volume and period, by period where it
modulates the period alone (R168). -/
theorem rolesFor_eq (adkcon : Word) (n : ChannelId) (c : Channel) : rolesFor adkcon n c =
    { c with
      modulateToggle := decide (n.val < 3) && (adkcon.getLsbD n.val && adkcon.getLsbD (n.val + 4))
      modulatingVp := decide (n.val < 3) && (adkcon.getLsbD (n.val + 4) && !adkcon.getLsbD n.val) } := by
  by_cases hn : n.val < 3 <;> simp [rolesFor, useVolume, usePeriod, hn, Bool.and_comm]

/-- A channel modulates if it has a next one and one of its two ADKCON bits is set (R168). -/
theorem modActive_iff (s : State) (n : ChannelId) : s.modActive n = true ↔
    n.val < 3 ∧ (s.adkcon.getLsbD n.val = true ∨ s.adkcon.getLsbD (n.val + 4) = true) := by
  simp [State.modActive, useVolume, usePeriod]

/-- Settles O37: the register is written as every one that stores the bits 14 to 0, then the roles are computed from it. -/
theorem adkconWriteSetsTheModulationRoles : Obligations.AdkconWriteSetsTheModulationRoles := by
  intro d s
  exact ⟨rfl, _, rfl, fun b hb => setClr_regMask_bit _ d hb, setClr_regMask_bit15 _ d,
    fun n => (roleUpdate_chan _ n).trans (rolesFor_eq _ n _), modActive_iff _, rfl⟩

end Sys2Proof.Machine
end

section
/-! PROOFS. The audio state machine family (44_audio_state_machine.md): one poll of a channel in each mode (R193 to R200),
field by field. -/

namespace Sys2Proof.Machine

/-! ### AUDPOLL -/

theorem channelPoll_of_idle {n : ChannelId} {s : State} (h : (s.chan n).mode = .idle) : channelPoll n s = s := by
  rw [channelPoll, h]

theorem channelPoll_of_dma {n : ChannelId} {s : State} (h : (s.chan n).mode = .dma) :
    channelPoll n s = dmaPoll n s := by
  rw [channelPoll, h]

theorem channelPoll_of_interrupt {n : ChannelId} {s : State} (h : (s.chan n).mode = .interrupt) :
    channelPoll n s = intPoll n s := by
  rw [channelPoll, h]

/-- With all channels Idle each poll meets the state it started from (R193). -/
theorem pollAll_of_idle {s : State} (h : ∀ n : ChannelId, (s.chan n).mode = .idle) : pollAll s = s := by
  simp only [pollAll, channelPoll_of_idle (h _)]

/-- Settles O38. -/
theorem audpollPollsTheChannelsInOrder : Obligations.AudpollPollsTheChannelsInOrder :=
  ⟨fun _ => ⟨rfl, rfl⟩, fun _ _ => ⟨channelPoll_of_idle, channelPoll_of_dma, channelPoll_of_interrupt⟩,
    fun _ h => congrArg _ (pollAll_of_idle h)⟩

/-! ### The poll in Interrupt mode (R200) -/

theorem intPoll_of_running {n : ChannelId} {s : State} (h : 0 < s.counted n) :
    intPoll n s = s.setChan n { s.chan n with workingPeriod := s.counted n } :=
  if_neg (Int.not_le.2 h)

theorem intPoll_of_pending {n : ChannelId} {s : State} (h : s.counted n ≤ 0)
    (hreq : s.ints.intreq.getLsbD (s.cfg.intBit n) = true) :
    intPoll n s = s.setChan n { s.chan n with workingPeriod := s.counted n, mode := .idle } := by
  refine (if_pos h).trans ((if_pos hreq).trans ?_)
  exact s.modifyChan_modifyChan n _ _

theorem intPoll_of_acknowledged {n : ChannelId} {s : State} (h : s.counted n ≤ 0)
    (hreq : s.ints.intreq.getLsbD (s.cfg.intBit n) = false) :
    intPoll n s =
      (s.setChan n { s.chan n with workingPeriod := s.counted n + zextInt (s.chan n).period }).raiseAudioInt n :=
  (if_pos h).trans (if_neg (Bool.eq_false_iff.1 hreq))

/-- Settles O40. -/
theorem interruptPollFollowsTheAlgorithm : Obligations.InterruptPollFollowsTheAlgorithm := by
  intro n s
  refine ⟨intPoll_of_running, intPoll_of_pending, fun h hreq => ?_⟩
  refine ⟨writeBit s.ints.intreq (s.cfg.intBit n) true, fun b => ?_, intPoll_of_acknowledged h hreq⟩
  rw [writeBit_bit _ _ _ _ (by omega)]
  by_cases hb : b = (s.cfg.intBit n).val <;> simp [hb]

/-! ### The enable check (R198) -/

/-- An assertion sets its own bit and keeps the others (R135). -/
theorem raiseAudioInt_intreq (n : ChannelId) (s : State) (b : Nat) :
    (s.raiseAudioInt n).ints.intreq.getLsbD b = true ↔
      s.ints.intreq.getLsbD b = true ∨ (s.cfg.intBit n).val = b := by
  rw [State.raiseAudioInt_ints, writeBit_bit _ _ _ _ (by omega)]
  by_cases hb : b = (s.cfg.intBit n).val
  · simp [hb]
  · simp [hb, Ne.symm hb]

theorem enableCheck_intreq (n : ChannelId) (s : State) (b : Nat) :
    (enableCheck n s).ints.intreq.getLsbD b = true ↔
      s.ints.intreq.getLsbD b = true ∨ (¬ s.isEnabled (s.cfg.dmaBit n) = true ∧ (s.cfg.intBit n).val = b) := by
  unfold enableCheck
  split
  next h => simp [h]
  next h => exact (raiseAudioInt_intreq n (toIdle n s) b).trans (or_congr_right (and_iff_right h).symm)

theorem enableCheck_log (n : ChannelId) (s : State) : (enableCheck n s).log =
    s.log ++ if s.isEnabled (s.cfg.dmaBit n) = true then [] else [.intAssert (s.cfg.intBit n)] := by
  unfold enableCheck
  split
  next => exact (List.append_nil _).symm
  next => rfl

/-- The enable check touches channels, pending bits and the log alone. -/
theorem enableCheck_eq (n : ChannelId) (s : State) : enableCheck n s =
    { s with
      chans := (enableCheck n s).chans
      ints := { s.ints with intreq := (enableCheck n s).ints.intreq }
      log := (enableCheck n s).log } := by
  unfold enableCheck
  split <;> rfl

/-! ### The fetch of a DMA poll (R194, R195, R197) -/

/-- What a fetch leaves in its own channel, but for the working period. -/
theorem dmaFetch_chan_own (n : ChannelId) (s : State) : (dmaFetch n s).chan n =
    { s.chan n with
      workingPointer :=
        if (s.chan n).workingLength = 1 then (s.chan n).pointer
        else pointerNext s.cfg.ptrMask (s.chan n).workingPointer
      workingLength :=
        if (s.chan n).workingLength = 1 then (s.chan n).length else (s.chan n).workingLength - 1
      data := if s.modActive n = true then 0 else s.chipWord (s.chan n).workingPointer
      modulatingVp :=
        if s.modActive n = true then
          if (s.chan n).modulateToggle = true then !(s.chan n).modulatingVp else (s.chan n).modulatingVp
        else (s.chan n).modulatingVp } := by
  rw [dmaFetch_chan, modulateIfActive_chan, modActive_fetchedState, if_pos rfl, fetchedState_chan, if_pos rfl]
  by_cases hlast : (s.chan n).workingLength = 1 <;> by_cases hactive : s.modActive n = true <;>
    simp only [hlast, hactive, and_self, and_false, Bool.false_eq_true, if_true, if_false] <;> rfl

theorem dmaFetch_intreq (n : ChannelId) (s : State) (b : Nat) :
    (dmaFetch n s).ints.intreq.getLsbD b = true ↔
      s.ints.intreq.getLsbD b = true ∨ ((s.chan n).workingLength = 1 ∧ (s.cfg.intBit n).val = b) := by
  rw [dmaFetch_ints]
  split
  next h => exact (raiseAudioInt_intreq n s b).trans (or_congr_right (and_iff_right h).symm)
  next h => simp only [h, false_and, or_false]

/-! ### The poll in DMA mode (R194, R198) -/

/-- The state a DMA poll's enable check meets: the countdown and, where it expires, the fetch (R194). -/
def dmaCountdown (n : ChannelId) (s : State) : State :=
  if s.counted n ≤ 0 then setWorkingPeriod n (s.counted n + zextInt (s.chan n).period) (dmaFetch n s)
  else setWorkingPeriod n (s.counted n) s

theorem dmaPoll_eq (n : ChannelId) (s : State) : dmaPoll n s = enableCheck n (dmaCountdown n s) := rfl

theorem dmaCountdown_frame (n : ChannelId) (s : State) : AudioFrame s (dmaCountdown n s) := by
  unfold dmaCountdown
  split
  · exact (dmaFetch_frame n s).trans (setWorkingPeriod_frame n _ _)
  · exact setWorkingPeriod_frame n _ s

/-- The enable check reads what the fetch does not write (R104). -/
theorem AudioFrame.isEnabled {s t : State} (f : AudioFrame s t) (b : Nat) : t.isEnabled b = s.isEnabled b := by
  rw [State.isEnabled, State.isEnabled, State.dmaEnabled, State.dmaEnabled, f.dmacon, f.cfg]

theorem dmaPoll_chan_own (n : ChannelId) (s : State) : (dmaPoll n s).chan n =
    { if s.counted n ≤ 0 then (dmaFetch n s).chan n else s.chan n with
      workingPeriod :=
        if s.counted n ≤ 0 then s.counted n + zextInt (s.chan n).period else s.counted n
      mode := if s.isEnabled (s.cfg.dmaBit n) = true then (s.chan n).mode else .idle } := by
  have f := dmaCountdown_frame n s
  rw [dmaPoll_eq, enableCheck_chan_self, f.isEnabled, f.cfg, dmaCountdown]
  split <;> simp only [setWorkingPeriod, State.chan_modifyChan_same, dmaFetch_chan_own]

theorem dmaPoll_chan_ne {k n : ChannelId} (hn : n ≠ k) (s : State) : (dmaPoll k s).chan n =
    if s.counted k ≤ 0 ∧ s.modActive k = true ∧ n.val = k.val + 1 then
      (s.chan n).modulated (s.chan k).modulatingVp (s.chipWord (s.chan k).workingPointer)
    else s.chan n := by
  rw [dmaPoll_eq, enableCheck_chan_ne hn, dmaCountdown, ite_and, ← dmaFetch_chan_ne hn]
  split <;> exact State.chan_modifyChan_ne _ _ _ _ hn

theorem dmaPoll_intreq (n : ChannelId) (s : State) (b : Nat) :
    (dmaPoll n s).ints.intreq.getLsbD b = true ↔ s.ints.intreq.getLsbD b = true ∨
      (((s.counted n ≤ 0 ∧ (s.chan n).workingLength = 1) ∨ ¬ s.isEnabled (s.cfg.dmaBit n) = true) ∧
        (s.cfg.intBit n).val = b) := by
  have f := dmaCountdown_frame n s
  have hcount : (dmaCountdown n s).ints.intreq.getLsbD b = true ↔ s.ints.intreq.getLsbD b = true ∨
      ((s.counted n ≤ 0 ∧ (s.chan n).workingLength = 1) ∧ (s.cfg.intBit n).val = b) := by
    unfold dmaCountdown
    split
    next h => simp only [h, true_and]; exact dmaFetch_intreq n s b
    next h => simp only [h, false_and, or_false]; rfl
  rw [dmaPoll_eq, enableCheck_intreq, f.isEnabled, f.cfg, hcount, or_assoc, or_and_right]

theorem dmaPoll_log (n : ChannelId) (s : State) : (dmaPoll n s).log = s.log ++
    (if s.counted n ≤ 0 then
      [.memRead (s.chan n).workingPointer (s.chipWord (s.chan n).workingPointer)] else []) ++
    (if s.counted n ≤ 0 ∧ (s.chan n).workingLength = 1 then [.intAssert (s.cfg.intBit n)] else []) ++
    (if s.isEnabled (s.cfg.dmaBit n) = true then [] else [.intAssert (s.cfg.intBit n)]) := by
  have f := dmaCountdown_frame n s
  rw [dmaPoll_eq, enableCheck_log, f.isEnabled, f.cfg, dmaCountdown]
  congr 1
  split
  next h => simp only [h, true_and]; exact dmaFetch_log n s
  next h => simp [h, setWorkingPeriod]

theorem dmaPoll_waiting (n : ChannelId) (s : State) (o : Source) : (dmaPoll n s).dma.waiting.get o =
    (s.dma.waiting.get o || decide (s.counted n ≤ 0 ∧ s.cfg.audioReq = true ∧ o = .agnus)) := by
  rw [dmaPoll_eq, enableCheck_eq, dmaCountdown]
  split
  next h => simpa only [h, true_and, setWorkingPeriod, State.modifyChan_dma, dmaFetch_dma] using audioRequest_waiting s o
  next h => simp [h, setWorkingPeriod]

theorem dmaPoll_memReads (n : ChannelId) (s : State) :
    (dmaPoll n s).memReads = s.memReads + if s.counted n ≤ 0 then 1 else 0 := by
  rw [dmaPoll_eq, enableCheck_eq, dmaCountdown]
  split <;> simp [setWorkingPeriod]

/-- A DMA poll touches channels, pending bits, Agnus' flag, the log and the counter of reads alone. -/
theorem dmaPoll_rest (n : ChannelId) (s : State) : dmaPoll n s =
    { s with
      chans := (dmaPoll n s).chans
      ints := { s.ints with intreq := (dmaPoll n s).ints.intreq }
      dma := { s.dma with waiting := (dmaPoll n s).dma.waiting }
      log := (dmaPoll n s).log
      memReads := s.memReads + if s.counted n ≤ 0 then 1 else 0 } := by
  have f := dmaPoll_frame n s
  refine State.ext f.cfg ?_ ?_ rfl f.adkcon f.mem (dmaPoll_memReads n s) rfl f.lastRead f.host f.inputs
  · exact IntCtl.ext f.intena rfl f.gayleLevel f.latQ f.lagLevel
  · exact Arbiter.ext f.dmacon rfl f.lastGrant

theorem isEnabled_iff (s : State) (b : Nat) : s.isEnabled b = true ↔
    s.dma.dmacon.getLsbD b = true ∧ s.dma.dmacon.getLsbD s.cfg.dmaenBit = true := Bool.and_eq_true_iff

/-- Settles O39: each clause is a field of the poll, once its conditions are read as the model's own. -/
theorem dmaPollFollowsTheAlgorithm : Obligations.DmaPollFollowsTheAlgorithm := by
  rintro n s _ rfl
  have hcounted : (s.chan n).workingPeriod - (s.cfg.rate : Int) = s.counted n := rfl
  simp only [hcounted, ← modActive_iff, ← isEnabled_iff, ite_not]
  refine ⟨?own, ?next, ?others, dmaPoll_intreq n s, dmaPoll_log n s, dmaPoll_waiting n s, dmaPoll_rest n s⟩
  case own =>
    rw [dmaPoll_chan_own, dmaFetch_chan_own]
    by_cases hfetch : s.counted n ≤ 0
    · simp only [hfetch, if_true, true_and, ite_and]
      rfl
    · simp only [hfetch, if_false, false_and]
  case next =>
    intro m hm
    rw [dmaPoll_chan_ne (Fin.ne_of_val_ne (by omega))]
    simp only [hm, and_true]
    rfl
  case others =>
    intro m hne hnext
    rw [dmaPoll_chan_ne hne, if_neg fun h => hnext h.2.2]

end Sys2Proof.Machine
end

section
/-! PROOFS. The audio state machine family (44_audio_state_machine.md): what the polls of one AUDPOLL fetch (R196) and how a
modulation meets the next channel's poll (R202). -/

namespace Sys2Proof.Machine

/-! ### What a poll fetches -/

/-- From `s` to `t` the fetches were at the addresses `as`, and the counter of reads went up by their number. -/
structure Reads (s t : State) (as : List Addr) : Prop where
  fetches : Fetches s t as
  memReads : t.memReads = s.memReads + as.length

theorem Reads.trans {s t u : State} {as bs : List Addr} (h : Reads s t as) (g : Reads t u bs) :
    Reads s u (as ++ bs) where
  fetches := h.fetches.trans g.fetches
  memReads := by rw [g.memReads, h.memReads, List.length_append, Nat.add_assoc]

theorem Fetches.log_drop {s t : State} {as : List Addr} (h : Fetches s t as) :
    t.log = s.log ++ t.log.drop s.log.length := by
  obtain ⟨l, hl, -⟩ := h
  rw [hl, List.drop_left]

/-- The counter and the log of a stretch agree on how many reads it made (R45). -/
theorem Reads.memReads_drop {s t : State} {as : List Addr} (h : Reads s t as) :
    t.memReads = s.memReads + (fetchAddresses (t.log.drop s.log.length)).length := by
  rw [h.fetches.fetchAddresses_drop, h.memReads]

/-- The addresses a poll of channel `n` fetches from: its working pointer, if it is in DMA mode and its countdown expires
(R194). -/
def State.pollReads (s : State) (n : ChannelId) : List Addr :=
  if (s.chan n).mode = .dma ∧ s.counted n ≤ 0 then [(s.chan n).workingPointer] else []

theorem dmaPoll_reads (n : ChannelId) (s : State) :
    Reads s (dmaPoll n s) (if s.counted n ≤ 0 then [(s.chan n).workingPointer] else []) where
  fetches := by
    refine ⟨_, by rw [dmaPoll_log, List.append_assoc, List.append_assoc], ?_⟩
    split <;> split <;> split <;> rfl
  memReads := by
    rw [dmaPoll_memReads]
    split <;> rfl

theorem intPoll_memReads (n : ChannelId) (s : State) : (intPoll n s).memReads = s.memReads := by
  unfold intPoll
  simp only
  split
  · split <;> rfl
  · rfl

theorem channelPoll_reads (n : ChannelId) (s : State) : Reads s (channelPoll n s) (s.pollReads n) := by
  unfold State.pollReads
  cases hmode : (s.chan n).mode with
  | idle => rw [channelPoll_of_idle hmode]; exact ⟨.of_log_eq rfl, rfl⟩
  | dma => simpa only [channelPoll_of_dma hmode, true_and] using dmaPoll_reads n s
  | interrupt => rw [channelPoll_of_interrupt hmode]; exact ⟨intPoll_fetches n s, intPoll_memReads n s⟩

theorem pollAll_reads (s : State) : Reads s (pollAll s)
    (s.pollReads 0 ++ (s.beforePoll 1).pollReads 1 ++ (s.beforePoll 2).pollReads 2 ++ (s.beforePoll 3).pollReads 3) :=
  (((channelPoll_reads 0 _).trans (channelPoll_reads 1 _)).trans (channelPoll_reads 2 _)).trans (channelPoll_reads 3 _)

/-- The polls before a channel's own leave its mode. -/
theorem beforePoll_mode (n : ChannelId) (s : State) : ((s.beforePoll n).chan n).mode = (s.chan n).mode := by
  rcases beforePoll_chan n s with e | ⟨_, -, -, -, _, e⟩ <;> rw [e]
  exact Channel.modulated_mode _ _ _

theorem beforePoll_pollReads_length (n : ChannelId) (s : State) :
    ((s.beforePoll n).pollReads n).length ≤ if (s.chan n).mode = .dma then 1 else 0 := by
  rw [State.pollReads, beforePoll_mode, ite_and]
  split
  · split <;> simp
  · exact le_rfl

/-- Settles O43: a poll reads as `pollReads` says, and the four lists follow each other. -/
theorem oneFetchPerChannelPerPoll : Obligations.OneFetchPerChannelPerPoll := by
  refine ⟨fun n s => ?_, fun s t h => ?_⟩
  · have hreads := channelPoll_reads n s
    refine ⟨?_, ?_, hreads.memReads_drop, hreads.fetches.log_drop⟩
    · rw [hreads.fetches.fetchAddresses_drop, State.pollReads]
      split
      exacts [.inr rfl, .inl rfl]
    · rw [hreads.fetches.fetchAddresses_drop, State.pollReads]
      exact fun hmode => if_neg fun h => hmode h.1
  · obtain rfl := next_inj h
    have hreads := pollAll_reads s
    refine ⟨?_, hreads.memReads_drop, hreads.fetches.log_drop⟩
    have hle := fun n => beforePoll_pollReads_length n s
    rw [hreads.fetches.fetchAddresses_drop, ← List.countP_eq_length_filter]
    simp only [List.length_append, List.countP_cons, List.countP_nil, decide_eq_true_eq]
    have h0 : (s.pollReads 0).length ≤ _ := hle 0
    have h1 := hle 1
    have h2 := hle 2
    have h3 := hle 3
    omega

/-! ### A modulation and the neighbour's poll (R202) -/

theorem dmaPoll_workingPeriod (n : ChannelId) (s : State) : ((dmaPoll n s).chan n).workingPeriod =
    if 0 < s.counted n then s.counted n else s.counted n + zextInt (s.chan n).period := by
  rw [dmaPoll_chan_own]
  by_cases h : s.counted n ≤ 0
  · rw [if_neg (Int.not_lt.2 h)]
    exact if_pos h
  · rw [if_pos (Int.not_le.1 h)]
    exact if_neg h

theorem intPoll_workingPeriod (n : ChannelId) (s : State) : ((intPoll n s).chan n).workingPeriod =
    if 0 < s.counted n ∨ s.ints.intreq.getLsbD (s.cfg.intBit n) = true then s.counted n
    else s.counted n + zextInt (s.chan n).period := by
  by_cases h : 0 < s.counted n
  · rw [intPoll_of_running h, if_pos (.inl h), State.chan_setChan_same]
  · by_cases hreq : s.ints.intreq.getLsbD (s.cfg.intBit n) = true
    · rw [intPoll_of_pending (Int.not_lt.1 h) hreq, if_pos (.inr hreq), State.chan_setChan_same]
    · rw [intPoll_of_acknowledged (Int.not_lt.1 h) (Bool.eq_false_iff.2 hreq), if_neg (not_or.2 ⟨h, hreq⟩),
        State.chan_raiseAudioInt, State.chan_setChan_same]

/-- A poll leaves its own channel's volume (R194, R200). -/
theorem channelPoll_volume (n : ChannelId) (s : State) : ((channelPoll n s).chan n).volume = (s.chan n).volume :=
  not_not.1 (channelPoll_ownPoll n s).volume

theorem beforePoll_next {n m : ChannelId} (hm : m.val = n.val + 1) (s : State) :
    s.beforePoll m = channelPoll n (s.beforePoll n) := by
  obtain ⟨j, rfl⟩ : ∃ j : Fin 3, n = j.castSucc := ⟨⟨n.val, by omega⟩, rfl⟩
  obtain rfl : m = j.succ := Fin.ext hm
  exact beforePoll_succ j s

/-- A channel that fetches under modulation hands the next channel over to its own poll with the word in it (R192, R197,
R202). -/
theorem beforePoll_of_modulates {s : State} {n m : ChannelId} (hm : m.val = n.val + 1)
    (hmode : ((s.beforePoll n).chan n).mode = .dma) (hfetch : (s.beforePoll n).counted n ≤ 0)
    (hactive : s.modActive n = true) :
    (s.beforePoll m).chan m = (s.chan m).modulated ((s.beforePoll n).chan n).modulatingVp
      ((s.beforePoll n).chipWord ((s.beforePoll n).chan n).workingPointer) := by
  have hlater : (s.beforePoll n).chan m = s.chan m := beforePoll_chan_later (Fin.lt_def.2 (by omega)) s
  rw [beforePoll_next hm, channelPoll_of_dma hmode, dmaPoll_chan_ne (Fin.ne_of_val_ne (by omega)),
    if_pos ⟨hfetch, by rw [beforePoll_modActive]; exact hactive, hm⟩, hlater]

/-- Settles O44: the next channel is polled with the word in its working period or volume. -/
theorem modulationLandsBeforeTheNeighboursPoll : Obligations.ModulationLandsBeforeTheNeighboursPoll := by
  intro s n m hm u W wp hmode hexpires huse
  have hcfg : (s.beforePoll m).cfg = s.cfg := (beforePoll_frame m s).cfg
  have hfetch : u.counted n ≤ 0 := by
    rw [State.counted, (beforePoll_frame n s).cfg]
    omega
  have hactive : s.modActive n = true := (modActive_iff s n).2 ⟨by omega, huse⟩
  have hland : (s.beforePoll m).chan m = (s.chan m).modulated (u.chan n).modulatingVp W :=
    beforePoll_of_modulates hm hmode hfetch hactive
  refine ⟨pollAll s, rfl, fun hvp => ?_, fun hvp => ?_⟩
  · rw [hvp] at hland
    have hcounted : (s.beforePoll m).counted m = wp := by rw [State.counted, hland, hcfg]; rfl
    have hown : ((s.beforePoll m).chan m).mode = (s.chan m).mode := beforePoll_mode m s
    have hperiod : ((s.beforePoll m).chan m).period = (s.chan m).period := by rw [hland]; rfl
    rw [pollAll_chan]
    refine ⟨fun hidle => ?_, fun hdma => ?_, fun hint => ?_⟩
    · rw [channelPoll_of_idle (hown.trans hidle), hland]
      rfl
    · rw [channelPoll_of_dma (hown.trans hdma), dmaPoll_workingPeriod, hcounted, hperiod]
      rfl
    · rw [channelPoll_of_interrupt (hown.trans hint), intPoll_workingPeriod, hcounted, hperiod, hcfg, beforePoll_next hm]
      rfl
  · rw [pollAll_chan, channelPoll_volume, hland, hvp]
    rfl

end Sys2Proof.Machine
end

section
/-! PROOFS. The audio state machine family (44_audio_state_machine.md): who changes a pending bit (R203, R254), and the
transition table of the modes (R191). -/

namespace Sys2Proof.Machine

/-! ### Pending bits -/

/-- A bit that a set/clear write changes is named by the operand and takes the operand's bit 15 (R11). -/
theorem setClr_bit_changed {old v mask : Word} {b : Nat} (h : (setClr old v mask).getLsbD b ≠ old.getLsbD b) :
    v.getLsbD b = true ∧ v.getLsbD 15 = (setClr old v mask).getLsbD b := by
  by_cases hsel : mask.getLsbD b = true ∧ v.getLsbD b = true
  · exact ⟨hsel.2, (setClr_bit_selected old hsel.1 hsel.2).symm⟩
  · exact absurd (setClr_bit_unselected old hsel) h

/-- A pending bit that a write of one bit changes is that bit, with the value written (R135). -/
theorem writeBit_bit_changed {v : Word} {i : Fin 15} {x : Bool} {b : Nat}
    (h : (writeBit v i x).getLsbD b ≠ v.getLsbD b) : i.val = b ∧ x = (writeBit v i x).getLsbD b := by
  rw [writeBit_bit _ _ _ _ (by omega)] at h ⊢
  by_cases hb : b = i.val
  · exact ⟨hb.symm, (if_pos hb).symm⟩
  · exact absurd (if_neg hb) h

/-- A pending bit that the audio engine changes becomes set, and is a channel's (R203). -/
theorem AudioFrame.pending_changed {s t : State} (f : AudioFrame s t) {b : Nat}
    (h : t.ints.intreq.getLsbD b ≠ s.ints.intreq.getLsbD b) :
    t.ints.intreq.getLsbD b = true ∧ ∃ n : ChannelId, (s.cfg.intBit n).val = b := by
  have hs : ¬ s.ints.intreq.getLsbD b = true := fun hs => h ((f.pendingKept b hs).trans hs.symm)
  have ht : t.ints.intreq.getLsbD b = true := by
    rw [Bool.not_eq_true] at hs
    rw [hs] at h
    exact Bool.of_not_eq_false h
  exact ⟨ht, (f.pendingNew b ht).resolve_left hs⟩

/-- Who can change the pending bit `b`, and to what: `x` is its value after the command (R203, R254). -/
inductive ChangesPending (s : State) (b : Nat) (x : Bool) : Instr → Prop
  | reset (hx : x = false) : ChangesPending s b x .reset
  | wrIntreq {d : Word} (hflag : d.getLsbD 15 = x) (hd : d.getLsbD b = true) : ChangesPending s b x (.wrIntreq d)
  | aint {k : Fin 16} {a : Bool} (ha : a = x) (hk : k.val = b) : ChangesPending s b x (.aint k a)
  | gayle {l : Level} {k : Fin 15} (hx : x = true) (hl : l ≠ 0) (hbit : s.cfg.gayleBit = some k) (hk : k.val = b) :
      ChangesPending s b x (.gayle l)
  | audio {i : Instr} (hi : i = .audpoll ∨ ∃ d, i = .wrDmacon d) (hx : x = true)
      (hn : ∃ n : ChannelId, (s.cfg.intBit n).val = b) : ChangesPending s b x i

theorem exec_changesPending {i : Instr} {s t : State} {b : Nat} (h : exec i s = .next t)
    (hne : t.ints.intreq.getLsbD b ≠ s.ints.intreq.getLsbD b) : ChangesPending s b (t.ints.intreq.getLsbD b) i := by
  cases executes_of_exec h with
  | wrDmacon d =>
    obtain ⟨hx, hn⟩ := (armAll_frame _ _ (s.setDmacon (setClr s.dma.dmacon d s.cfg.dmaconWmask))).pending_changed hne
    exact .audio (.inr ⟨d, rfl⟩) hx hn
  | wrIntreq d =>
    obtain ⟨hd, hflag⟩ := setClr_bit_changed hne
    exact .wrIntreq hflag hd
  | aint k a hk =>
    rw [aint_eq] at hne ⊢
    obtain ⟨hb, ha⟩ := writeBit_bit_changed (i := ⟨k, hk⟩) hne
    exact .aint ha hb
  | gayle l =>
    rcases gayleState_cases l s with ⟨e, -⟩ | ⟨k, hl, hbit, e⟩ <;> rw [e] at hne ⊢
    · exact absurd rfl hne
    · obtain ⟨hk, hx⟩ := writeBit_bit_changed hne
      exact .gayle hx.symm hl hbit hk
  | audpoll =>
    obtain ⟨hx, hn⟩ := (pollAll_frame s).pending_changed hne
    exact .audio (.inl rfl) hx hn
  | latadv =>
    obtain ⟨-, hreq, -⟩ := latAdvance_rest s.cfg s.ints
    exact absurd (congrArg (·.getLsbD b) hreq) hne
  | commit =>
    rw [grant_eq] at hne
    exact absurd rfl hne
  | reset => exact .reset BitVec.getLsbD_zero
  | read | wrIntena | wrAdkcon | audio | req => exact absurd rfl hne

/-- Settles O13: a bit that is cleared or set has changed, and each way to change it is one the clauses name. -/
theorem pendingBitsChangeOnlyAsTheSpecSays : Obligations.PendingBitsChangeOnlyAsTheSpecSays := by
  intro i s t b h
  refine ⟨fun hs ht => ?cleared, fun hs ht => ?set⟩
  case cleared =>
    have hchange := exec_changesPending h (b := b) (by simp [hs, ht])
    rw [ht] at hchange
    cases hchange with
    | reset => exact .inl rfl
    | wrIntreq hflag hd => exact .inr (.inl ⟨_, rfl, hflag, hd⟩)
    | aint ha hk => exact .inr (.inr ⟨_, ha ▸ rfl, hk⟩)
    | gayle hx => cases hx
    | audio _ hx => cases hx
  case set =>
    have hchange := exec_changesPending h (b := b) (by simp [hs, ht])
    rw [ht] at hchange
    cases hchange with
    | reset hx => cases hx
    | wrIntreq hflag hd => exact .inl ⟨_, rfl, hflag, hd⟩
    | aint ha hk => exact .inr (.inl ⟨_, ha ▸ rfl, hk⟩)
    | gayle _ hl hbit hk => exact .inr (.inr (.inl ⟨_, _, rfl, hl, hbit, hk⟩))
    | audio hi _ hn => exact .inr (.inr (.inr ⟨hi, hn⟩))

/-! ### Assertions in the log (R45) -/

/-- From `s` to `t` the log only grew, and the interrupt `b` was asserted. -/
def Asserts (b : Fin 15) (s t : State) : Prop := ∃ l, t.log = s.log ++ l ∧ Event.intAssert b ∈ l

/-- From `s` to `t` the log only grew, and the interrupt `b` was not asserted. -/
def Silent (b : Fin 15) (s t : State) : Prop := ∃ l, t.log = s.log ++ l ∧ Event.intAssert b ∉ l

theorem Asserts.mem_drop {b : Fin 15} {s t : State} (h : Asserts b s t) :
    Event.intAssert b ∈ t.log.drop s.log.length := by
  obtain ⟨l, hl, hmem⟩ := h
  rwa [hl, List.drop_left]

theorem Silent.not_mem_drop {b : Fin 15} {s t : State} (h : Silent b s t) :
    Event.intAssert b ∉ t.log.drop s.log.length := by
  obtain ⟨l, hl, hmem⟩ := h
  rwa [hl, List.drop_left]

/-- An assertion stays in the log, whatever the audio engine does before and after it. -/
theorem Asserts.between {b : Fin 15} {r s t u : State} (f : AudioFrame r s) (h : Asserts b s t) (g : AudioFrame t u) :
    Asserts b r u := by
  obtain ⟨l, hl⟩ := f.log
  obtain ⟨l', hl', hmem⟩ := h
  obtain ⟨l'', hl''⟩ := g.log
  exact ⟨l ++ l' ++ l'', by rw [hl'', hl', hl, List.append_assoc, List.append_assoc, List.append_assoc],
    List.mem_append_left _ (List.mem_append_right _ hmem)⟩

theorem Silent.of_log_eq {b : Fin 15} {s t : State} (h : t.log = s.log) : Silent b s t :=
  ⟨[], by rw [h, List.append_nil], List.not_mem_nil⟩

theorem Silent.trans {b : Fin 15} {s t u : State} (h : Silent b s t) (g : Silent b t u) : Silent b s u := by
  obtain ⟨l, hl, hmem⟩ := h
  obtain ⟨l', hl', hmem'⟩ := g
  exact ⟨l ++ l', by rw [hl', hl, List.append_assoc], fun h => (List.mem_append.1 h).elim hmem hmem'⟩

theorem raiseAudioInt_silent {b : Fin 15} {n : ChannelId} {s : State} (h : s.cfg.intBit n ≠ b) :
    Silent b s (s.raiseAudioInt n) :=
  ⟨_, State.raiseAudioInt_log s n, by simp [Ne.symm h]⟩

theorem intPoll_silent {b : Fin 15} {n : ChannelId} {s : State} (h : s.cfg.intBit n ≠ b) :
    Silent b s (intPoll n s) := by
  unfold intPoll
  simp only
  split
  · split
    · exact .of_log_eq rfl
    · exact raiseAudioInt_silent h
  · exact .of_log_eq rfl

/-- A DMA poll logs its read and its own channel's assertions (R194, R195, R198). -/
theorem dmaPoll_silent {b : Fin 15} {n : ChannelId} {s : State} (h : s.cfg.intBit n ≠ b) :
    Silent b s (dmaPoll n s) := by
  refine ⟨_, by rw [dmaPoll_log, List.append_assoc, List.append_assoc], ?_⟩
  split <;> split <;> split <;> simp [Ne.symm h]

/-- A poll asserts no interrupt but its own channel's. -/
theorem channelPoll_silent {b : Fin 15} {n : ChannelId} {s : State} (h : s.cfg.intBit n ≠ b) :
    Silent b s (channelPoll n s) := by
  unfold channelPoll
  split
  · exact .of_log_eq rfl
  · exact dmaPoll_silent h
  · exact intPoll_silent h

/-- An AUDPOLL in which no poll asserts an interrupt does not assert it (R192). -/
theorem pollAll_silent {b : Fin 15} {s : State}
    (h : ∀ k, Silent b (s.beforePoll k) (channelPoll k (s.beforePoll k))) : Silent b s (pollAll s) :=
  (((h 0).trans (h 1)).trans (h 2)).trans (h 3)

/-! ### The transition table of the modes (R191) -/

/-- What an AUDPOLL does after channel `n`'s poll is in the frame. -/
theorem pollAll_frame_after (n : ChannelId) (s : State) : AudioFrame (channelPoll n (s.beforePoll n)) (pollAll s) :=
  match n with
  | 0 => ((channelPoll_frame 1 _).trans (channelPoll_frame 2 _)).trans (channelPoll_frame 3 _)
  | 1 => (channelPoll_frame 2 _).trans (channelPoll_frame 3 _)
  | 2 => channelPoll_frame 3 _
  | 3 => .refl _

/-- A DMA poll that changes the mode has found the channel disabled, goes Idle and raises its interrupt (R198). -/
theorem dmaPoll_mode_changed {n : ChannelId} {s : State} (h : ((dmaPoll n s).chan n).mode ≠ (s.chan n).mode) :
    ((dmaPoll n s).chan n).mode = .idle ∧ s.isEnabled (s.cfg.dmaBit n) = false ∧
      Asserts (s.cfg.intBit n) s (dmaPoll n s) := by
  rw [dmaPoll_chan_own] at h ⊢
  by_cases hen : s.isEnabled (s.cfg.dmaBit n) = true
  · exact absurd (if_pos hen) h
  · refine ⟨if_neg hen, Bool.eq_false_iff.2 hen, _, by rw [dmaPoll_log, List.append_assoc, List.append_assoc], ?_⟩
    simp [hen]

/-- An Interrupt-mode poll that changes the mode is a missed acknowledge: the channel goes Idle without a raise (R200). -/
theorem intPoll_mode_changed {n : ChannelId} {s : State} (h : ((intPoll n s).chan n).mode ≠ (s.chan n).mode) :
    ((intPoll n s).chan n).mode = .idle ∧ s.ints.intreq.getLsbD (s.cfg.intBit n) = true ∧
      (intPoll n s).log = s.log := by
  by_cases hrun : 0 < s.counted n
  · rw [intPoll_of_running hrun, State.chan_setChan_same] at h
    exact absurd rfl h
  · by_cases hreq : s.ints.intreq.getLsbD (s.cfg.intBit n) = true
    · rw [intPoll_of_pending (Int.not_lt.1 hrun) hreq, State.chan_setChan_same]
      exact ⟨rfl, hreq, rfl⟩
    · rw [intPoll_of_acknowledged (Int.not_lt.1 hrun) (Bool.eq_false_iff.2 hreq), State.chan_raiseAudioInt,
        State.chan_setChan_same] at h
      exact absurd rfl h

/-- WR DMACON raises the interrupt of every channel it arms (R101, R190). -/
theorem armAll_asserts {old new : Word} {n : ChannelId} {s : State} (h : rises s.cfg old new (s.cfg.dmaBit n) = true) :
    Asserts (s.cfg.intBit n) s (armAll old new s) := by
  have hall : ∀ k : ChannelId, k ∈ ([0, 1, 2, 3] : List ChannelId) := by decide
  refine ⟨_, by rw [armAll_log, List.append_assoc], ?_⟩
  exact List.mem_append_left _ (List.mem_map.2 ⟨n, List.mem_filter.2 ⟨hall n, h⟩, rfl⟩)

/-- An AUDPOLL that changes a channel's mode takes it to Idle: from DMA, disabled and with a raise, or from Interrupt, its
request pending and no raise by the channel itself (R191). -/
theorem pollAll_mode_changed {n : ChannelId} {s : State} (h : ((pollAll s).chan n).mode ≠ (s.chan n).mode) :
    ((pollAll s).chan n).mode = .idle ∧
    (((s.chan n).mode = .dma ∧ s.isEnabled (s.cfg.dmaBit n) = false ∧ Asserts (s.cfg.intBit n) s (pollAll s)) ∨
      ((s.chan n).mode = .interrupt ∧ (pollAll s).ints.intreq.getLsbD (s.cfg.intBit n) = true ∧
        ((∀ m : ChannelId, m ≠ n → s.cfg.intBit m ≠ s.cfg.intBit n) → Silent (s.cfg.intBit n) s (pollAll s)))) := by
  have before := beforePoll_frame n s
  have after := pollAll_frame_after n s
  rw [pollAll_chan, ← beforePoll_mode n s] at h
  rw [pollAll_chan, ← beforePoll_mode n s]
  cases hmode : ((s.beforePoll n).chan n).mode with
  | idle =>
    rw [channelPoll_of_idle hmode] at h
    exact absurd rfl h
  | dma =>
    rw [channelPoll_of_dma hmode] at h after ⊢
    obtain ⟨hidle, hoff, hraise⟩ := dmaPoll_mode_changed h
    rw [before.cfg] at hoff hraise
    exact ⟨hidle, .inl ⟨rfl, by rwa [← before.isEnabled], hraise.between before after⟩⟩
  | interrupt =>
    rw [channelPoll_of_interrupt hmode] at h after ⊢
    obtain ⟨hidle, hreq, hlog⟩ := intPoll_mode_changed h
    rw [before.cfg] at hreq
    refine ⟨hidle, .inr ⟨rfl, ?_, fun hown => pollAll_silent fun k => ?_⟩⟩
    · exact after.pendingKept _ ((intPoll_frame n _).pendingKept _ hreq)
    · rcases eq_or_ne k n with rfl | hk
      · rw [channelPoll_of_interrupt hmode]
        exact .of_log_eq hlog
      · exact channelPoll_silent (by rw [(beforePoll_frame k s).cfg]; exact hown k hk)

/-- Settles O41: each way a command can reach a channel is a row of the table or keeps the mode. -/
theorem modeChangesAreTheTransitionTable : Obligations.ModeChangesAreTheTransitionTable := by
  intro i s t n h hne
  rcases exec_chan_cases h n with e | rfl | ⟨d, rfl, hrise, e⟩ | ⟨d, rfl, e⟩ | ⟨r, d, rfl, e⟩ | ⟨rfl, -⟩
  · exact absurd (congrArg Channel.mode e) hne
  · obtain rfl := next_inj h
    exact .inr (.inr (.inr (.inr ⟨rfl, by rw [blockReset_chan]; rfl, rfl, rfl⟩)))
  · obtain rfl := next_inj h
    refine .inl ⟨d, rfl, hrise, by rw [e]; rfl, ?_⟩
    rw [armAll_setDmacon_dmacon, ← rises_eq_armRise] at hrise
    exact (armAll_asserts (s := s.setDmacon (setClr s.dma.dmacon d s.cfg.dmaconWmask)) hrise).mem_drop
  · exact absurd (congrArg Channel.mode e) hne
  · by_cases hr : r = .dat
    · subst hr
      rw [exec_audioWrite] at h
      obtain rfl := next_inj h
      exact .inr (.inl ⟨d, rfl, by rw [e]; rfl, rfl, rfl⟩)
    · obtain ⟨-, -, -, hkept⟩ := AudioReg.effect_keeps_working hr s.cfg.ptrMask d (s.chan n)
      exact absurd ((congrArg Channel.mode e).trans hkept) hne
  · obtain rfl := next_inj h
    obtain ⟨hidle, ⟨hmode, hoff, hraise⟩ | ⟨hmode, hreq, hsilent⟩⟩ := pollAll_mode_changed hne
    · exact .inr (.inr (.inl ⟨rfl, hmode, hidle, hoff, hraise.mem_drop⟩))
    · exact .inr (.inr (.inr (.inl ⟨rfl, hmode, hidle, hreq, fun hown => (hsilent hown).not_mem_drop⟩)))

end Sys2Proof.Machine
end

section
/-! PROOFS. The tick and host family (45_tick_and_host.md): what a step does with each input of the host (R230 to R238),
a tick in which the CPU owes a slot (R236, R237), and that allowed ticks run safely (R230, R260). -/

namespace Sys2Proof.Machine

/-! ### One step at each input that is no command -/

section Step

variable {s : State} {rest : List Input}

/-- Where nothing has been issued the state stays (log entry 2). -/
theorem step_of_no_inputs (hs : s.inputs = []) : step s = .next s := by
  unfold step stepInput
  rw [hs]

theorem step_of_chipWrite {a : Addr} {bytes : List Byte} (hs : s.inputs = .chipWrite a bytes :: rest) :
    step s = .next { s with inputs := rest, mem := s.mem.write a bytes } := by
  unfold step stepInput
  rw [hs]

theorem step_of_tick {t : Tick} (hs : s.inputs = .tick t :: rest) :
    step s = .next { s with inputs := tickInputs s.cfg.regAddr t ++ rest } := by
  unfold step stepInput
  rw [hs]

theorem step_of_cpuPhase {run : CpuRun} (hs : s.inputs = .cpuPhase run :: rest) :
    step s = .next { s with inputs := cpuPhaseInputs s.cfg.regAddr run s.host ++ rest } := by
  unfold step stepInput
  rw [hs]

theorem step_of_cpuReport {c1 c2 : Int} {slots : BusSlots} (hs : s.inputs = .cpuReport c1 c2 slots :: rest) :
    step s = takeReport c1 c2 slots { s with inputs := rest } := by
  unfold step stepInput
  rw [hs]

theorem step_of_payCycle (hs : s.inputs = .payCycle :: rest) :
    step s = .next (payCycle { s with inputs := rest }) := by
  unfold step stepInput
  rw [hs]

theorem step_of_bookkeep (hs : s.inputs = .bookkeep :: rest) :
    step s = .next (bookkeep { s with inputs := rest }) := by
  unfold step stepInput
  rw [hs]

/-- The one word of a command of the classes 3 to 9 runs that command under every map (R83 to R86). -/
theorem step_of_controlWord {c : Word} {i : Instr} (hs : s.inputs = .word c :: rest)
    (hw : encode s.cfg.regAddr i = [c])
    (hrow : (c.toNat / 4096 ≠ 1 ∧ c.toNat / 4096 ≠ 2) ∧
      (controlRows.find? fun r => r.matches c).map (fun r => r.build c 0) = some i) :
    step s = exec i { s with inputs := rest } := by
  have hfetch := fetch_encode (readsBack_of_controlRow _ hw hrow) rest
  rw [hw] at hfetch
  exact step_of_fetch hs (hs ▸ hfetch)

end Step

/-! ### The order of a tick -/

/-- The words of a tick's own commands stand in R230's order. -/
theorem tickInputs_eq (m : RegMap) (t : Tick) : tickInputs m t =
    (if t.eol = true then [.word 0x6000#16] else []) ++ t.devices.flatMap (masterInputs m) ++
      [.word 0x7000#16, .cpuPhase t.cpu, .word 0x8000#16, .bookkeep] := by
  simp only [tickInputs, commandInputs, encode, List.map_cons, List.map_nil, List.append_assoc, List.cons_append,
    List.nil_append]

/-- Settles O48: a step puts the inputs of the tick in its place, in that order. -/
theorem tickIssuesItsCommandsInOrder : Obligations.TickIssuesItsCommandsInOrder := by
  intro s t rest hs
  refine ⟨t.devices.flatMap (masterInputs s.cfg.regAddr), ?_, rfl⟩
  rw [step_of_tick hs, tickInputs_eq]

/-! ### The CPU phase -/

section CpuPhase

variable (m : RegMap) (run : CpuRun) {h : HostCounters}

/-- With both budgets 0 the CPU runs its two steps and reports (R235). -/
theorem cpuPhaseInputs_of_free (hcycles : h.cpuCycles = 0) (hwaits : h.totalWaits = 0) : cpuPhaseInputs m run h =
    run.ops.flatMap (masterInputs m) ++ [.cpuReport run.c1 run.c2 run.slots, .payCycle] := by
  rw [cpuPhaseInputs, if_pos ⟨hcycles, hwaits⟩, List.append_assoc]
  rfl

/-- A CPU that owes a slot requests one (R236 B2). -/
theorem cpuPhaseInputs_of_owed (hwaits : 0 < h.totalWaits) : cpuPhaseInputs m run h = [.word 0x3003#16, .payCycle] := by
  rw [cpuPhaseInputs, if_neg fun hfree => hwaits.ne' hfree.2, if_pos hwaits]
  rfl

/-- A CPU that owes cycles alone only pays one (R236 B3). -/
theorem cpuPhaseInputs_of_busy (hcycles : 0 < h.cpuCycles) (hwaits : h.totalWaits = 0) :
    cpuPhaseInputs m run h = [.payCycle] := by
  rw [cpuPhaseInputs, if_neg fun hfree => hcycles.ne' hfree.1, if_neg hwaits.not_gt]
  rfl

end CpuPhase

/-- Settles O49: the three cases of the phase are those of its inputs. -/
theorem cpuRunsOnlyWhenBothBudgetsAreZero : Obligations.CpuRunsOnlyWhenBothBudgetsAreZero := by
  intro s run rest hs
  rw [step_of_cpuPhase hs]
  refine ⟨fun hcycles hwaits => ?_, fun hwaits => ?_, fun hcycles hwaits => ?_⟩
  · rw [cpuPhaseInputs_of_free _ _ hcycles hwaits]
  · rw [cpuPhaseInputs_of_owed _ _ hwaits]
  · rw [cpuPhaseInputs_of_busy _ _ hcycles hwaits]

/-! ### The CPU's report -/

section Report

variable {c1 c2 : Int} (slots : BusSlots) (s : State)

theorem takeReport_of_nonneg (h1 : 0 ≤ c1) (h2 : 0 ≤ c2) :
    takeReport c1 c2 slots s = .next { s with host := ⟨((c1 + c2) / 2).toNat, slots.total⟩ } := by
  rw [takeReport, if_neg h1.not_gt, if_neg h2.not_gt]

theorem takeReport_of_first_neg (h1 : c1 < 0) : takeReport c1 c2 slots s = .fault (.hostInvariant c1) := by
  rw [takeReport, if_pos h1]

theorem takeReport_of_second_neg (h1 : 0 ≤ c1) (h2 : c2 < 0) :
    takeReport c1 c2 slots s = .fault (.hostInvariant c2) := by
  rw [takeReport, if_neg h1.not_gt, if_pos h2]

end Report

/-- Settles O50: half a sum of natural numbers is the same among the integers. -/
theorem cpuReportSetsTheBudgets : Obligations.CpuReportSetsTheBudgets := by
  intro s c1 c2 slots rest hs
  rw [step_of_cpuReport hs]
  refine ⟨?_, takeReport_of_first_neg slots _, takeReport_of_second_neg slots _⟩
  rintro a b rfl rfl
  have hhalf : (((a : Int) + b) / 2).toNat = (a + b) / 2 := by omega
  rw [takeReport_of_nonneg slots _ (Int.natCast_nonneg a) (Int.natCast_nonneg b), hhalf]
  rfl

/-! ### The payments -/

/-- The bookkeeping pays a slot where the CPU is not left waiting (R236 D); with none owed, paying changes nothing. -/
theorem bookkeep_eq (s : State) : bookkeep s = { s with host := ⟨s.host.cpuCycles,
    if s.cpuWait = true then s.host.totalWaits else s.host.totalWaits - 1⟩ } := by
  unfold bookkeep
  cases s.cpuWait with
  | true => rw [if_neg fun h => Bool.false_ne_true h.2.symm, if_pos rfl]
  | false =>
    rw [if_neg Bool.false_ne_true]
    split
    · rfl
    next hnone =>
      have hzero : s.host.totalWaits = 0 := Nat.eq_zero_of_not_pos fun h => hnone ⟨h, rfl⟩
      rw [hzero, Nat.zero_sub, ← hzero]

/-- Settles O51: each payment is one step, and changes the counters alone. -/
theorem budgetsArePaidAsTheSpecSays : Obligations.BudgetsArePaidAsTheSpecSays := by
  intro s rest
  refine ⟨step_of_payCycle, fun hs => ?_⟩
  rw [step_of_bookkeep hs, bookkeep_eq]
  rfl

/-! ### A quiet tick in which the CPU owes a slot -/

/-- A step that answers a next state is the first of a longer run. -/
theorem core_run_succ {s t : State} (h : step s = .next t) (k : Nat) :
    Sys2Proof.core.run (k + 1) s = Sys2Proof.core.run k t := by
  have hstep : Sys2Proof.core.step s = .next t := h
  simp only [Host.Core.run, hstep]

/-- The state on which a quiet tick's COMMIT runs, where the CPU owed a slot: the latency queue has advanced, the CPU
has requested its slot, the cycle is paid, and the bookkeeping is left (R230, R236). -/
def State.atQuietCommit (s : State) : State :=
  payCycle ({ s with ints := latAdvance s.cfg s.ints, inputs := [.bookkeep] }.setWaiting .cpu true)

/-- LATADV advances the latency queue (R138). -/
theorem step_latadv (s : State) (rest : List Input) : step { s with inputs := .word 0x7000#16 :: rest } =
    .next { s with ints := latAdvance s.cfg s.ints, inputs := rest } :=
  step_of_controlWord (rest := rest) (i := .latadv) rfl rfl (by decide)

/-- REQ CPU declares the CPU waiting (R106). -/
theorem step_reqCpu (s : State) (rest : List Input) : step { s with inputs := .word 0x3003#16 :: rest } =
    .next ({ s with inputs := rest }.setWaiting .cpu true) :=
  step_of_controlWord (rest := rest) (i := .req 3) rfl rfl (by decide)

/-- COMMIT grants the slot to the winner (R107). -/
theorem step_commit (s : State) (rest : List Input) : step { s with inputs := .word 0x8000#16 :: rest } =
    .next (grant s.winner { s with inputs := rest }) :=
  step_of_controlWord (rest := rest) (i := .commit) rfl rfl (by decide)

/-- The seven steps: the tick, LATADV, the CPU phase, REQ CPU, the payment, COMMIT and the bookkeeping. -/
theorem run_quietTick {s : State} {run : CpuRun} (howed : 0 < s.host.totalWaits)
    (hs : s.inputs = [.tick ⟨false, [], run⟩]) : Sys2Proof.core.run 7 s =
      .next (bookkeep { grant s.atQuietCommit.winner s.atQuietCommit with inputs := [] }) := by
  let a : State := { s with ints := latAdvance s.cfg s.ints }
  have hrequest : step { a with inputs := [.cpuPhase run, .word 0x8000#16, .bookkeep] } =
      .next { a with inputs := [.word 0x3003#16, .payCycle, .word 0x8000#16, .bookkeep] } :=
    (step_of_cpuPhase (rest := [.word 0x8000#16, .bookkeep]) rfl).trans (by rw [cpuPhaseInputs_of_owed _ _ howed]; rfl)
  have hpay : step ({ a with inputs := [.payCycle, .word 0x8000#16, .bookkeep] }.setWaiting .cpu true) =
      .next { s.atQuietCommit with inputs := [.word 0x8000#16, .bookkeep] } :=
    step_of_payCycle (rest := [.word 0x8000#16, .bookkeep]) rfl
  have hbookkeep : step (grant s.atQuietCommit.winner s.atQuietCommit) =
      .next (bookkeep { grant s.atQuietCommit.winner s.atQuietCommit with inputs := [] }) :=
    step_of_bookkeep (by rw [grant_eq]; rfl)
  calc Sys2Proof.core.run 7 s
      = Sys2Proof.core.run 6 { s with inputs := [.word 0x7000#16, .cpuPhase run, .word 0x8000#16, .bookkeep] } :=
        core_run_succ (step_of_tick hs) 6
    _ = Sys2Proof.core.run 5 { a with inputs := [.cpuPhase run, .word 0x8000#16, .bookkeep] } :=
        core_run_succ (step_latadv s _) 5
    _ = Sys2Proof.core.run 4 { a with inputs := [.word 0x3003#16, .payCycle, .word 0x8000#16, .bookkeep] } :=
        core_run_succ hrequest 4
    _ = Sys2Proof.core.run 3 ({ a with inputs := [.payCycle, .word 0x8000#16, .bookkeep] }.setWaiting .cpu true) :=
        core_run_succ (step_reqCpu a _) 3
    _ = Sys2Proof.core.run 2 { s.atQuietCommit with inputs := [.word 0x8000#16, .bookkeep] } := core_run_succ hpay 2
    _ = Sys2Proof.core.run 1 (grant s.atQuietCommit.winner s.atQuietCommit) :=
        core_run_succ (step_commit s.atQuietCommit _) 1
    _ = .next (bookkeep { grant s.atQuietCommit.winner s.atQuietCommit with inputs := [] }) :=
        core_run_succ hbookkeep 0

theorem atQuietCommit_ready_cpu (s : State) : s.atQuietCommit.ready .cpu :=
  ⟨Waiting.get_set_same s.dma.waiting .cpu true, .inl rfl⟩

/-- The CPU's request leaves every other source as ready as it was (R106). -/
theorem atQuietCommit_ready_iff (s : State) {o : Source} (ho : o ≠ .cpu) : s.atQuietCommit.ready o ↔ s.ready o := by
  have hwaiting : s.atQuietCommit.dma.waiting.get o = s.dma.waiting.get o := Waiting.get_set_ne s.dma.waiting true ho
  unfold State.ready
  rw [hwaiting]
  rfl

/-- The CPU is last in the order: if it is ready, it wins exactly where no other source is (R105, R107). -/
theorem winner_eq_cpu_iff {s : State} (hcpu : s.ready .cpu) :
    s.winner = some .cpu ↔ ∀ o, o ≠ .cpu → ¬ s.ready o := by
  have hlast : ∀ o : Source, o ≠ .cpu → o.rank < Source.cpu.rank := by
    intro o ho
    cases o with
    | cpu => exact absurd rfl ho
    | agnus | copper | blitter => decide
  rw [winner_eq_some_iff]
  constructor
  · rintro ⟨-, hleast⟩ o ho hready
    exact (hlast o ho).not_ge (hleast o hready)
  · intro hnone
    refine ⟨hcpu, fun o hready => ?_⟩
    by_cases ho : o = .cpu
    · rw [ho]
    · exact absurd hready (hnone o ho)

/-- The CPU is left waiting after the quiet tick's grant where it did not win (R107, R108). -/
theorem atQuietCommit_cpuWait (s : State) : (grant s.atQuietCommit.winner s.atQuietCommit).cpuWait =
    decide (s.atQuietCommit.winner ≠ some .cpu) := by
  obtain ⟨hwaiting, -⟩ := atQuietCommit_ready_cpu s
  rw [State.cpuWait, grant_waiting, hwaiting, Bool.true_and]

/-- The quiet tick's grant leaves the budgets as the payment left them, and is recorded (R107). -/
theorem atQuietCommit_grant (s : State) :
    (grant s.atQuietCommit.winner s.atQuietCommit).host = ⟨s.host.cpuCycles - 1, s.host.totalWaits⟩ ∧
    (grant s.atQuietCommit.winner s.atQuietCommit).dma.lastGrant = s.atQuietCommit.winner := by
  rw [grant_eq]
  exact ⟨rfl, rfl⟩

/-- Settles O52: the CPU waits at COMMIT, and is left waiting exactly where the grant is another's. -/
theorem quietTickPaysTheSlotTheCpuWins : Obligations.QuietTickPaysTheSlotTheCpuWins := by
  intro s run howed hs
  have hwin : s.atQuietCommit.winner = some .cpu ↔ ∀ o, o ≠ .cpu → ¬ s.ready o :=
    (winner_eq_cpu_iff (atQuietCommit_ready_cpu s)).trans
      (forall₂_congr fun o ho => not_congr (atQuietCommit_ready_iff s ho))
  have hwait := atQuietCommit_cpuWait s
  obtain ⟨hhost, hlast⟩ := atQuietCommit_grant s
  refine ⟨_, run_quietTick howed hs, ?_⟩
  generalize grant s.atQuietCommit.winner s.atQuietCommit = g at hwait hhost hlast
  rw [bookkeep_eq]
  simp only [hhost]
  refine ⟨trivial, trivial, fun hnone => ?paid, fun ⟨o, ho, hready⟩ => ?left⟩
  case paid =>
    rw [hwin.2 hnone] at hwait hlast
    have hfree : g.cpuWait = false := hwait
    exact ⟨if_neg (ne_true_of_eq_false hfree), hlast, hfree⟩
  case left =>
    have hother : s.atQuietCommit.winner ≠ some .cpu := fun h => hwin.1 h o ho hready
    rw [decide_eq_true hother] at hwait
    exact ⟨if_pos hwait, hwait⟩

end Sys2Proof.Machine

/-! ### Allowed ticks -/

namespace Sys2Proof

/-- What a bus master may do without a fault or a refusal: a command the encoding can name, but for AINT of bit 15
(R135, R250), or a write of chip memory. -/
def MasterOp.Safe : MasterOp → Prop
  | .command i => i.wf = true ∧ ∀ a, i ≠ .aint 15 a
  | .chipWrite _ _ => True

/-- Two CPU steps that issue safe operations and report costs that are not negative (R235, R238). -/
def CpuRun.Safe (run : CpuRun) : Prop := (∀ op ∈ run.ops, op.Safe) ∧ 0 ≤ run.c1 ∧ 0 ≤ run.c2

/-- A tick whose devices and CPU are safe. -/
def Tick.Safe (t : Tick) : Prop := (∀ op ∈ t.devices, op.Safe) ∧ t.cpu.Safe

/-- What a device may issue is safe, but for AINT of bit 15 (R230 A2). -/
theorem MasterOp.safe_of_deviceOk {op : MasterOp} (h : op.deviceOk = true) (h15 : ∀ a, op ≠ .command (.aint 15 a)) :
    op.Safe := by
  cases op with
  | chipWrite => trivial
  | command i =>
    obtain ⟨hwf, -⟩ := Bool.and_eq_true_iff.1 h
    exact ⟨hwf, fun a hi => h15 a (congrArg _ hi)⟩

/-- What the CPU may issue is safe: AINT is a device's (R230 B, R260). -/
theorem MasterOp.safe_of_cpuOk {op : MasterOp} (h : op.cpuOk = true) : op.Safe := by
  cases op with
  | chipWrite => trivial
  | command i =>
    obtain ⟨hwf, hissuer⟩ := Bool.and_eq_true_iff.1 h
    refine ⟨hwf, fun a hi => ?_⟩
    rw [hi] at hissuer
    exact absurd hissuer Bool.false_ne_true

/-- A tick the host protocol allows is safe, if no device issues AINT of bit 15 (R230, R235, R238). -/
theorem Tick.safe_of_wf {t : Tick} (h : t.wf = true) (h15 : ∀ a, MasterOp.command (.aint 15 a) ∉ t.devices) :
    t.Safe := by
  simp only [Tick.wf, Bool.and_eq_true, List.all_eq_true, decide_eq_true_eq] at h
  obtain ⟨⟨⟨hdevices, hops⟩, hc1⟩, hc2⟩ := h
  exact ⟨fun op hop => MasterOp.safe_of_deviceOk (hdevices op hop) fun a ha => h15 a (ha ▸ hop),
    fun op hop => MasterOp.safe_of_cpuOk (hops op hop), hc1, hc2⟩

end Sys2Proof

namespace Sys2Proof.Machine

/-- What one step of a safe run takes: the words of one command, or one other input. -/
inductive SafeBlock (m : RegMap) : List Input → Prop
  | command {i : Instr} (hwf : i.wf = true) (h15 : ∀ a, i ≠ .aint 15 a) : SafeBlock m (commandInputs m i)
  | chipWrite (a : Addr) (bytes : List Byte) : SafeBlock m [.chipWrite a bytes]
  | tick {t : Tick} (ht : t.Safe) : SafeBlock m [.tick t]
  | cpuPhase {run : CpuRun} (hrun : run.Safe) : SafeBlock m [.cpuPhase run]
  | cpuReport {c1 c2 : Int} (h1 : 0 ≤ c1) (h2 : 0 ≤ c2) (slots : BusSlots) : SafeBlock m [.cpuReport c1 c2 slots]
  | payCycle : SafeBlock m [.payCycle]
  | bookkeep : SafeBlock m [.bookkeep]

/-- Inputs made of safe blocks: what keeps a run safe. -/
inductive SafeInputs (m : RegMap) : List Input → Prop
  | nil : SafeInputs m []
  | cons {block rest : List Input} (hblock : SafeBlock m block) (hrest : SafeInputs m rest) :
    SafeInputs m (block ++ rest)

section Inputs

variable {m : RegMap}

theorem SafeBlock.inputs {block : List Input} (h : SafeBlock m block) : SafeInputs m block :=
  List.append_nil block ▸ .cons h .nil

theorem SafeInputs.append {l l' : List Input} (h : SafeInputs m l) (h' : SafeInputs m l') : SafeInputs m (l ++ l') := by
  induction h with
  | nil => exact h'
  | cons hblock _ ih => rw [List.append_assoc]; exact .cons hblock ih

/-- A list of items is safe if each one's inputs are. -/
theorem SafeInputs.flatMap {α : Type} {f : α → List Input} {xs : List α} (h : ∀ x ∈ xs, SafeInputs m (f x)) :
    SafeInputs m (xs.flatMap f) := by
  induction xs with
  | nil => exact .nil
  | cons x xs ih =>
    obtain ⟨hx, hxs⟩ := List.forall_mem_cons.1 h
    exact hx.append (ih hxs)

theorem masterInputs_safe {op : MasterOp} (h : op.Safe) : SafeInputs m (masterInputs m op) := by
  cases op with
  | command i =>
    obtain ⟨hwf, h15⟩ := h
    exact (SafeBlock.command hwf h15).inputs
  | chipWrite a bytes => exact (SafeBlock.chipWrite a bytes).inputs

/-- What the host itself issues is safe: AINT is a device's (R260). -/
theorem hostInputs_safe {i : Instr} (hwf : i.wf = true) (hissuer : i.issuer = .host) :
    SafeInputs m (commandInputs m i) := by
  refine (SafeBlock.command hwf fun a hi => ?_).inputs
  rw [hi] at hissuer
  cases hissuer

/-- A safe tick becomes safe inputs (R230). -/
theorem tickInputs_safe {t : Tick} (h : t.Safe) : SafeInputs m (tickInputs m t) := by
  obtain ⟨hdevices, hcpu⟩ := h
  have hpoll : SafeInputs m (if t.eol then commandInputs m .audpoll else []) := by
    split
    · exact hostInputs_safe rfl rfl
    · exact .nil
  have hops : SafeInputs m (t.devices.flatMap (masterInputs m)) :=
    .flatMap fun op hop => masterInputs_safe (hdevices op hop)
  have hlatadv : SafeInputs m (commandInputs m .latadv) := hostInputs_safe rfl rfl
  have hcommit : SafeInputs m (commandInputs m .commit) := hostInputs_safe rfl rfl
  exact ((((hpoll.append hops).append hlatadv).append (SafeBlock.cpuPhase hcpu).inputs).append hcommit).append
    SafeBlock.bookkeep.inputs

/-- A safe CPU's phase becomes safe inputs, whatever the budgets (R236). -/
theorem cpuPhaseInputs_safe {run : CpuRun} (h : run.Safe) (c : HostCounters) :
    SafeInputs m (cpuPhaseInputs m run c) := by
  obtain ⟨hops, h1, h2⟩ := h
  refine SafeInputs.append ?_ SafeBlock.payCycle.inputs
  split
  · exact (SafeInputs.flatMap fun op hop => masterInputs_safe (hops op hop)).append
      (SafeBlock.cpuReport h1 h2 run.slots).inputs
  · split
    · exact (SafeBlock.command rfl fun _ => Instr.noConfusion).inputs
    · exact .nil

end Inputs

/-- A step at a safe block runs, and puts safe inputs in the block's place. -/
theorem step_of_safeBlock {s : State} {block rest : List Input} (hm : s.cfg.regAddr.wf = true)
    (h : SafeBlock s.cfg.regAddr block) (hs : s.inputs = block ++ rest) :
    ∃ t new, step s = .next t ∧ t.inputs = new ++ rest ∧ SafeInputs s.cfg.regAddr new := by
  cases h with
  | command hwf h15 =>
    obtain ⟨t, ht⟩ := exec_completes hwf h15 { s with inputs := rest }
    obtain ⟨-, -, -, hinputs⟩ := noCommandWritesChipMemory _ _ _ ht
    exact ⟨t, [], (stepRunsTheDecodedCommand s _ rest hm hwf hs).trans ht, hinputs, .nil⟩
  | chipWrite => exact ⟨_, [], step_of_chipWrite hs, rfl, .nil⟩
  | tick ht => exact ⟨_, _, step_of_tick hs, rfl, tickInputs_safe ht⟩
  | cpuPhase hrun => exact ⟨_, _, step_of_cpuPhase hs, rfl, cpuPhaseInputs_safe hrun s.host⟩
  | cpuReport h1 h2 slots =>
    exact ⟨_, [], (step_of_cpuReport hs).trans (takeReport_of_nonneg slots _ h1 h2), rfl, .nil⟩
  | payCycle => exact ⟨_, [], step_of_payCycle hs, rfl, .nil⟩
  | bookkeep => exact ⟨_, [], step_of_bookkeep hs, by rw [bookkeep_eq]; rfl, .nil⟩

/-- A step at safe inputs runs, and what is left to take is safe. -/
theorem step_of_safeInputs {s : State} (hm : s.cfg.regAddr.wf = true) (h : SafeInputs s.cfg.regAddr s.inputs) :
    ∃ t, step s = .next t ∧ SafeInputs s.cfg.regAddr t.inputs := by
  generalize hs : s.inputs = inputs at h
  cases h with
  | nil => exact ⟨s, step_of_no_inputs hs, hs ▸ .nil⟩
  | cons hblock hrest =>
    obtain ⟨t, new, ht, hinputs, hnew⟩ := step_of_safeBlock hm hblock hs
    exact ⟨t, ht, hinputs ▸ hnew.append hrest⟩

/-- Safe inputs run for any number of steps. -/
theorem safeRun_of_safeInputs (k : Nat) {s : State} (hm : s.cfg.regAddr.wf = true)
    (h : SafeInputs s.cfg.regAddr s.inputs) : SafeRun k s := by
  induction k generalizing s with
  | zero => exact ⟨s, rfl⟩
  | succ k ih =>
    obtain ⟨t, ht, hsafe⟩ := step_of_safeInputs hm h
    have hcfg : t.cfg = s.cfg := noStepChangesAParameter s t ht
    obtain ⟨u, hu⟩ := ih (s := t) (hcfg ▸ hm) (hcfg ▸ hsafe)
    exact ⟨u, (core_run_succ ht k).trans hu⟩

/-- Settles O53: the ticks are safe inputs, and every step leaves safe inputs. -/
theorem allowedTicksRunSafely : Obligations.AllowedTicksRunSafely := by
  intro ticks s hm hticks hs k
  refine safeRun_of_safeInputs k hm ?_
  rw [hs, List.map_eq_flatMap]
  refine .flatMap fun t ht => ?_
  obtain ⟨hwf, h15⟩ := hticks t ht
  exact (SafeBlock.tick (Tick.safe_of_wf hwf h15)).inputs

end Sys2Proof.Machine
end

section
/-! PROOFS. The exception family (60_exceptions.md): the marks a fault and a refusal leave on a run (R250, R251), and what a
refused step takes (R90, R112). -/

namespace Sys2Proof.Machine

/-! ### One step of a run -/

section Advance

variable {r : Run}

/-- A faulted run does not move (R250). -/
theorem Run.advance_of_faulted {f : Fault} (hf : r.fault = some f) : r.advance = r := by
  rw [Run.advance, hf]

variable (hr : r.fault = none)
include hr

theorem Run.advance_of_next {t : State} (h : step r.state = .next t) : r.advance = { r with state := t } := by
  simp only [Run.advance, hr, h]

theorem Run.advance_of_fault {f : Fault} (h : step r.state = .fault f) : r.advance = { r with fault := some f } := by
  simp only [Run.advance, hr, h]

theorem Run.advance_of_refused {q : Refusal} (h : step r.state = .refused q) : r.advance =
    { r with
      state := { r.state with inputs := dropInput r.state.cfg.regAddr r.state.inputs }
      refusal := some (r.refusal.getD q) } := by
  simp only [Run.advance, hr, h, Option.or_some]

end Advance

/-! ### Faults -/

theorem Run.iterate_of_faulted {r : Run} {f : Fault} (hf : r.fault = some f) (k : Nat) : Run.iterate k r = r := by
  induction k with
  | zero => rfl
  | succ k ih => rw [Run.iterate, Run.advance_of_faulted hf, ih]

theorem Run.isFinal_of_faulted {r : Run} {f : Fault} (hf : r.fault = some f) : r.isFinal = false := by
  rw [Run.isFinal, hf]
  rfl

/-- Settles O54: a step of a faulted run is none, so by induction no number of steps moves it. -/
theorem faultedRunsStayFaulted : Obligations.FaultedRunsStayFaulted :=
  ⟨fun _ _ hf k => ⟨Run.iterate_of_faulted hf k, Run.isFinal_of_faulted hf⟩,
    fun _ _ hr h => Run.advance_of_fault hr h, fun _ _ _ => ⟨rfl, rfl, rfl⟩⟩

/-! ### Which step is refused -/

theorem execReq_ne_refused (v : Nat) (s : State) (q : Refusal) : execReq v s ≠ .refused q := by
  unfold execReq
  split <;> exact nofun

theorem execAint_ne_refused (b : Fin 16) (a : Bool) (s : State) (q : Refusal) : execAint b a s ≠ .refused q := by
  unfold execAint
  split <;> exact nofun

/-- Every command has a meaning: it completes or faults. -/
theorem exec_ne_refused (i : Instr) (s : State) (q : Refusal) : exec i s ≠ .refused q := by
  cases i with
  | req v => exact execReq_ne_refused v s q
  | aint b a => exact execAint_ne_refused b a s q
  | _ => exact nofun

theorem takeReport_ne_refused (c1 c2 : Int) (slots : BusSlots) (s : State) (q : Refusal) :
    takeReport c1 c2 slots s ≠ .refused q := by
  unfold takeReport
  split
  · exact nofun
  · split <;> exact nofun

/-- The debug DMA operations are refused (R112). -/
theorem step_of_debugDma {s : State} {src : Option Source} {rest : List Input} (hs : s.inputs = .debugDma src :: rest) :
    step s = .refused .debugOperation := by
  unfold step stepInput
  rw [hs]

/-- Where a word stands first, a refused step has fetched no command. -/
theorem fetch_of_step_refused {s : State} {c : Word} {l : List Input} {q : Refusal} (hs : s.inputs = .word c :: l)
    (h : step s = .refused q) :
    ∃ e rest, fetch s.cfg.regAddr s.inputs = some (.error e, rest) ∧ q = .rejected e := by
  unfold step stepInput at h
  rw [hs] at h ⊢
  dsimp only at h
  split at h
  · cases h
  · exact absurd h (exec_ne_refused _ _ q)
  next e rest hfetch => exact ⟨e, rest, hfetch, (Host.Outcome.refused.inj h).symm⟩

/-- A refused step stands at a word that is no command or at a debug operation (R251). -/
theorem step_refused_cases {s : State} {q : Refusal} (h : step s = .refused q) :
    (∃ c l e rest, s.inputs = .word c :: l ∧ fetch s.cfg.regAddr s.inputs = some (.error e, rest) ∧ q = .rejected e) ∨
    ∃ src rest, s.inputs = .debugDma src :: rest ∧ q = .debugOperation := by
  cases hs : s.inputs with
  | nil => cases (step_of_no_inputs hs).symm.trans h
  | cons x l =>
    cases x with
    | word c =>
      obtain ⟨e, rest, hfetch, hq⟩ := fetch_of_step_refused hs h
      exact .inl ⟨c, l, e, rest, rfl, hs ▸ hfetch, hq⟩
    | debugDma src => exact .inr ⟨src, l, rfl, (Host.Outcome.refused.inj ((step_of_debugDma hs).symm.trans h)).symm⟩
    | requestSlot v a => exact absurd ((step_requestSlot hs).symm.trans h) (execReq_ne_refused v _ q)
    | cpuReport c1 c2 slots =>
      exact absurd ((step_of_cpuReport hs).symm.trans h) (takeReport_ne_refused c1 c2 slots _ q)
    | chipWrite a bytes => cases (step_of_chipWrite hs).symm.trans h
    | tick t => cases (step_of_tick hs).symm.trans h
    | cpuPhase run => cases (step_of_cpuPhase hs).symm.trans h
    | payCycle => cases (step_of_payCycle hs).symm.trans h
    | bookkeep => cases (step_of_bookkeep hs).symm.trans h

/-! ### What a refused step takes -/

/-- A fetch takes the word and the one after it where the class is 1 and a word follows, and else the word alone
(R90). -/
theorem fetch_taken {m : RegMap} {c : Word} {l rest : List Input} {x : Except Reject Instr}
    (h : fetch m (.word c :: l) = some (x, rest)) :
    (∃ d, l = .word d :: rest ∧ c.toNat / 4096 = 1) ∨
    (l = rest ∧ (c.toNat / 4096 = 1 → ∀ d rest', rest ≠ .word d :: rest')) := by
  rw [fetch_cons] at h
  split at h
  next d rest' =>
    split at h
    next hc =>
      cases h
      exact .inl ⟨d, rfl, (carriesOperand_iff c).1 hc⟩
    next hc =>
      cases h
      exact .inr ⟨rfl, fun h1 => absurd ((carriesOperand_iff c).2 h1) hc⟩
  next hno =>
    cases h
    exact .inr ⟨rfl, fun _ => hno⟩

/-- What stands at the front of a refused step's inputs is what the run drops (R90, R251). -/
theorem dropInput_of_step_refused {s : State} {q : Refusal} (h : step s = .refused q) :
    ∃ taken, s.inputs = taken ++ dropInput s.cfg.regAddr s.inputs ∧
      ((∃ c d, taken = [.word c, .word d] ∧ c.toNat / 4096 = 1) ∨
       (∃ c, taken = [.word c] ∧
         (c.toNat / 4096 = 1 → ∀ d rest', dropInput s.cfg.regAddr s.inputs ≠ .word d :: rest')) ∨
       ∃ src, taken = [.debugDma src]) := by
  rcases step_refused_cases h with ⟨c, l, e, rest, hs, hfetch, -⟩ | ⟨src, rest, hs, -⟩
  · rw [hs] at hfetch
    have hdrop : dropInput s.cfg.regAddr s.inputs = rest := by simp only [hs, dropInput, hfetch]
    rw [hdrop, hs]
    rcases fetch_taken hfetch with ⟨d, rfl, hc⟩ | ⟨rfl, hno⟩
    · exact ⟨[.word c, .word d], rfl, .inl ⟨c, d, rfl, hc⟩⟩
    · exact ⟨[.word c], rfl, .inr (.inl ⟨c, rfl, hno⟩)⟩
  · rw [hs]
    exact ⟨[.debugDma src], rfl, .inr (.inr ⟨src, rfl⟩)⟩

/-! ### The refusal mark -/

/-- The mark is the run's first refusal: no step replaces it (R251). -/
theorem Run.advance_keeps_refusal {r : Run} {q : Refusal} (hq : r.refusal = some q) : r.advance.refusal = some q := by
  cases hf : r.fault with
  | some f => rw [Run.advance_of_faulted hf, hq]
  | none =>
    cases h : step r.state with
    | next t => rw [Run.advance_of_next hf h, hq]
    | fault f => rw [Run.advance_of_fault hf h, hq]
    | refused q' => rw [Run.advance_of_refused hf h, hq]; rfl

theorem Run.iterate_keeps_refusal {r : Run} {q : Refusal} (hq : r.refusal = some q) (k : Nat) :
    (Run.iterate k r).refusal = some q := by
  induction k generalizing r with
  | zero => exact hq
  | succ k ih => exact ih (Run.advance_keeps_refusal hq)

/-- Settles O55: the run drops what the refused step's fetch took, and its mark is the first one. -/
theorem refusalsLeaveTheStateAndAMark : Obligations.RefusalsLeaveTheStateAndAMark := by
  refine ⟨fun r q hr h => ?_, fun _ _ => Run.iterate_keeps_refusal, fun _ _ _ => step_of_debugDma,
    rfl, rfl, rfl, rfl, rfl⟩
  obtain ⟨taken, hinputs, hkind⟩ := dropInput_of_step_refused h
  exact ⟨taken, _, hinputs, Run.advance_of_refused hr h, hkind⟩

end Sys2Proof.Machine
end

section
/-! PROOFS. The reset family (70_reset_and_hazards.md): what RESET leaves (R280), and the machine right after reset
(R281, R234). -/

namespace Sys2Proof.Machine

theorem exec_reset (s : State) : exec .reset s = .next (blockReset s) := rfl

/-! ### The levels after RESET -/

/-- After RESET no bit is pending, so there is none to find a level for (R133). -/
theorem blockReset_paula (s : State) : (blockReset s).paula = 0 := paulaLevel_of_none_pending BitVec.and_self s.cfg

/-- Immediate or lagged, the level is 0 after RESET (R140). -/
theorem blockReset_visiblePaula (s : State) : (blockReset s).visiblePaula = 0 := by
  rcases Nat.eq_zero_or_pos (blockReset s).cfg.depth with h | h
  · rw [visiblePaula_of_depth_zero h, blockReset_paula]
  · exact visiblePaula_of_depth_pos h

theorem blockReset_ipl (s : State) : (blockReset s).ipl = 0 := by
  have hgayle : (blockReset s).ints.gayleLevel = 0 := rfl
  rw [State.ipl, blockReset_visiblePaula, hgayle, max_self]

/-- Settles O46: RESET puts the reset values of the controller, the arbiter and the channels in place, whatever the state
was. -/
theorem resetCommandResetsEveryElement : Obligations.ResetCommandResetsEveryElement := by
  intro s
  refine ⟨rfl, blockReset s, exec_reset s, ?_⟩
  exact ⟨rfl, rfl, rfl, rfl, rfl, rfl, rfl, reset_waiting, rfl, blockReset_chan s, blockReset_paula s,
    blockReset_visiblePaula s, blockReset_ipl s, rfl, rfl⟩

/-! ### The machine right after reset -/

/-- The block's elements already are at their reset values (R281). -/
theorem blockReset_reset : blockReset State.reset = State.reset := rfl

/-- Settles O47: the reset state is a state after RESET, its own. -/
theorem machineAfterReset : Obligations.MachineAfterReset := by
  have hreset : exec .reset State.reset = .next State.reset := by rw [exec_reset, blockReset_reset]
  have hipl : State.reset.ipl = 0 := by rw [← blockReset_reset, blockReset_ipl]
  exact ⟨hreset, hipl, reset_waiting .cpu, rfl, rfl, rfl, rfl, rfl⟩

end Sys2Proof.Machine
end
